-- ==== Sys2Proof/Word.lean ====
section
/-! DEFINITION. The words of the Delay Engine and the names of its channels and ports.

`F64` is the spec's NUM word (R200, 44_arithmetic.md): the 64-bit pattern of a binary64 value.
A NUM is a bit vector because the spec gives its layout (R93) and software sees the word whole;
its value is read out in Machine/Binary64.lean. -/

namespace Sys2Proof

/-- `NCH`, the number of channels (R4). -/
abbrev Config.nch : Nat := 2

/-- `CWW`, the width of a command word (R4, D4). -/
abbrev Config.cwW : Nat := 32

/-- `OPW`, the width of an operand word (R4, D4). -/
abbrev Config.opW : Nat := 64

/-- One NUM word (R200): bit 63 sign, bits 62..52 biased exponent, bits 51..0 fraction (R93). -/
abbrev F64 := BitVec 64

/-- A command word `CW` (R91). -/
abbrev CmdWord := BitVec Config.cwW

/-- An operand word (R91): a NUM taken whole (R93, R99), or PINGPONG's integer (R196). -/
abbrev OpWord := BitVec Config.opW

/-- A response word `RSP` (R102). -/
abbrev RspWord := BitVec 32

/-- The channel `c` (R4, R8): 0 is left, 1 is right. -/
inductive Chan where
  | left
  | right
deriving DecidableEq, Repr

/-- The number of a channel, one of `NCH` (R4). -/
def Chan.number : Chan → Fin Config.nch
  | .left => 0
  | .right => 1

/-- The two packet ports (R90). -/
inductive Port where
  | A
  | B
deriving DecidableEq, Repr

/-- A word as it travels on a port (R91): a 32-bit command word or a 64-bit operand word. -/
inductive PortWord where
  | cmd (w : CmdWord)
  | opd (w : OpWord)
deriving DecidableEq, Repr

end Sys2Proof
end

