-- ==== Sys2Proof/Config.lean ====
section
/-! DEFINITION. The implementation parameters of R4 (00_scope.md) and the free values of the spec.

`NCH`, `CWW` and `OPW`, which the words themselves need, stand in Word.lean. The decimal literals are kept as named constants, so that an audit changes one place (R4, D32). -/

namespace Sys2Proof.Config

/-- `SMOOTH_COEF`, the NUM nearest 0.001 (R4, R201). -/
def smoothCoef : F64 := 0x3F50624DD2F1A9FC#64

/-- `FB_MIN`, the NUM nearest 0.01 (R4, R201). -/
def fbMin : F64 := 0x3F847AE147AE147B#64

/-- `FB_MAX`, the NUM nearest 0.98 (R4, R201). -/
def fbMax : F64 := 0x3FEF5C28F5C28F5C#64

/-- `DT_MIN`, the NUM nearest 0.01 (R4, R201). -/
def dtMin : F64 := 0x3F847AE147AE147B#64

/-- `DW_MIN`, the lower end of the dry/wet range, +0 (R4). -/
def dwMin : F64 := 0x0000000000000000#64

/-- `DW_MAX`, the upper end of the dry/wet range, 1 (R4). -/
def dwMax : F64 := 0x3FF0000000000000#64

/-- `lit(0) = +0` (R201). -/
def plusZero : F64 := 0x0000000000000000#64

/-- `lit(1)` (R201). -/
def one : F64 := 0x3FF0000000000000#64

/-- `+infinity`, the delay-time bound while `CFG = 0` (R195). -/
def plusInfinity : F64 := 0x7FF0000000000000#64

/-- `LEN_MAX`, the largest buffer length, samples per channel (R4, D9). -/
def lenMax : Nat := 2097152

/-- `LENW`, the width of a write head and of `LEN` (R4, D28). -/
abbrev lenW : Nat := 22

/-- `IO_LEN`, the entries per channel of the block memory (R4, D7). -/
def ioLen : Nat := 16777216

/-- `CNTW`, the width of the PROCESS count and of the frame counter (R4, D23). -/
abbrev cntW : Nat := 24

/-! ## Free values

A draw names one evaluation of one numeric primitive. Two draws with different names are unrelated,
because nothing constrains the functions below: they have no body. -/

/-- The micro-operations of one channel in one frame, in the order of R140 and R174. -/
inductive Micro where
  | t1 | t2 | smooth | dts | write | back | wrap | floor | frac
  | weight | tapX | tapX1 | out | fnew | mixWeight | mixDry | mixWet | mixOut
deriving DecidableEq, Repr

/-- Where a primitive stands: CONFIGURE's product and its rounding (R123), or a micro-operation of a channel. -/
inductive Site where
  | configure
  | sample (c : Chan) (m : Micro)
deriving DecidableEq, Repr

/-- The name of one draw: the value of the model's counter, and the place of the primitive. -/
structure Draw where
  count : Nat
  site : Site
deriving DecidableEq, Repr

/-- The sign (bit 51) and payload (bits 50..0) of a NaN that an operation produces: not specified
(R203, U6). Free, so safe (DESIGN CHOICE, log entry 3). -/
opaque freeNaN : Draw → BitVec 52

/-- What `floor_int` and `round_half_away` would answer for a NaN or an infinity. They are never
applied to one (R205): this is read in states no run reaches. Free, so safe
(DESIGN CHOICE, log entry 4). -/
opaque freeInteger : Draw → Int

end Sys2Proof.Config
end

