-- ==== Sys2Proof/Syntax.lean ====
section
/-! DEFINITION. The commands of the Delay Engine: one constructor per row of spec/opcode_table.json
(R95 to R98, 30_encoding.md), and the response codes (R102). -/

namespace Sys2Proof

/-- A command with its operands (R95). A NUM operand is the whole operand word, every pattern accepted (R99). -/
inductive Instr where
  /-- CONFIGURE `sr`, `md` (R96, R120). -/
  | configure (sr md : F64)
  /-- SETPARAM DRYWET, `v` (R97, R192). -/
  | setparamDrywet (v : F64)
  /-- SETPARAM FEEDBACK, `v` (R97, R193). -/
  | setparamFeedback (v : F64)
  /-- SETPARAM DTL, `v` (R97, R194). -/
  | setparamDtl (v : F64)
  /-- SETPARAM DTR, `v` (R97, R194). -/
  | setparamDtr (v : F64)
  /-- SETPARAM PINGPONG, `u`, an unsigned 64-bit integer (R97, R196). -/
  | setparamPingpong (u : OpWord)
  /-- PROCESS `n`, the number of frames (R98, R170). -/
  | process (n : Nat)
deriving DecidableEq, Repr

/-- The four response codes that are ever returned (R102, R230, U4). -/
inductive Response where
  | ok
  | invalidConfiguration
  | notConfigured
  | illegalCommand
deriving DecidableEq, Repr

end Sys2Proof
end

