-- ==== Sys2Proof/WellFormed.lean ====
section
/-! DEFINITION. Which commands have an encoding. The one check is the range of PROCESS's count, the
24-bit field `CNT` (R92, R170); every other operand is a whole operand word and every pattern of it
is accepted (R99). -/

namespace Sys2Proof

/-- `0 <= n <= 2^24 - 1` (R170). -/
def countFits (n : Nat) : Bool := n < 2 ^ Config.cntW

/-- The command can be encoded as a packet of R96 to R98. -/
def WellFormed : Instr → Bool
  | .configure _ _ => true
  | .setparamDrywet _ => true
  | .setparamFeedback _ => true
  | .setparamDtl _ => true
  | .setparamDtr _ => true
  | .setparamPingpong _ => true
  | .process n => countFits n

end Sys2Proof
end

