-- ==== Sys2Proof/Decode.lean ====
section
/-! DEFINITION. Taking a packet from a port's stream of words (R91, R94, R101), decoding it (R92 to
R104, 30_encoding.md), and the encoder. -/

namespace Sys2Proof

/-! ## The fields of a command word (R92) -/

/-- `OPC = CW[31:28]`. -/
def opcField (cw : CmdWord) : BitVec 4 := cw.extractLsb' 28 4

/-- `SEL = CW[27:24]`. -/
def selField (cw : CmdWord) : BitVec 4 := cw.extractLsb' 24 4

/-- `CNT = CW[23:0]`. -/
def cntField (cw : CmdWord) : BitVec Config.cntW := cw.extractLsb' 0 Config.cntW

/-- The number of operand words, by `OPC` alone (R101). -/
def operandCount (cw : CmdWord) : Nat :=
  if opcField cw = 0x1#4 then 2
  else if opcField cw = 0x2#4 then 1
  else 0

/-! ## Taking a packet from a stream -/

/-- A packet (R91): the command word and the operand words taken with it. -/
structure Packet where
  cw : CmdWord
  ops : List OpWord
deriving DecidableEq, Repr

/-- The operand words at the head of a stream: not all there yet; a command word where an operand
word is due; or the words and the rest of the stream. -/
inductive Taken where
  | short
  | malformed
  | words (ops : List OpWord) (rest : List PortWord)
deriving DecidableEq, Repr

/-- Take `n` operand words (R101). -/
def takeOperands : Nat → List PortWord → Taken
  | 0, ws => .words [] ws
  | _ + 1, [] => .short
  | _ + 1, .cmd _ :: _ => .malformed
  | n + 1, .opd w :: ws =>
    match takeOperands n ws with
    | .short => .short
    | .malformed => .malformed
    | .words ops rest => .words (w :: ops) rest

/-- What stands at the head of a port's stream: no complete packet yet; words that are no packet of
R91; or a packet and the rest of the stream. -/
inductive Fetched where
  | waiting
  | malformed
  | packet (p : Packet) (rest : List PortWord)
deriving DecidableEq, Repr

/-- Take the next packet, its operand words counted by `OPC` alone (R101). -/
def takePacket : List PortWord → Fetched
  | [] => .waiting
  | .opd _ :: _ => .malformed
  | .cmd cw :: ws =>
    match takeOperands (operandCount cw) ws with
    | .short => .waiting
    | .malformed => .malformed
    | .words ops rest => .packet ⟨cw, ops⟩ rest

/-! ## Decoding (R104) -/

/-- Why a packet is illegal (R100). Every reason is answered IllegalCommand. -/
inductive Reject where
  /-- Not SETPARAM, on port B (R103). -/
  | notOnPortB
  /-- `OPC` is 0 or 4 to 15. -/
  | reservedOpcode
  /-- CONFIGURE with a `SEL` or `CNT` that is not zero. -/
  | configureFields
  /-- SETPARAM with `SEL >= 5`. -/
  | reservedParameter
  /-- SETPARAM with a `CNT` that is not zero. -/
  | setparamCount
  /-- PROCESS with a `SEL` that is not zero. -/
  | processSel
deriving DecidableEq, Repr

/-- SETPARAM by its selector (R97). -/
def decodeSetparam (sel : BitVec 4) (v : OpWord) : Except Reject Instr :=
  if sel = 0#4 then .ok (.setparamDrywet v)
  else if sel = 1#4 then .ok (.setparamFeedback v)
  else if sel = 2#4 then .ok (.setparamDtl v)
  else if sel = 3#4 then .ok (.setparamDtr v)
  else if sel = 4#4 then .ok (.setparamPingpong v)
  else .error .reservedParameter

/-- The decode procedure, total on every packet: port legality first, then the command word (R104, R237). -/
def decode (port : Port) (p : Packet) : Except Reject Instr :=
  if port = .B ∧ opcField p.cw ≠ 0x2#4 then .error .notOnPortB
  else if opcField p.cw = 0x1#4 then
    if selField p.cw = 0#4 ∧ cntField p.cw = 0#Config.cntW then
      .ok (.configure (p.ops.getD 0 0#64) (p.ops.getD 1 0#64))
    else .error .configureFields
  else if opcField p.cw = 0x2#4 then
    if cntField p.cw = 0#Config.cntW then decodeSetparam (selField p.cw) (p.ops.getD 0 0#64)
    else .error .setparamCount
  else if opcField p.cw = 0x3#4 then
    if selField p.cw = 0#4 then .ok (.process (cntField p.cw).toNat) else .error .processSel
  else .error .reservedOpcode

/-! ## The encoder (R96, R97, R98) -/

/-- A command word from its three fields (R92). -/
def commandWord (opc sel : BitVec 4) (cnt : BitVec Config.cntW) : CmdWord := opc ++ sel ++ cnt

/-- The packet of a well-formed command. -/
def encodePacket : Instr → Packet
  | .configure sr md => ⟨commandWord 0x1#4 0#4 0#Config.cntW, [sr, md]⟩
  | .setparamDrywet v => ⟨commandWord 0x2#4 0#4 0#Config.cntW, [v]⟩
  | .setparamFeedback v => ⟨commandWord 0x2#4 1#4 0#Config.cntW, [v]⟩
  | .setparamDtl v => ⟨commandWord 0x2#4 2#4 0#Config.cntW, [v]⟩
  | .setparamDtr v => ⟨commandWord 0x2#4 3#4 0#Config.cntW, [v]⟩
  | .setparamPingpong u => ⟨commandWord 0x2#4 4#4 0#Config.cntW, [u]⟩
  | .process n => ⟨commandWord 0x3#4 0#4 (BitVec.ofNat Config.cntW n), []⟩

/-- A packet as the words the host sends: the command word, then the operand words (R91). -/
def packetWords (p : Packet) : List PortWord := .cmd p.cw :: p.ops.map .opd

/-- The words of a well-formed command. -/
def encode (i : Instr) : List PortWord := packetWords (encodePacket i)

/-! ## The words of an opcode-table row -/

/-- `n` operand words cut from the bits of `w`, the first in the low `OPW` bits. -/
def operandWordsOf : Nat → Nat → List OpWord
  | 0, _ => []
  | n + 1, w => BitVec.ofNat Config.opW w :: operandWordsOf n (w / 2 ^ Config.opW)

/-- The packet whose bits are `w`: bit 0 is the least significant bit of the command word, and an
operand word's bits count on from it; the bits from `nbits` up are 0. -/
def tablePacket (nbits w : Nat) : Packet :=
  let bits := w % 2 ^ nbits
  let cw := BitVec.ofNat Config.cwW bits
  ⟨cw, operandWordsOf (operandCount cw) (bits / 2 ^ Config.cwW)⟩

/-- What the decoder reads from the words whose bits are `w`, on port A. -/
def decodeTableWord (nbits w : Nat) : Option Instr :=
  match takePacket (packetWords (tablePacket nbits w)) with
  | .packet p _ =>
    match decode .A p with
    | .ok i => some i
    | .error _ => none
  | .waiting => none
  | .malformed => none

end Sys2Proof
end

