-- ==== Sys2Proof/Machine/State.lean ====
section
/-! DEFINITION. The state of the Delay Engine as plain data (10_state.md, 20_memory.md), its reset
value, and the reasons a step can stop.

`Channel` and `Latches` take the numeric format as an argument, because every rule of the datapath
also reads under ideal arithmetic (R212); the machine holds them at `F64`. -/

namespace Sys2Proof.Machine

/-- A memory space as a list of (index, entry) pairs, indexes strictly rising, no entry equal to what
an unlisted index reads as. The unit is one whole NUM entry, never a byte (R64). -/
abbrev Memory (α : Type) := List (Nat × α)

/-- The datapath state of one channel (R20 class (a)). -/
structure Channel (α : Type) where
  /-- `BUF[c]`, the circular buffer (R21). -/
  buf : Memory α
  /-- `WH[c]`, the write head (R22). -/
  wh : BitVec Config.lenW
  /-- `RH[c]`, the read head (R23). -/
  rh : α
  /-- `SM[c]`, the smoothed delay time in seconds (R24). -/
  sm : α
  /-- `FB[c]`, the feedback sample (R25). -/
  fb : α
deriving DecidableEq, Repr

/-- The configuration registers and the configured flag (R20 class (b)). -/
structure Conf where
  /-- `SR`, the sample rate (R27). -/
  sr : F64
  /-- `MAXD`, the maximum delay in seconds (R28). -/
  maxd : F64
  /-- `LEN`, the buffer length (R29). -/
  len : BitVec Config.lenW
  /-- `CFG`, the configured flag (R31). -/
  cfg : Bool
deriving DecidableEq, Repr

/-- The parameter registers `P[0]` to `P[4]` (R20 class (c), R37). -/
structure Params where
  /-- `P[0]` (R32). -/
  drywet : F64
  /-- `P[1]` (R33). -/
  feedback : F64
  /-- `P[2]` (R34). -/
  dtl : F64
  /-- `P[3]` (R35). -/
  dtr : F64
  /-- `P[4]` (R36). -/
  pingpong : Bool
deriving DecidableEq, Repr

/-- The parameter latches (R20 class (d), R38). -/
structure Latches (α : Type) where
  /-- `LDW`. -/
  ldw : α
  /-- `LFB`. -/
  lfb : α
  /-- `LDT[0]`. -/
  ldt0 : α
  /-- `LDT[1]`. -/
  ldt1 : α
  /-- `LPP`. -/
  lpp : Bool
deriving DecidableEq, Repr

/-- A word still to come on port B: it arrives when `wait` parameter read points have passed since
the word before it (R70; DESIGN CHOICE, safe, log entry 5). -/
structure Arrival where
  wait : Nat
  word : PortWord
deriving DecidableEq, Repr

/-- The whole state. -/
structure State where
  /-- Channel 0. -/
  left : Channel F64
  /-- Channel 1. -/
  right : Channel F64
  /-- `SR`, `MAXD`, `LEN`, `CFG`. -/
  conf : Conf
  /-- `P[0]` to `P[4]`. -/
  params : Params
  /-- `LDW`, `LFB`, `LDT[0]`, `LDT[1]`, `LPP`. -/
  latch : Latches F64
  /-- `FC`, the frame counter (R40). -/
  fc : BitVec Config.cntW
  /-- `IO[0]`, left samples (R62). -/
  io0 : Memory F64
  /-- `IO[1]`, right samples (R62). -/
  io1 : Memory F64
  /-- Words received on port A and not yet consumed (R90, R101). -/
  portA : List PortWord
  /-- Words received on port B and not yet consumed. -/
  portB : List PortWord
  /-- Words the host has yet to send on port B, and when (DESIGN CHOICE, safe, log entry 5). The model's own
  field. -/
  wireB : List Arrival
  /-- Response words given on port A, oldest first (R102). -/
  rspA : List RspWord
  /-- Response words given on port B, oldest first. -/
  rspB : List RspWord
  /-- The name of the next frame's free values (DESIGN CHOICE, safe, log entry 3). The model's own field. -/
  draws : Nat
deriving DecidableEq, Repr

/-- A channel after reset: no buffer entry, and zero where the spec leaves the value open (R50;
DESIGN CHOICE, unsafe, log entry 1). -/
def Channel.reset : Channel F64 :=
  { buf := [], wh := 0#Config.lenW, rh := Config.plusZero, sm := Config.plusZero, fb := Config.plusZero }

/-- The machine right after reset (R50, R260). The values of `SR`, `MAXD`, `LEN`, `WH`, `RH`, `SM`,
`FB`, the latches and `FC` are the model's choice, unobservable while `CFG = 0` (R51; DESIGN CHOICE, unsafe, log
entry 1). -/
def State.reset : State :=
  { left := Channel.reset
    right := Channel.reset
    conf := { sr := Config.plusZero, maxd := Config.plusZero, len := 0#Config.lenW, cfg := false }
    params :=
      { drywet := Config.plusZero, feedback := Config.fbMin, dtl := Config.dtMin,
        dtr := Config.dtMin, pingpong := false }
    latch :=
      { ldw := Config.plusZero, lfb := Config.plusZero, ldt0 := Config.plusZero,
        ldt1 := Config.plusZero, lpp := false }
    fc := 0#Config.cntW
    io0 := []
    io1 := []
    portA := []
    portB := []
    wireB := []
    rspA := []
    rspB := []
    draws := 0 }

/-- Why the model stops where the spec has no such access. -/
inductive Fault where
  /-- A write head outside `[0, LEN)`: raised by a frame of PROCESS. Safe: the spec's R43 excludes
  the state, and no run from reset reaches it (DESIGN CHOICE, log entry 6). -/
  | bufIndexOutOfRange
  /-- A frame index outside `[0, IO_LEN)`: raised by a frame of PROCESS with a count that no packet
  can carry (R65). Safe (DESIGN CHOICE, log entry 6). -/
  | ioIndexOutOfRange
deriving DecidableEq, Repr

/-- Why the model gives no meaning. -/
inductive Refusal where
  /-- Raised by exec's arm of a command without a meaning: no arm of this model does. Safe. -/
  | notModelled (mnemonic : String)
  /-- The words at the head of the port's stream are no packet of R91: raised by `step`. Safe: the
  spec says nothing of a host that sends such words (DESIGN CHOICE, log entry 7). -/
  | malformedStream (port : Port)
deriving DecidableEq, Repr

end Sys2Proof.Machine
end

