-- ==== Sys2Proof/Machine/Numerics.lean ====
section
/-! DEFINITION. The numeric format as a record of its operations (R9, R200, R212), and the primitives
that every format shares: `clamp` (R10) and `emod` (R11). -/

namespace Sys2Proof.Machine

/-- The numeric primitives of R9 and the constants the datapath uses. A produced NaN takes its
pattern from the draw it is given (R203); a format without NaN ignores it. -/
structure Numerics (α : Type) where
  /-- `+0`. -/
  zero : α
  /-- `lit(1)`. -/
  one : α
  /-- `SMOOTH_COEF`. -/
  smoothCoef : α
  /-- `fadd`. -/
  add : Config.Draw → α → α → α
  /-- `fsub`. -/
  sub : Config.Draw → α → α → α
  /-- `fmul`. -/
  mul : Config.Draw → α → α → α
  /-- `flt`. -/
  lt : α → α → Bool
  /-- `fge`. -/
  ge : α → α → Bool
  /-- `fgt`. -/
  gt : α → α → Bool
  /-- `is_finite`. -/
  isFinite : α → Bool
  /-- `floor_int`. -/
  floorInt : Config.Draw → α → Int
  /-- `round_half_away`. -/
  roundHalfAway : Config.Draw → α → Int
  /-- `int_to_num`. -/
  intToNum : Int → α

/-- `clamp(v, lo, hi)`: the lower bound first, the upper bound has the last word (R10). -/
def clamp {α : Type} (N : Numerics α) (v lo hi : α) : α :=
  let r := if N.ge v lo then v else lo
  if N.gt r hi then hi else r

/-- `emod(k, n)`, the Euclidean remainder (R11). -/
def emod (k : Int) (n : Nat) : Nat := (k % (n : Int)).toNat

end Sys2Proof.Machine
end

