-- ==== Sys2Proof/Machine/Binary64.lean ====
section
/-! DEFINITION. IEEE 754 binary64 (R200 to R207, 44_arithmetic.md).

Every finite value is an integer number of units of 2^-1074, so an operation is computed exactly on
integers and rounded once at the end, to nearest, ties to even (R202). -/

namespace Sys2Proof.Machine

/-! ## Reading a word (R93, R200) -/

/-- One in units of 2^-1074: `2^1074`. -/
def f64Unit : Nat := 2 ^ 1074

/-- The magnitude pattern of the infinities: exponent field all ones, fraction zero. -/
def f64InfBits : Nat := 0x7FF0000000000000

/-- The sign bit. -/
def f64Sign (x : F64) : Bool := x.getLsbD 63

/-- The biased exponent field. -/
def f64Exp (x : F64) : Nat := x.toNat / 2 ^ 52 % 2 ^ 11

/-- The fraction field. -/
def f64Frac (x : F64) : Nat := x.toNat % 2 ^ 52

/-- Sign flipped, all else kept. -/
def f64Neg (x : F64) : F64 := x ^^^ 0x8000000000000000#64

/-- The magnitude of a finite value in units of 2^-1074: a subnormal is its fraction, a normal has
the hidden bit and is scaled by its exponent. -/
def f64Mag (x : F64) : Nat :=
  if f64Exp x = 0 then f64Frac x else (2 ^ 52 + f64Frac x) * 2 ^ (f64Exp x - 1)

/-- What a word stands for: a NaN, an infinity, or a finite value in units of 2^-1074. -/
inductive F64Value where
  | nan
  | inf (neg : Bool)
  | fin (units : Int)
deriving DecidableEq, Repr

/-- The value of a word (R200). The two zeros have one value; their sign is read with `f64Sign`. -/
def f64Value (x : F64) : F64Value :=
  if f64Exp x = 2047 then (if f64Frac x = 0 then .inf (f64Sign x) else .nan)
  else .fin (if f64Sign x then -(f64Mag x : Int) else (f64Mag x : Int))

/-- A NaN. -/
def f64IsNaN (x : F64) : Bool := f64Exp x = 2047 ∧ f64Frac x ≠ 0

/-- `is_finite`: the exponent field is not all ones (R204). -/
def f64IsFinite (x : F64) : Bool := f64Exp x ≠ 2047

/-! ## Building a word -/

/-- A quiet NaN with the sign and payload of the draw (R203). -/
def quietNaN (bits : BitVec 52) : F64 :=
  bits.extractLsb' 51 1 ++ 0xFFF#12 ++ bits.extractLsb' 0 51

/-- A word from its sign and the 63 bits below it. -/
def f64Pack (neg : Bool) (bits : Nat) : F64 :=
  BitVec.ofNat 64 ((if neg then 2 ^ 63 else 0) + bits)

/-- An infinity. -/
def f64Inf (neg : Bool) : F64 := f64Pack neg f64InfBits

/-- A zero. -/
def f64Zero (neg : Bool) : F64 := f64Pack neg 0

/-- The quotient of `m` by `2^k` to the nearest integer, ties to even. -/
def roundShift (m k : Nat) : Nat :=
  let q := m / 2 ^ k
  let r := m % 2 ^ k
  if 2 ^ k < 2 * r ∨ (2 * r = 2 ^ k ∧ q % 2 = 1) then q + 1 else q

/-- The magnitude pattern (bits 62..0) nearest to `m` units of 2^-(1074 + sh), ties to even: the
bits below the 53 leading ones, or below 2^-1074, are rounded away; overflow gives the infinity's
pattern (R202). The exponent's carry comes out of the sum. -/
def roundBits (m sh : Nat) : Nat :=
  let drop := max sh (Nat.log2 m - 52)
  min ((drop - sh) * 2 ^ 52 + roundShift m drop) f64InfBits

/-! ## The operations (R202) -/

/-- `fadd`: the exact sum rounded once. An exact zero is `-0` only when both operands are `-0`. -/
def f64Add (d : Config.Draw) (a b : F64) : F64 :=
  match f64Value a, f64Value b with
  | .nan, _ => quietNaN (Config.freeNaN d)
  | _, .nan => quietNaN (Config.freeNaN d)
  | .inf na, .inf nb => if na = nb then f64Inf na else quietNaN (Config.freeNaN d)
  | .inf na, .fin _ => f64Inf na
  | .fin _, .inf nb => f64Inf nb
  | .fin x, .fin y =>
    if x + y = 0 then f64Zero (f64Sign a && f64Sign b)
    else f64Pack (x + y < 0) (roundBits (x + y).natAbs 0)

/-- `fsub`: the exact difference rounded once. -/
def f64Sub (d : Config.Draw) (a b : F64) : F64 := f64Add d a (f64Neg b)

/-- `fmul`: the exact product rounded once, its sign the product of the signs. -/
def f64Mul (d : Config.Draw) (a b : F64) : F64 :=
  let neg := f64Sign a != f64Sign b
  match f64Value a, f64Value b with
  | .nan, _ => quietNaN (Config.freeNaN d)
  | _, .nan => quietNaN (Config.freeNaN d)
  | .inf _, .inf _ => f64Inf neg
  | .inf _, .fin y => if y = 0 then quietNaN (Config.freeNaN d) else f64Inf neg
  | .fin x, .inf _ => if x = 0 then quietNaN (Config.freeNaN d) else f64Inf neg
  | .fin x, .fin y => f64Pack neg (roundBits (x.natAbs * y.natAbs) 1074)

/-! ## Comparisons (R204): false with a NaN operand; the two zeros are equal -/

/-- `a < b` on the values. -/
def valueLt : F64Value → F64Value → Bool
  | .nan, _ => false
  | _, .nan => false
  | .inf na, .inf nb => na && !nb
  | .inf na, .fin _ => na
  | .fin _, .inf nb => !nb
  | .fin x, .fin y => x < y

/-- `a <= b` on the values. -/
def valueLe : F64Value → F64Value → Bool
  | .nan, _ => false
  | _, .nan => false
  | .inf na, .inf nb => na || !nb
  | .inf na, .fin _ => na
  | .fin _, .inf nb => !nb
  | .fin x, .fin y => x ≤ y

/-- `flt`. -/
def f64Lt (a b : F64) : Bool := valueLt (f64Value a) (f64Value b)

/-- `fle`. -/
def f64Le (a b : F64) : Bool := valueLe (f64Value a) (f64Value b)

/-- `fgt`. -/
def f64Gt (a b : F64) : Bool := f64Lt b a

/-- `fge`. -/
def f64Ge (a b : F64) : Bool := f64Le b a

/-! ## Integers (R205, R206, R207) -/

/-- `floor_int` (R205). -/
def f64FloorInt (d : Config.Draw) (a : F64) : Int :=
  match f64Value a with
  | .fin x => x / (f64Unit : Int)
  | .inf _ => Config.freeInteger d
  | .nan => Config.freeInteger d

/-- The integer nearest `m` units of 2^-1074, a tie going up (R207, on a magnitude). -/
def roundHalfUp (m : Nat) : Nat :=
  if 2 * (m % f64Unit) < f64Unit then m / f64Unit else m / f64Unit + 1

/-- `round_half_away`: the nearest integer, a tie going away from zero (R9, R207). -/
def f64RoundHalfAway (d : Config.Draw) (a : F64) : Int :=
  match f64Value a with
  | .fin x => if x < 0 then -(roundHalfUp x.natAbs : Int) else (roundHalfUp x.natAbs : Int)
  | .inf _ => Config.freeInteger d
  | .nan => Config.freeInteger d

/-- `int_to_num` (R206): rounded once; exact for every integer the hardware converts. -/
def f64OfInt (k : Int) : F64 := f64Pack (k < 0) (roundBits (k.natAbs * f64Unit) 0)

/-- `lit(d)` for the decimal `num/den` with `num >= 0`, `den > 0`: the nearest value (R9, R201). The
quotient is cut 64 bits below the unit, with a last bit that says whether anything was cut off. -/
def f64Lit (num den : Nat) : F64 :=
  let scaled := num * 2 ^ 1138
  f64Pack false (roundBits (2 * (scaled / den) + (if scaled % den = 0 then 0 else 1)) 65)

/-- NUM is binary64 (R200). -/
def binary64 : Numerics F64 where
  zero := Config.plusZero
  one := Config.one
  smoothCoef := Config.smoothCoef
  add := f64Add
  sub := f64Sub
  mul := f64Mul
  lt := f64Lt
  ge := f64Ge
  gt := f64Gt
  isFinite := f64IsFinite
  floorInt := f64FloorInt
  roundHalfAway := f64RoundHalfAway
  intToNum := f64OfInt

end Sys2Proof.Machine
end

