-- ==== Sys2Proof/Machine/Ops.lean ====
section
/-! DEFINITION. The named operations over memory, ports and channels, and the one operation that
takes an error (R236, 60_exceptions.md). -/

namespace Sys2Proof.Machine

/-! ## Memory: `MemRead` and `MemWrite` (R8), one whole entry at a time (R64, R66) -/

/-- `MemRead(space, i)`; `z` is what an unlisted index reads as. -/
def Memory.read {α : Type} (z : α) : Memory α → Nat → α
  | [], _ => z
  | (j, v) :: m, i => if j = i then v else if i < j then z else Memory.read z m i

/-- `MemWrite(space, i, v)`. Writing `z` removes the entry. -/
def Memory.write {α : Type} [DecidableEq α] (z : α) : Memory α → Nat → α → Memory α
  | [], i, v => if v = z then [] else [(i, v)]
  | (j, w) :: m, i, v =>
    if j = i then (if v = z then m else (i, v) :: m)
    else if i < j then (if v = z then (j, w) :: m else (i, v) :: (j, w) :: m)
    else (j, w) :: Memory.write z m i v

/-- Every listed index is at least `lo` and they rise strictly; no entry equals `z`. -/
def Memory.wfFrom {α : Type} [DecidableEq α] (z : α) : Nat → Memory α → Bool
  | _, [] => true
  | lo, (j, v) :: m => decide (lo ≤ j) && decide (v ≠ z) && Memory.wfFrom z (j + 1) m

/-- The canonical form. -/
def Memory.wf {α : Type} [DecidableEq α] (z : α) (m : Memory α) : Bool := Memory.wfFrom z 0 m

/-- Every listed index is below `n`: the space has `n` entries (R60). -/
def Memory.within {α : Type} (n : Nat) (m : Memory α) : Bool := m.all fun e => decide (e.1 < n)

/-- A cleared space: every entry reads `+0`. CONFIGURE's zero fill (R124). -/
def Memory.cleared {α : Type} : Memory α := []

/-! ## Channels and their block memory -/

/-- The datapath state of channel `c`. -/
def State.chan (s : State) : Chan → Channel F64
  | .left => s.left
  | .right => s.right

/-- `IO[c]`. -/
def State.io (s : State) : Chan → Memory F64
  | .left => s.io0
  | .right => s.io1

/-- What entry `i` of `IO[c]` holds (R62). -/
def State.ioRead (s : State) (c : Chan) (i : Nat) : F64 := Memory.read Config.plusZero (s.io c) i

/-- What entry `i` of `BUF[c]` holds (R61). -/
def State.bufRead (s : State) (c : Chan) (i : Nat) : F64 :=
  Memory.read Config.plusZero (s.chan c).buf i

/-! ## Responses and errors -/

/-- The response word: `RSP[3:0]` is the code, `RSP[31:4]` is 0 (R102). -/
def responseWord : Response → RspWord
  | .ok => 0x00000000#32
  | .invalidConfiguration => 0x00000001#32
  | .notConfigured => 0x00000002#32
  | .illegalCommand => 0x00000003#32

/-- Answer a packet on its port, after the answers already given there (R102). -/
def respond (port : Port) (r : Response) (s : State) : State :=
  match port with
  | .A => { s with rspA := s.rspA ++ [responseWord r] }
  | .B => { s with rspB := s.rspB ++ [responseWord r] }

/-- `raise E`: taking an error (R8, R236). Nothing changes but the response word on the packet's
port; the next packet is then taken as after any command (R238). -/
def raiseError (port : Port) (e : Response) (s : State) : State := respond port e s

end Sys2Proof.Machine
end

