-- ==== Sys2Proof/Machine/Flags.lean ====
section
/-! DEFINITION. The flags and the conditions of the spec. The machine has one flag, `CFG` (R31): no
condition codes, no overflow or NaN flags, no sticky error bits, and no command writes a flag as a
side effect. -/

namespace Sys2Proof.Machine

/-- `CFG = 1`: a CONFIGURE has succeeded since reset (R31). -/
def State.configured (s : State) : Bool := s.conf.cfg

/-- `fgt(v, +0) and is_finite(v)`: CONFIGURE's test of each operand (R120, R121, R122). -/
def positiveFinite {α : Type} (N : Numerics α) (v : α) : Bool := N.gt v N.zero && N.isFinite v

/-- R146's ghost flag: the integer index is outside the buffer, so that `emod` changes it. The
hardware has no such flag; it serves statements. -/
def idxCorrected (xi : Int) (len : Nat) : Bool := decide (xi < 0) || decide ((len : Int) ≤ xi)

/-- `0 <= WH[c] < LEN` for both channels (R43). -/
def State.headsInRange (s : State) : Bool :=
  decide (s.left.wh.toNat < s.conf.len.toNat) && decide (s.right.wh.toNat < s.conf.len.toNat)

end Sys2Proof.Machine
end

