-- ==== Sys2Proof/Machine/Operands.lean ====
section
/-! DEFINITION. How each command reads its operand word: a clamped NUM (R191 to R195), an integer read
as a flag (R196), and CONFIGURE's pair as a buffer length (R120 to R123). -/

namespace Sys2Proof.Machine

/-- The value DRYWET stores (R192). -/
def drywetOperand (v : F64) : F64 := clamp binary64 v Config.dwMin Config.dwMax

/-- The value FEEDBACK stores (R193). -/
def feedbackOperand (v : F64) : F64 := clamp binary64 v Config.fbMin Config.fbMax

/-- The delay-time upper bound `hi`: `MAXD` when `CFG = 1`, else `+infinity` (R195). -/
def delayUpper (c : Conf) : F64 := if c.cfg then c.maxd else Config.plusInfinity

/-- The value DTL and DTR store (R194, R195). -/
def delayOperand (c : Conf) (v : F64) : F64 := clamp binary64 v Config.dtMin (delayUpper c)

/-- The value PINGPONG stores: only the all-zero word means disabled (R196). -/
def pingpongOperand (u : OpWord) : Bool := decide (u ≠ 0#64)

/-- CONFIGURE's validation and the buffer length: `none` is InvalidConfiguration (R120 to R123). -/
def configureLength {α : Type} (N : Numerics α) (d : Config.Draw) (sr md : α) : Option Nat :=
  if !positiveFinite N sr then none
  else if !positiveFinite N md then none
  else
    let p := N.mul d sr md
    if !N.isFinite p then none
    else
      let n := N.roundHalfAway d p
      if n < 1 ∨ (Config.lenMax : Int) < n then none else some n.toNat

end Sys2Proof.Machine
end

