-- ==== Sys2Proof/Machine/Configure.lean ====
section
/-! DEFINITION. CONFIGURE (40_configure.md). -/

namespace Sys2Proof.Machine

/-- A channel after a successful CONFIGURE: buffer cleared, heads and feedback zero, the smoother at
its initial target (R124 to R127). -/
def clearedChannel (target : F64) : Channel F64 :=
  { buf := Memory.cleared, wh := 0#Config.lenW, rh := Config.plusZero, sm := target, fb := Config.plusZero }

/-- The commit of CONFIGURE with length `n` (R120, R124 to R128): the two delay-time registers are
re-clamped to the new maximum and become the smoothers' values (R126). -/
def configureCommit (sr md : F64) (n : Nat) (s : State) : State :=
  let dtl := clamp binary64 s.params.dtl Config.dtMin md
  let dtr := clamp binary64 s.params.dtr Config.dtMin md
  { s with
    conf := { sr := sr, maxd := md, len := BitVec.ofNat Config.lenW n, cfg := true }
    params := { s.params with dtl := dtl, dtr := dtr }
    left := clearedChannel dtl
    right := clearedChannel dtr }

/-- CONFIGURE `sr`, `md` (R120): validate before the first write, then commit (R130). -/
def execConfigure (sr md : F64) (s : State) : Host.Outcome State Fault Refusal :=
  match configureLength binary64 ⟨s.draws, .configure⟩ sr md with
  | none => .next (raiseError .A .invalidConfiguration s)
  | some n => .next (respond .A .ok (configureCommit sr md n s))

end Sys2Proof.Machine
end

