-- ==== Sys2Proof/Machine/SetParam.lean ====
section
/-! DEFINITION. SETPARAM (43_setparam.md): one atomic write of one parameter register, the same from
either port (R190, R241), and the control-port writer's half of it. -/

namespace Sys2Proof.Machine

/-! ## The register writes -/

/-- `P[0] <- clamp(v, +0, 1)` (R192). -/
def writeDrywet (v : F64) (s : State) : State :=
  { s with params := { s.params with drywet := drywetOperand v } }

/-- `P[1] <- clamp(v, FB_MIN, FB_MAX)` (R193). -/
def writeFeedback (v : F64) (s : State) : State :=
  { s with params := { s.params with feedback := feedbackOperand v } }

/-- `P[2] <- clamp(v, DT_MIN, hi)` (R194, R195). -/
def writeDtl (v : F64) (s : State) : State :=
  { s with params := { s.params with dtl := delayOperand s.conf v } }

/-- `P[3] <- clamp(v, DT_MIN, hi)` (R194, R195). -/
def writeDtr (v : F64) (s : State) : State :=
  { s with params := { s.params with dtr := delayOperand s.conf v } }

/-- `P[4] <- 0 if u = 0 else 1` (R196). -/
def writePingpong (u : OpWord) (s : State) : State :=
  { s with params := { s.params with pingpong := pingpongOperand u } }

/-! ## The commands on port A (R190): the write, then OK; no value raises anything (R232) -/

/-- SETPARAM DRYWET. -/
def execSetparamDrywet (v : F64) (s : State) : Host.Outcome State Fault Refusal :=
  .next (respond .A .ok (writeDrywet v s))

/-- SETPARAM FEEDBACK. -/
def execSetparamFeedback (v : F64) (s : State) : Host.Outcome State Fault Refusal :=
  .next (respond .A .ok (writeFeedback v s))

/-- SETPARAM DTL. -/
def execSetparamDtl (v : F64) (s : State) : Host.Outcome State Fault Refusal :=
  .next (respond .A .ok (writeDtl v s))

/-- SETPARAM DTR. -/
def execSetparamDtr (v : F64) (s : State) : Host.Outcome State Fault Refusal :=
  .next (respond .A .ok (writeDtr v s))

/-- SETPARAM PINGPONG. -/
def execSetparamPingpong (u : OpWord) (s : State) : Host.Outcome State Fault Refusal :=
  .next (respond .A .ok (writePingpong u s))

/-! ## The commands on port B (R90, R103) -/

/-- Serve a packet that port B's decoder accepted: the same register writes, answered on port B. The
decoder lets no other command through (R103); one is answered IllegalCommand. -/
def controlWrite (i : Instr) (s : State) : State :=
  match i with
  | .setparamDrywet v => respond .B .ok (writeDrywet v s)
  | .setparamFeedback v => respond .B .ok (writeFeedback v s)
  | .setparamDtl v => respond .B .ok (writeDtl v s)
  | .setparamDtr v => respond .B .ok (writeDtr v s)
  | .setparamPingpong u => respond .B .ok (writePingpong u s)
  | .configure _ _ => raiseError .B .illegalCommand s
  | .process _ => raiseError .B .illegalCommand s

/-- Serve one packet of port B, legal or not (R101, R103, R104). -/
def servePacketB (p : Packet) (s : State) : State :=
  match decode .B p with
  | .ok i => controlWrite i s
  | .error _ => raiseError .B .illegalCommand s

end Sys2Proof.Machine
end

