-- ==== Sys2Proof/Machine/PortB.lean ====
section
/-! DEFINITION. The control-port writer between two micro-steps of the engine (R5, R70 to R72): at a
slot, the words that are due arrive on port B and every complete packet is served at once, in port-B
order. The schedule is plain data in State, so a statement over all states holds for every
interleaving of port-B writes with the engine's reads. -/

namespace Sys2Proof.Machine

/-- The words due now, and what is still to come, one read point nearer. -/
def arrive : List Arrival → List PortWord × List Arrival
  | [] => ([], [])
  | a :: rest =>
    if a.wait = 0 then (a.word :: (arrive rest).1, (arrive rest).2)
    else ([], { a with wait := a.wait - 1 } :: rest)

/-- Serve up to `fuel` complete packets from the head of port B's stream. -/
def servePortB : Nat → State → State
  | 0, s => s
  | fuel + 1, s =>
    match takePacket s.portB with
    | .packet p rest => servePortB fuel (servePacketB p { s with portB := rest })
    | .waiting => s
    | .malformed => s

/-- The words due now join port B's stream. -/
def receiveB (s : State) : State :=
  { s with portB := s.portB ++ (arrive s.wireB).1, wireB := (arrive s.wireB).2 }

/-- One point at which port-B writes may fall (R70). A packet takes at least one word, so the number
of words bounds the number of packets. -/
def slot (s : State) : State :=
  servePortB (receiveB s).portB.length (receiveB s)

end Sys2Proof.Machine
end

