-- ==== Sys2Proof/Machine/Sample.lean ====
section
/-! DEFINITION. PROCESS_SAMPLE (41_process_sample.md), MIX and the feedback commit
(42_frame_and_block.md), over any numeric format (R212). Each step has a definition of its own, its
operations in the order of R208. -/

namespace Sys2Proof.Machine

variable {α : Type}

/-- The draw of micro-operation `m` of channel `c` in the frame named `k`. -/
def sampleDraw (k : Nat) (c : Chan) (m : Config.Micro) : Config.Draw := ⟨k, .sample c m⟩

/-- Step 1, smooth the delay time (R141). -/
def smoothStep (N : Numerics α) (k : Nat) (c : Chan) (sm target : α) : α :=
  let t1 := N.sub (sampleDraw k c .t1) target sm
  let t2 := N.mul (sampleDraw k c .t2) N.smoothCoef t1
  N.add (sampleDraw k c .smooth) sm t2

/-- Step 2, convert to samples (R142). -/
def delaySamples (N : Numerics α) (k : Nat) (c : Chan) (sr sm : α) : α :=
  N.mul (sampleDraw k c .dts) sr sm

/-- Step 3, the value written at the write head (R143). -/
def writeValue (N : Numerics α) (k : Nat) (c : Chan) (xin fb : α) : α :=
  N.add (sampleDraw k c .write) xin fb

/-- Step 4, the fractional read position: the length is added at most once (R144). -/
def readPosition (N : Numerics α) (k : Nat) (c : Chan) (w len : Nat) (dts : α) : α :=
  let rh := N.sub (sampleDraw k c .back) (N.intToNum w) dts
  if N.lt rh N.zero then N.add (sampleDraw k c .wrap) rh (N.intToNum len) else rh

/-- Step 5, the base index before its reduction (R145). -/
def baseIndex (N : Numerics α) (k : Nat) (c : Chan) (rh : α) : Int :=
  N.floorInt (sampleDraw k c .floor) rh

/-- Step 5, the fractional part, taken against the unreduced base index (R145, R146). -/
def fraction (N : Numerics α) (k : Nat) (c : Chan) (rh : α) (xi : Int) : α :=
  N.sub (sampleDraw k c .frac) rh (N.intToNum xi)

/-- Step 5, the index `x`, reduced in every case (R146). -/
def tapIndex (xi : Int) (len : Nat) : Nat := emod xi len

/-- Step 5, the companion index `x1` (R146). -/
def tapIndex1 (xi : Int) (len : Nat) : Nat := emod ((tapIndex xi len : Int) + 1) len

/-- Step 6, linear interpolation of the two taps (R147). -/
def interpolate (N : Numerics α) (k : Nat) (c : Chan) (frac atX atX1 : α) : α :=
  let g := N.sub (sampleDraw k c .weight) N.one frac
  let a := N.mul (sampleDraw k c .tapX) g atX
  let b := N.mul (sampleDraw k c .tapX1) frac atX1
  N.add (sampleDraw k c .out) a b

/-- Step 7, the fresh feedback value (R148). -/
def feedbackValue (N : Numerics α) (k : Nat) (c : Chan) (out fbc : α) : α :=
  N.mul (sampleDraw k c .fnew) out fbc

/-- Step 8, advance the write head, wrapping to 0 at the buffer length (R149). -/
def advanceHead (w : BitVec Config.lenW) (len : Nat) : BitVec Config.lenW :=
  if w.toNat + 1 = len then 0#Config.lenW else BitVec.ofNat Config.lenW (w.toNat + 1)

/-- What one PROCESS_SAMPLE gives: the channel after it, and the pair it returns. -/
structure Sampled (α : Type) where
  chan : Channel α
  out : α
  fnew : α
deriving DecidableEq, Repr

/-- PROCESS_SAMPLE(`c`, `target`, `fbc`, `xin`) (R140): the write precedes the two reads (R151), and
`FB[c]` is not written (R148). -/
def processSample [DecidableEq α] (N : Numerics α) (k : Nat) (c : Chan) (sr : α) (len : Nat)
    (target fbc xin : α) (ch : Channel α) : Sampled α :=
  let sm := smoothStep N k c ch.sm target
  let dts := delaySamples N k c sr sm
  let buf := Memory.write N.zero ch.buf ch.wh.toNat (writeValue N k c xin ch.fb)
  let rh := readPosition N k c ch.wh.toNat len dts
  let xi := baseIndex N k c rh
  let frac := fraction N k c rh xi
  let out := interpolate N k c frac (Memory.read N.zero buf (tapIndex xi len))
    (Memory.read N.zero buf (tapIndex1 xi len))
  { chan := { buf := buf, wh := advanceHead ch.wh len, rh := rh, sm := sm, fb := ch.fb }
    out := out
    fnew := feedbackValue N k c out fbc }

/-- MIX(`dry`, `wet`, `dw`) (R174). -/
def mix (N : Numerics α) (k : Nat) (c : Chan) (dry wet dw : α) : α :=
  let g := N.sub (sampleDraw k c .mixWeight) N.one dw
  let a := N.mul (sampleDraw k c .mixDry) dry g
  let b := N.mul (sampleDraw k c .mixWet) wet dw
  N.add (sampleDraw k c .mixOut) a b

/-- The feedback commit: straight, or crossed when ping-pong is latched (R173). -/
def commitFeedback (lpp : Bool) (f0 f1 : α) (l r : Channel α) : Channel α × Channel α :=
  if lpp then ({ l with fb := f1 }, { r with fb := f0 })
  else ({ l with fb := f0 }, { r with fb := f1 })

/-- What one frame gives: both channels after it and both output samples. -/
structure Framed (α : Type) where
  left : Channel α
  right : Channel α
  out0 : α
  out1 : α
deriving DecidableEq, Repr

/-- FRAME after its latch (R171): both samples, one commit after both, both mixes, each with its own
wet value. The two calls touch disjoint state, so their order is unobservable (R175). -/
def frameCore [DecidableEq α] (N : Numerics α) (k : Nat) (sr : α) (len : Nat) (lt : Latches α)
    (l r : Channel α) (dry0 dry1 : α) : Framed α :=
  let p0 := processSample N k .left sr len lt.ldt0 lt.lfb dry0 l
  let p1 := processSample N k .right sr len lt.ldt1 lt.lfb dry1 r
  let ch := commitFeedback lt.lpp p0.fnew p1.fnew p0.chan p1.chan
  { left := ch.1
    right := ch.2
    out0 := mix N k .left dry0 p0.out lt.ldw
    out1 := mix N k .right dry1 p1.out lt.ldw }

end Sys2Proof.Machine
end

