-- ==== Sys2Proof/Machine/Process.lean ====
section
/-! DEFINITION. PROCESS (42_frame_and_block.md): the latch, the frame on the machine's state, and the
loop over the frames. -/

namespace Sys2Proof.Machine

/-- Set latches from the parameter registers as they stand. -/
def setLatch (f : Params → Latches F64 → Latches F64) (s : State) : State :=
  { s with latch := f s.params s.latch }

/-- One latch read: port-B writes may fall before it, none splits it (R66, R70). -/
def latchRead (f : Params → Latches F64 → Latches F64) (s : State) : State := setLatch f (slot s)

/-- `LDW <- P[0]`. -/
def latchDrywet (s : State) : State := latchRead (fun p l => { l with ldw := p.drywet }) s

/-- `LFB <- P[1]`. -/
def latchFeedback (s : State) : State := latchRead (fun p l => { l with lfb := p.feedback }) s

/-- `LDT[0] <- P[2]`. -/
def latchDtl (s : State) : State := latchRead (fun p l => { l with ldt0 := p.dtl }) s

/-- `LDT[1] <- P[3]`. -/
def latchDtr (s : State) : State := latchRead (fun p l => { l with ldt1 := p.dtr }) s

/-- `LPP <- P[4]`. -/
def latchPingpong (s : State) : State := latchRead (fun p l => { l with lpp := p.pingpong }) s

/-- The latch (R172): five separate reads in register order. -/
def latchParams (s : State) : State :=
  latchPingpong (latchDtr (latchDtl (latchFeedback (latchDrywet s))))

/-- The rest of FRAME(`i`) on the machine's state (R171): both dry samples are read first, both
outputs written last (R76). -/
def frameBody (i : Nat) (s : State) : State :=
  let f := frameCore binary64 s.draws s.conf.sr s.conf.len.toNat s.latch s.left s.right
    (Memory.read Config.plusZero s.io0 i) (Memory.read Config.plusZero s.io1 i)
  { s with
    left := f.left
    right := f.right
    io0 := Memory.write Config.plusZero s.io0 i f.out0
    io1 := Memory.write Config.plusZero s.io1 i f.out1
    draws := s.draws + 1 }

/-- FRAME(`i`) (R171). It stops only at an index outside a space, which no reachable state has
(R43, R65; DESIGN CHOICE, safe, log entry 6). -/
def frame (i : Nat) (s : State) : Except Fault State :=
  if Config.ioLen ≤ i then .error .ioIndexOutOfRange
  else if !s.headsInRange then .error .bufIndexOutOfRange
  else .ok (frameBody i (latchParams s))

/-- The frames `i, i + 1, ...`, `k` of them, `FC` the index of the frame being processed (R40, R170). -/
def frames : Nat → Nat → State → Except Fault State
  | 0, i, s => .ok { s with fc := BitVec.ofNat Config.cntW i }
  | k + 1, i, s =>
    match frame i { s with fc := BitVec.ofNat Config.cntW i } with
    | .ok t => frames k (i + 1) t
    | .error e => .error e

/-- PROCESS `n` (R170, R186): NotConfigured before anything is touched, else the frames 0 to `n - 1`. -/
def execProcess (n : Nat) (s : State) : Host.Outcome State Fault Refusal :=
  if !s.configured then .next (raiseError .A .notConfigured s)
  else
    match frames n 0 s with
    | .ok t => .next (respond .A .ok t)
    | .error e => .fault e

end Sys2Proof.Machine
end

