-- ==== Sys2Proof/Machine/Dispatch.lean ====
section
/-! DEFINITION. The meaning of each command, issued on port A. -/

namespace Sys2Proof.Machine

def exec (i : Instr) (s : State) : Host.Outcome State Fault Refusal :=
  match i with
  | .configure sr md => Sys2Proof.Machine.execConfigure sr md s
  | .setparamDrywet v => Sys2Proof.Machine.execSetparamDrywet v s
  | .setparamFeedback v => Sys2Proof.Machine.execSetparamFeedback v s
  | .setparamDtl v => Sys2Proof.Machine.execSetparamDtl v s
  | .setparamDtr v => Sys2Proof.Machine.execSetparamDtr v s
  | .setparamPingpong u => Sys2Proof.Machine.execSetparamPingpong u s
  | .process n => Sys2Proof.Machine.execProcess n s

end Sys2Proof.Machine
end

