-- ==== Sys2Proof/Machine/Step.lean ====
section
/-! DEFINITION. One step: what is due on port B is served, then the engine takes one packet from port
A and executes it to completion (R5, R6, R69). With no complete packet on port A the engine waits. -/

namespace Sys2Proof.Machine

/-- Run a packet taken from port A (R104): an illegal one is answered IllegalCommand (R234). -/
def runPacketA (p : Packet) (s : State) : Host.Outcome State Fault Refusal :=
  match decode .A p with
  | .ok i => exec i s
  | .error _ => .next (raiseError .A .illegalCommand s)

/-- Take the next packet from port A and run it. -/
def servePortA (s : State) : Host.Outcome State Fault Refusal :=
  match takePacket s.portA with
  | .waiting => .next s
  | .malformed => .refused (.malformedStream .A)
  | .packet p rest => runPacketA p { s with portA := rest }

/-- One step of the machine. -/
def step (s : State) : Host.Outcome State Fault Refusal :=
  if takePacket (slot s).portB = .malformed then .refused (.malformedStream .B)
  else servePortA (slot s)

/-- The command whose bits are `w` at the head of port A's stream, where `step` takes its next packet. -/
def State.withFetchWord (s : State) (nbits w : Nat) : State :=
  { s with portA := packetWords (tablePacket nbits w) ++ s.portA }

end Sys2Proof.Machine
end

