-- ==== Sys2Proof/Machine/HostPort.lean ====
section
/-! DEFINITION. What the host does to the machine between two steps (R80, 20_memory.md; R260,
70_reset_and_hazards.md). These are inputs of the machine, not steps of it. The block memory is the
host's only while the host owns it, and has entries `0` to `IO_LEN - 1` only (R60, R75, R270); outside
that there is no move, which is the answer `none`. -/

namespace Sys2Proof.Machine

/-- The host sends words on port A. -/
def hostSendA (ws : List PortWord) (s : State) : State := { s with portA := s.portA ++ ws }

/-- The host will send words on port B, each at its time (R71: in port-B order). -/
def hostSendB (ws : List Arrival) (s : State) : State := { s with wireB := s.wireB ++ ws }

/-- The host owns the block memory: every word it sent on port A has been taken, and it has taken every
answer of port A. So the memory is not the host's from the sending of a PROCESS until its response is
received (R60, R75, R270). That commands other than PROCESS, and answers not yet taken, bar the host
as well is the model's choice (DESIGN CHOICE, log entry 8). -/
def hostOwnsIO (s : State) : Bool := s.portA.isEmpty && s.rspA.isEmpty

/-- The host may touch `n` entries of the block memory from index `i` on: it owns the memory, and they
exist (R60). -/
def hostMayTouch (i n : Nat) (s : State) : Bool :=
  hostOwnsIO s && decide (i + n ≤ Config.ioLen)

/-- The samples `vs` written to `IO[c]` from index `i` on. -/
def storeSamples (c : Chan) : Nat → List F64 → State → State
  | _, [], s => s
  | i, v :: vs, s =>
    match c with
    | .left => storeSamples c (i + 1) vs { s with io0 := Memory.write Config.plusZero s.io0 i v }
    | .right => storeSamples c (i + 1) vs { s with io1 := Memory.write Config.plusZero s.io1 i v }

/-- The host puts the samples `vs` into `IO[c]` from index `i` on (R62). -/
def hostLoad (c : Chan) (i : Nat) (vs : List F64) (s : State) : Option State :=
  if hostMayTouch i vs.length s then some (storeSamples c i vs s) else none

/-- The host reads `n` samples of `IO[c]` from index `i` on (R62). -/
def hostSamples (c : Chan) (i n : Nat) (s : State) : Option (List F64) :=
  if hostMayTouch i n s then some ((List.range' i n).map (s.ioRead c)) else none

/-- The host takes the oldest response word of a port (R102). -/
def hostTakeResponse (p : Port) (s : State) : Option RspWord × State :=
  match p with
  | .A => (s.rspA.head?, { s with rspA := s.rspA.tail })
  | .B => (s.rspB.head?, { s with rspB := s.rspB.tail })

/-- The reset event (R260): the only way back to `CFG = 0`. Packets and responses in flight are lost
(U12). The free values drawn after it are new ones; the block memory is unspecified after reset
(R50) and reads as at power-on (DESIGN CHOICE, unsafe, log entry 2). -/
def hostReset (s : State) : State := { State.reset with draws := s.draws }

end Sys2Proof.Machine
end

