-- ==== Sys2Proof/Machine/Pseudo.lean ====
section
/-! DEFINITION. The program lines of R105 and the pseudo-instructions of R106 (30_encoding.md), as
data: what each puts on which port. Machine/Assembler.lean reads a line's text. -/

namespace Sys2Proof.Machine

/-- The pseudo-instructions (R106). -/
inductive Pseudo where
  | setDrywet (v : F64)
  | setFeedback (v : F64)
  | setDelayL (v : F64)
  | setDelayR (v : F64)
  | setPingpong (b : BitVec 64)
  | setDelay (v : F64)
deriving DecidableEq, Repr

/-- The commands a pseudo-instruction stands for, in order (R106). -/
def expandPseudo : Pseudo → List Instr
  | .setDrywet v => [.setparamDrywet v]
  | .setFeedback v => [.setparamFeedback v]
  | .setDelayL v => [.setparamDtl v]
  | .setDelayR v => [.setparamDtr v]
  | .setPingpong b => [.setparamPingpong b]
  | .setDelay v => [.setparamDtl v, .setparamDtr v]

/-- A line of a program: a port-A command or pseudo-instruction, or one with the prefix `B:` (R105). The time
of a `B:` line is free (R70): `wait` is the number of read points before its packet arrives. `SETDELAY`
is two packets and not atomic as a pair (R106): `gap` is the number of read points between the first
and the second, so every order of the pair with the engine's reads is a line (DESIGN CHOICE, safe, log
entry 5). -/
inductive Line where
  | onA (i : Instr)
  | pseudoA (p : Pseudo)
  | onB (wait : Nat) (i : Instr)
  | pseudoB (wait gap : Nat) (p : Pseudo)
deriving DecidableEq, Repr

/-- Words that go out together after `wait` read points. -/
def arrivals (wait : Nat) : List PortWord → List Arrival
  | [] => []
  | w :: ws => ⟨wait, w⟩ :: ws.map fun x => ⟨0, x⟩

/-- The packets of commands in order, the first after `wait` read points and each other `gap` read points
after the one before it. -/
def arrivalsOf (wait gap : Nat) : List Instr → List Arrival
  | [] => []
  | i :: is => arrivals wait (encode i) ++ arrivalsOf gap gap is

/-- Issue a line: its packets on its port (R105, R106). -/
def issueLine (l : Line) (s : State) : State :=
  match l with
  | .onA i => hostSendA (encode i) s
  | .pseudoA p => hostSendA ((expandPseudo p).flatMap encode) s
  | .onB wait i => hostSendB (arrivals wait (encode i)) s
  | .pseudoB wait gap p => hostSendB (arrivalsOf wait gap (expandPseudo p)) s

end Sys2Proof.Machine
end

