-- ==== Sys2Proof/Machine/Assembler.lean ====
section
/-! DEFINITION. The text form of a program line (R105, R106): a line as a list of characters read into a
`Line`. A name is written in capitals, items are parted by spaces, tabs and commas, and `;` starts a
comment (DESIGN CHOICE, safe, log entry 17: what R105 does not say of the text). -/

namespace Sys2Proof.Machine

/-- What a line of text is. -/
inductive Assembled where
  /-- Nothing but spaces and a comment. -/
  | blank
  | line (l : Line)
  /-- No line of R105. -/
  | error
deriving DecidableEq, Repr

/-! ## Numerals -/

/-- A decimal digit. -/
def digitOf (ch : Char) : Option Nat :=
  if 48 ≤ ch.toNat ∧ ch.toNat ≤ 57 then some (ch.toNat - 48) else none

/-- A hexadecimal digit, of either case. -/
def hexDigitOf (ch : Char) : Option Nat :=
  if 48 ≤ ch.toNat ∧ ch.toNat ≤ 57 then some (ch.toNat - 48)
  else if 65 ≤ ch.toNat ∧ ch.toNat ≤ 70 then some (ch.toNat - 55)
  else if 97 ≤ ch.toNat ∧ ch.toNat ≤ 102 then some (ch.toNat - 87)
  else none

/-- Digits read with a base, after the value so far. -/
def digitsFrom (digit : Char → Option Nat) (base : Nat) : Nat → List Char → Option Nat
  | n, [] => some n
  | n, ch :: cs =>
    match digit ch with
    | some d => digitsFrom digit base (n * base + d) cs
    | none => none

/-- At least one digit. -/
def digitsOf (digit : Char → Option Nat) (base : Nat) (cs : List Char) : Option Nat :=
  if cs.isEmpty then none else digitsFrom digit base 0 cs

/-- An unsigned integer, decimal or `0x` hexadecimal. -/
def integerOf (cs : List Char) : Option Nat :=
  match cs with
  | '0' :: 'x' :: hex => digitsOf hexDigitOf 16 hex
  | _ => digitsOf digitOf 10 cs

/-- An unsigned decimal numeral, with or without a fraction, as the nearest NUM (`lit`, R9). -/
def decimalOf (cs : List Char) : Option F64 :=
  let whole := cs.takeWhile (· ≠ '.')
  match cs.dropWhile (· ≠ '.') with
  | [] => (digitsOf digitOf 10 whole).map fun n => f64Lit n 1
  | _ :: frac =>
    if frac.isEmpty then none
    else (digitsOf digitOf 10 (whole ++ frac)).map fun n => f64Lit n (10 ^ frac.length)

/-- A NUM operand: a `0x` pattern of 16 digits, or a decimal numeral, with a minus sign or without. -/
def numOf (cs : List Char) : Option F64 :=
  match cs with
  | '0' :: 'x' :: hex =>
    if hex.length = 16 then (digitsOf hexDigitOf 16 hex).map (BitVec.ofNat 64) else none
  | '-' :: rest => (decimalOf rest).map f64Neg
  | _ => decimalOf cs

/-- PINGPONG's operand: an unsigned integer of 64 bits. -/
def flagOf (cs : List Char) : Option (BitVec 64) :=
  match integerOf cs with
  | some n => if n < 2 ^ 64 then some (BitVec.ofNat 64 n) else none
  | none => none

/-- PROCESS's count, 0 to 16777215. -/
def countOf (cs : List Char) : Option Nat :=
  match integerOf cs with
  | some n => if countFits n then some n else none
  | none => none

/-! ## Items -/

/-- What parts two items. -/
def isGap (ch : Char) : Bool := ch == ' ' || ch == '\t' || ch == ','

/-- The items of a line, the item under way held backwards. -/
def itemsFrom : List Char → List Char → List (List Char)
  | held, [] => if held.isEmpty then [] else [held.reverse]
  | held, ch :: cs =>
    if isGap ch then
      (if held.isEmpty then itemsFrom [] cs else held.reverse :: itemsFrom [] cs)
    else itemsFrom (ch :: held) cs

/-- The items of a line without its comment. -/
def itemsOf (text : List Char) : List (List Char) := itemsFrom [] (text.takeWhile (· ≠ ';'))

/-! ## Commands -/

/-- SETPARAM's register by its name or number (R105). -/
def selectorOf (cs : List Char) : Option Nat :=
  if cs = ['D', 'R', 'Y', 'W', 'E', 'T'] ∨ cs = ['0'] then some 0
  else if cs = ['F', 'E', 'E', 'D', 'B', 'A', 'C', 'K'] ∨ cs = ['1'] then some 1
  else if cs = ['D', 'T', 'L'] ∨ cs = ['2'] then some 2
  else if cs = ['D', 'T', 'R'] ∨ cs = ['3'] then some 3
  else if cs = ['P', 'I', 'N', 'G', 'P', 'O', 'N', 'G'] ∨ cs = ['4'] then some 4
  else none

/-- SETPARAM with its register and its value's text. -/
def setparamOf (sel : Nat) (value : List Char) : Option Instr :=
  match sel with
  | 0 => (numOf value).map .setparamDrywet
  | 1 => (numOf value).map .setparamFeedback
  | 2 => (numOf value).map .setparamDtl
  | 3 => (numOf value).map .setparamDtr
  | 4 => (flagOf value).map .setparamPingpong
  | _ => none

/-- A command line's items (R105). -/
def commandOf (items : List (List Char)) : Option Instr :=
  match items with
  | [['C', 'O', 'N', 'F', 'I', 'G', 'U', 'R', 'E'], sr, md] =>
    match numOf sr, numOf md with
    | some a, some b => some (.configure a b)
    | _, _ => none
  | [['S', 'E', 'T', 'P', 'A', 'R', 'A', 'M'], name, value] =>
    match selectorOf name with
    | some sel => setparamOf sel value
    | none => none
  | [['P', 'R', 'O', 'C', 'E', 'S', 'S'], n] => (countOf n).map .process
  | _ => none

/-- A pseudo-instruction's items (R106). -/
def pseudoOf (items : List (List Char)) : Option Pseudo :=
  match items with
  | [['S', 'E', 'T', 'D', 'R', 'Y', 'W', 'E', 'T'], v] => (numOf v).map .setDrywet
  | [['S', 'E', 'T', 'F', 'E', 'E', 'D', 'B', 'A', 'C', 'K'], v] => (numOf v).map .setFeedback
  | [['S', 'E', 'T', 'D', 'E', 'L', 'A', 'Y', 'L'], v] => (numOf v).map .setDelayL
  | [['S', 'E', 'T', 'D', 'E', 'L', 'A', 'Y', 'R'], v] => (numOf v).map .setDelayR
  | [['S', 'E', 'T', 'P', 'I', 'N', 'G', 'P', 'O', 'N', 'G'], b] => (flagOf b).map .setPingpong
  | [['S', 'E', 'T', 'D', 'E', 'L', 'A', 'Y'], v] => (numOf v).map .setDelay
  | _ => none

/-- A line of text read as a line of R105. `wait` is the time of a `B:` line and `gap` the time between the
two packets of a `B: SETDELAY` line, which the text leaves free (R70, R106). -/
def assemble (wait gap : Nat) (text : List Char) : Assembled :=
  match itemsOf text with
  | [] => .blank
  | ['B', ':'] :: items =>
    match commandOf items, pseudoOf items with
    | some i, _ => .line (.onB wait i)
    | none, some p => .line (.pseudoB wait gap p)
    | none, none => .error
  | items =>
    match commandOf items, pseudoOf items with
    | some i, _ => .line (.onA i)
    | none, some p => .line (.pseudoA p)
    | none, none => .error

end Sys2Proof.Machine
end

