-- ==== Sys2Proof/Machine/Ideal.lean ====
section
/-! DEFINITION. Ideal arithmetic (R212, 44_arithmetic.md): NUM taken as the rational numbers, every
operation exact. It is not the hardware; it is the reference for the properties the spec states
under it (R152, R154, R158, R178 to R183). -/

namespace Sys2Proof.Machine

/-- `round_half_away` on a rational (R9, R207). -/
def ratRoundHalfAway (q : Rat) : Int :=
  if q < 0 then -(⌊-q + 1 / 2⌋) else ⌊q + 1 / 2⌋

/-- NUM as the rationals: no rounding, no NaN, no infinity, no signed zero. -/
def ideal : Numerics Rat where
  zero := 0
  one := 1
  smoothCoef := 1 / 1000
  add := fun _ a b => a + b
  sub := fun _ a b => a - b
  mul := fun _ a b => a * b
  lt := fun a b => a < b
  ge := fun a b => b ≤ a
  gt := fun a b => b < a
  isFinite := fun _ => true
  floorInt := fun _ a => ⌊a⌋
  roundHalfAway := fun _ a => ratRoundHalfAway a
  intToNum := fun k => (k : Rat)

end Sys2Proof.Machine
end

