-- ==== Sys2Proof/Machine/IdealRun.lean ====
section
/-! DEFINITION. The datapath run under ideal arithmetic (R212) from a CONFIGURE on, with constant
latched parameters: the setting of R158 and R178 to R181. -/

namespace Sys2Proof.Machine

/-- A channel as CONFIGURE leaves it, its smoother at its target (R124 to R127). -/
def idealStart (target : Rat) : Channel Rat :=
  { buf := Memory.cleared, wh := 0#Config.lenW, rh := 0, sm := target, fb := 0 }

/-- Frame `k` on a pair of channels, with input samples `in0 k` and `in1 k`. -/
def idealFrame (sr : Rat) (len : Nat) (lt : Latches Rat) (in0 in1 : Nat → Rat) (k : Nat)
    (l r : Channel Rat) : Framed Rat :=
  frameCore ideal k sr len lt l r (in0 k) (in1 k)

/-- The two channels before frame `k`, frames numbered from the CONFIGURE. -/
def idealChannels (sr : Rat) (len : Nat) (lt : Latches Rat) (in0 in1 : Nat → Rat) :
    Nat → Channel Rat × Channel Rat
  | 0 => (idealStart lt.ldt0, idealStart lt.ldt1)
  | k + 1 =>
    let ch := idealChannels sr len lt in0 in1 k
    let f := idealFrame sr len lt in0 in1 k ch.1 ch.2
    (f.left, f.right)

/-- The wet signal of channel 0 in frame `k`. -/
def idealWet0 (sr : Rat) (len : Nat) (lt : Latches Rat) (in0 in1 : Nat → Rat) (k : Nat) : Rat :=
  (processSample ideal k .left sr len lt.ldt0 lt.lfb (in0 k) (idealChannels sr len lt in0 in1 k).1).out

/-- The wet signal of channel 1 in frame `k`. -/
def idealWet1 (sr : Rat) (len : Nat) (lt : Latches Rat) (in0 in1 : Nat → Rat) (k : Nat) : Rat :=
  (processSample ideal k .right sr len lt.ldt1 lt.lfb (in1 k) (idealChannels sr len lt in0 in1 k).2).out

/-- The output sample of channel 0 in frame `k`. -/
def idealOut0 (sr : Rat) (len : Nat) (lt : Latches Rat) (in0 in1 : Nat → Rat) (k : Nat) : Rat :=
  let ch := idealChannels sr len lt in0 in1 k
  (idealFrame sr len lt in0 in1 k ch.1 ch.2).out0

/-- The output sample of channel 1 in frame `k`. -/
def idealOut1 (sr : Rat) (len : Nat) (lt : Latches Rat) (in0 in1 : Nat → Rat) (k : Nat) : Rat :=
  let ch := idealChannels sr len lt in0 in1 k
  (idealFrame sr len lt in0 in1 k ch.1 ch.2).out1

/-- A signal `k` frames back, zero before frame 0 (R178: "with `in_c[j] = 0` and `wet_c[j] = 0` for `j < 0`"). -/
def delayed (x : Nat → Rat) (d k : Nat) : Rat := if d ≤ k then x (k - d) else 0

/-- The smoother after `k` frames with a constant target under ideal arithmetic (R141, R158). -/
def idealSmooth (target s0 : Rat) : Nat → Rat
  | 0 => s0
  | k + 1 => smoothStep ideal k .left (idealSmooth target s0 k) target

end Sys2Proof.Machine
end

