-- ==== Sys2Proof/Safety.lean ====
section
/-! DEFINITION. What counts as a legal state and a safe run, in the terms the claims use: the
invariants of R22, R43, R44 and R45 (10_state.md), the canonical form of the memories, what a state
shows through any command (R51), and the relations that say what one sample does (R140). -/

namespace Sys2Proof.Machine

/-! ## Invariants -/

/-- Every memory is in canonical form, lists no index outside its space, and a configured engine's
buffers list no index from `LEN` on (R60, R43). -/
def State.memoryOk (s : State) : Bool :=
  Memory.wf Config.plusZero s.left.buf && Memory.wf Config.plusZero s.right.buf &&
  Memory.wf Config.plusZero s.io0 && Memory.wf Config.plusZero s.io1 &&
  Memory.within Config.ioLen s.io0 && Memory.within Config.ioLen s.io1 &&
  (!s.conf.cfg ||
    (Memory.within s.conf.len.toNat s.left.buf && Memory.within s.conf.len.toNat s.right.buf))

/-- `1 <= LEN <= LEN_MAX` and `0 <= WH[c] < LEN` whenever `CFG = 1` (R29, R43). -/
def State.headsOk (s : State) : Bool :=
  !s.conf.cfg ||
    (decide (1 ≤ s.conf.len.toNat) && decide (s.conf.len.toNat ≤ Config.lenMax) && s.headsInRange)

/-- `WH[0] = WH[1]` (R22). -/
def State.headsEqual (s : State) : Bool := decide (s.left.wh = s.right.wh)

/-- Whenever `CFG = 1`, `SR` and `MAXD` are finite and positive (R27, R28) and `LEN` is the length
CONFIGURE computes from them (R29). -/
def State.confOk (s : State) : Bool :=
  !s.conf.cfg ||
    (positiveFinite binary64 s.conf.sr && positiveFinite binary64 s.conf.maxd &&
      decide (configureLength binary64 ⟨0, .configure⟩ s.conf.sr s.conf.maxd = some s.conf.len.toNat))

/-- `lo <= v <= hi`; false for a NaN (R204). -/
def inRange (v lo hi : F64) : Bool := f64Ge v lo && f64Le v hi

/-- A delay-time register's legal values (R34): with `CFG = 1` at most `MAXD` and at least `DT_MIN`, or
`MAXD` itself; with `CFG = 0` at least `DT_MIN`. -/
def delayLegal (c : Conf) (v : F64) : Bool :=
  if c.cfg then f64Le v c.maxd && (f64Ge v Config.dtMin || decide (v = c.maxd))
  else f64Ge v Config.dtMin

/-- Every parameter register holds a legal value (R44). -/
def State.paramsOk (s : State) : Bool :=
  inRange s.params.drywet Config.dwMin Config.dwMax &&
  inRange s.params.feedback Config.fbMin Config.fbMax &&
  delayLegal s.conf s.params.dtl && delayLegal s.conf s.params.dtr

/-- `min(DT_MIN, MAXD)` (R45). -/
def delayFloor (c : Conf) : F64 := if f64Lt c.maxd Config.dtMin then c.maxd else Config.dtMin

/-- `min(DT_MIN, MAXD) <= SM[c] <= MAXD` whenever `CFG = 1` (R45). -/
def State.smoothOk (s : State) : Bool :=
  !s.conf.cfg ||
    (inRange s.left.sm (delayFloor s.conf) s.conf.maxd &&
      inRange s.right.sm (delayFloor s.conf) s.conf.maxd)

/-- Every invariant together. -/
def State.Inv (s : State) : Bool :=
  s.memoryOk && s.headsOk && s.headsEqual && s.confOk && s.paramsOk && s.smoothOk

/-! ## Runs -/

/-- No port-B word is pending or still to come: the engine runs alone (R176). -/
def State.quietB (s : State) : Bool := decide (s.portB = []) && decide (s.wireB = [])

/-- The outcome is a next state. -/
def isNext (o : Host.Outcome State Fault Refusal) : Bool :=
  match o with
  | .next _ => true
  | .fault _ => false
  | .refused _ => false

/-- The outcome with a function applied to its next state. -/
def mapNext (f : State → State) (o : Host.Outcome State Fault Refusal) :
    Host.Outcome State Fault Refusal :=
  match o with
  | .next s => .next (f s)
  | .fault e => .fault e
  | .refused r => .refused r

/-- The state with everything set to its reset value that no command's result depends on: the latches
(R38), `FC` (R40) and the read heads (R23) always; `SR`, `MAXD`, `LEN` and the channels while
`CFG = 0` (R51). -/
def State.observable (s : State) : State :=
  { s with
    conf := if s.conf.cfg then s.conf else State.reset.conf
    left := if s.conf.cfg then { s.left with rh := Config.plusZero } else Channel.reset
    right := if s.conf.cfg then { s.right with rh := Config.plusZero } else Channel.reset
    latch := State.reset.latch
    fc := State.reset.fc }

/-- A zero of either sign. -/
def f64IsZero (x : F64) : Bool := decide (f64Value x = .fin 0)

/-- Every listed entry is a zero (of either sign). -/
def Memory.allZero (m : Memory F64) : Bool := m.all fun e => f64IsZero e.2

/-- Both delay lines hold only zeros and both feedback registers are zeros (R182). -/
def State.silent (s : State) : Bool :=
  Memory.allZero s.left.buf && Memory.allZero s.right.buf &&
  f64IsZero s.left.fb && f64IsZero s.right.fb

/-! ## Rounding (R202) -/

/-- `r` is the exact result of `e` units of 2^-(1074 + sh) rounded once: from half a unit in the last place
above the largest finite value on, the infinity of `e`'s sign; below, a finite value such that no other is
nearer to `e`, with an even pattern where another is as near; and of `e`'s sign, if `e` is not zero. -/
structure RoundedOnce (e : Int) (sh : Nat) (r : F64) : Prop where
  overflow : (2 ^ 54 - 1) * 2 ^ (2044 + sh) ≤ e.natAbs →
    r = if e < 0 then 0xFFF0000000000000#64 else 0x7FF0000000000000#64
  nearest : e.natAbs < (2 ^ 54 - 1) * 2 ^ (2044 + sh) →
    ∃ u : Int, f64Value r = .fin u ∧ ∀ (w : F64) (v : Int), f64Value w = .fin v →
      |u * 2 ^ sh - e| ≤ |v * 2 ^ sh - e| ∧
      (v ≠ u → |u * 2 ^ sh - e| = |v * 2 ^ sh - e| → r.toNat % 2 = 0)
  sign : e ≠ 0 → f64Sign r = decide (e < 0)

/-! ## What one sample does (R140 to R150), step by step, the buffer said through its entries -/

/-- The nine steps of PROCESS_SAMPLE on channel `c`: from `ch` with operands `target`, `fbc`, `xin` to
`ch'`, returning `out` and `fnew`. -/
structure SampleRule (k : Nat) (c : Chan) (sr : F64) (len : Nat) (target fbc xin : F64)
    (ch ch' : Channel F64) (out fnew : F64) : Prop where
  /-- Step 1 (R141). -/
  smooth : ch'.sm = f64Add (sampleDraw k c .smooth) ch.sm
    (f64Mul (sampleDraw k c .t2) Config.smoothCoef (f64Sub (sampleDraw k c .t1) target ch.sm))
  /-- Step 3 (R143), by entries: the entry at the write head is the sum, every other is unchanged. -/
  written : ∀ i, Memory.read Config.plusZero ch'.buf i =
    if i = ch.wh.toNat then f64Add (sampleDraw k c .write) xin ch.fb
    else Memory.read Config.plusZero ch.buf i
  /-- Steps 2 and 4 (R142, R144): the length is added once, when the difference is negative. -/
  position : ch'.rh =
    (let rh := f64Sub (sampleDraw k c .back) (f64OfInt ch.wh.toNat)
      (f64Mul (sampleDraw k c .dts) sr ch'.sm)
     if f64Lt rh Config.plusZero then f64Add (sampleDraw k c .wrap) rh (f64OfInt len) else rh)
  /-- Steps 5 and 6 (R145 to R147): the two taps are read after the write. -/
  interpolated :
    (let xi := f64FloorInt (sampleDraw k c .floor) ch'.rh
     let frac := f64Sub (sampleDraw k c .frac) ch'.rh (f64OfInt xi)
     let x := (xi % (len : Int)).toNat
     let x1 := if x + 1 = len then 0 else x + 1
     out = f64Add (sampleDraw k c .out)
       (f64Mul (sampleDraw k c .tapX) (f64Sub (sampleDraw k c .weight) Config.one frac)
         (Memory.read Config.plusZero ch'.buf x))
       (f64Mul (sampleDraw k c .tapX1) frac (Memory.read Config.plusZero ch'.buf x1)))
  /-- Step 7 (R148). -/
  fresh : fnew = f64Mul (sampleDraw k c .fnew) out fbc
  /-- Step 8 (R149). -/
  advanced : ch'.wh.toNat = if ch.wh.toNat + 1 = len then 0 else ch.wh.toNat + 1

/-- MIX (R174) in NUM operations. -/
def mixRule (k : Nat) (c : Chan) (dry wet dw : F64) : F64 :=
  f64Add (sampleDraw k c .mixOut)
    (f64Mul (sampleDraw k c .mixDry) dry (f64Sub (sampleDraw k c .mixWeight) Config.one dw))
    (f64Mul (sampleDraw k c .mixWet) wet dw)

end Sys2Proof.Machine
end

