-- ==== Sys2Proof/Certificates/Slice0/Obligations.lean ====
section
/-! DEFINITION. The statements for the provers, each from the numbered rules of the spec. -/

open Sys2Proof
open Sys2Proof.Machine

/-! ## Encoding and decoding (30_encoding.md) -/

/-- R92, R96 to R98, R101, R104: a well-formed command's words, with anything after them, are taken as
one packet and decode to that command. -/
def Obligations.DecodeOfEncodeIsTheCommand : Prop :=
  ∀ (i : Instr) (rest : List PortWord), WellFormed i = true →
    ∃ p, takePacket (encode i ++ rest) = .packet p rest ∧ decode .A p = .ok i

/-- R96 to R98, R100, R101: words that are taken as a packet and decode to a command are that command's
own encoding, and the command is well-formed: no other words mean it. -/
def Obligations.EncodeOfDecodeIsTheWords : Prop :=
  ∀ (ws rest : List PortWord) (p : Packet) (i : Instr),
    takePacket ws = .packet p rest → decode .A p = .ok i →
      ws = encode i ++ rest ∧ WellFormed i = true

/-- R96, R97, R98 on words written out from the spec (vectors V-E1 to V-E9, V-E11, V-E13, V-E15, V-E17). -/
def Obligations.SpecWordsDecodeAsListed : Prop :=
  decode .A ⟨0x10000000#32, [0x40E5888000000000#64, 0x4000000000000000#64]⟩ =
    .ok (.configure 0x40E5888000000000#64 0x4000000000000000#64) ∧
  decode .A ⟨0x20000000#32, [0x3FE0000000000000#64]⟩ = .ok (.setparamDrywet 0x3FE0000000000000#64) ∧
  decode .A ⟨0x21000000#32, [0x3FE0000000000000#64]⟩ = .ok (.setparamFeedback 0x3FE0000000000000#64) ∧
  decode .B ⟨0x22000000#32, [0x3FD8000000000000#64]⟩ = .ok (.setparamDtl 0x3FD8000000000000#64) ∧
  decode .A ⟨0x23000000#32, [0x3FD8000000000000#64]⟩ = .ok (.setparamDtr 0x3FD8000000000000#64) ∧
  decode .A ⟨0x24000000#32, [0x0000000000000001#64]⟩ = .ok (.setparamPingpong 1#64) ∧
  decode .A ⟨0x30000200#32, []⟩ = .ok (.process 512) ∧
  decode .A ⟨0x30FFFFFF#32, []⟩ = .ok (.process 16777215) ∧
  decode .A ⟨0x40000000#32, []⟩ = .error .reservedOpcode ∧
  decode .A ⟨0x25000000#32, [0x3FE0000000000000#64]⟩ = .error .reservedParameter ∧
  decode .A ⟨0x11000000#32, [0x4020000000000000#64, 0x3FF0000000000000#64]⟩ =
    .error .configureFields ∧
  decode .A ⟨0x31000002#32, []⟩ = .error .processSel

/-- R100: a packet is illegal exactly under the listed conditions; it then raises IllegalCommand (code 3)
on its port with no other change; the all-zero command word is illegal. -/
def Obligations.IllegalPacketsAreExactlyThose : Prop :=
  (∀ (port : Port) (p : Packet),
    (∃ e, decode port p = .error e) ↔
      (opcField p.cw = 0#4 ∨ 4 ≤ (opcField p.cw).toNat) ∨
      (opcField p.cw = 1#4 ∧ (selField p.cw ≠ 0#4 ∨ cntField p.cw ≠ 0#24)) ∨
      (opcField p.cw = 2#4 ∧ (5 ≤ (selField p.cw).toNat ∨ cntField p.cw ≠ 0#24)) ∨
      (opcField p.cw = 3#4 ∧ selField p.cw ≠ 0#4) ∨
      (port = .B ∧ opcField p.cw ≠ 2#4)) ∧
  (∀ (p : Packet) (s : State) (e : Reject), decode .A p = .error e →
    runPacketA p s = .next { s with rspA := s.rspA ++ [0x00000003#32] }) ∧
  (∀ (p : Packet) (s : State) (e : Reject), decode .B p = .error e →
    servePacketB p s = { s with rspB := s.rspB ++ [0x00000003#32] }) ∧
  (∀ ops, ∃ e, decode .A ⟨0#32, ops⟩ = .error e)

/-- R101: operand words are consumed by `OPC` alone, legal or not; the packet is the command word and
exactly those words; each packet, legal or not, is consumed and gets exactly one response word on its port:
on port A in the step that takes it, on port B when it is served. -/
def Obligations.OperandWordsConsumedByOpcode : Prop :=
  (∀ (cw : CmdWord) (ops : List F64) (rest : List PortWord),
    ops.length = (if opcField cw = 1#4 then 2 else if opcField cw = 2#4 then 1 else 0) →
    takePacket (.cmd cw :: (ops.map PortWord.opd ++ rest)) = .packet ⟨cw, ops⟩ rest) ∧
  (∀ (s t : State) (p : Packet) (rest : List PortWord),
    takePacket s.portA = .packet p rest → step s = .next t →
    t.portA = rest ∧
      ∃ r, t.rspA = s.rspA ++ [responseWord r]) ∧
  (∀ (s : State) (p : Packet) (rest : List PortWord), takePacket s.portB = .packet p rest →
    (servePortB 1 s).portB = rest ∧
      ∃ r, (servePortB 1 s).rspB = s.rspB ++ [responseWord r])

/-- R103, R237 (1): on port B only SETPARAM is accepted; any other packet has its words consumed and is
answered IllegalCommand there, and nothing else changes. -/
def Obligations.PortBRefusesAllButSetparam : Prop :=
  ∀ (s : State) (p : Packet) (rest : List PortWord),
    takePacket s.portB = .packet p rest → opcField p.cw ≠ 2#4 →
    servePortB 1 s = { s with portB := rest, rspB := s.rspB ++ [0x00000003#32] }

/-- R241, R190: SETPARAM has the same effect on the parameter registers from either port, and answers OK
on the port it came from. -/
def Obligations.SetparamIsTheSameFromEitherPort : Prop :=
  ∀ (i : Instr) (p : Packet) (s : State), decode .B p = .ok i →
    decode .A p = .ok i ∧
    ∃ q : Params,
      exec i s = .next { s with params := q, rspA := s.rspA ++ [0#32] } ∧
      servePacketB p s = { s with params := q, rspB := s.rspB ++ [0#32] }

/-! ## The step -/

/-- A step runs the decoded command: the slot for port B comes first (that it does is the model's choice, log
entry 5; it changes parameter registers and port B only), then the packet at the head of port A is taken
and executed; with no port-B traffic the step is exactly the command. -/
def Obligations.StepRunsTheDecodedCommand : Prop :=
  (∀ (s : State) (p : Packet) (rest : List PortWord) (i : Instr),
    takePacket (slot s).portB ≠ .malformed → takePacket s.portA = .packet p rest →
    decode .A p = .ok i → step s = exec i { slot s with portA := rest }) ∧
  (∀ (s : State) (rest : List PortWord) (i : Instr), s.quietB = true → WellFormed i = true →
    s.portA = encode i ++ rest → step s = exec i { s with portA := rest })

/-- R12, R235: on streams that hold packets the step never stops, as long as the heads are in range: without
a complete packet on port A it waits (only port B is served), and with one it answers a next state. Words
that are no packet of R91 are refused, on either port, which is the model's choice (log entry 7). -/
def Obligations.StepStopsOnlyOnMalformedStreams : Prop :=
  ∀ (s : State),
    (takePacket (slot s).portB = .malformed → step s = .refused (.malformedStream .B)) ∧
    (takePacket (slot s).portB ≠ .malformed →
      (takePacket s.portA = .waiting → step s = .next (slot s)) ∧
      (s.headsOk = true → takePacket s.portA ≠ .malformed → ∃ t, step s = .next t) ∧
      (takePacket s.portA = .malformed → step s = .refused (.malformedStream .A)))

/-! ## Responses and errors (60_exceptions.md) -/

/-- R102, R236: each command is answered by exactly one response word on port A, one of the four codes, and a
command that answers an error has changed nothing but the response. -/
def Obligations.ErrorsChangeNothingElse : Prop :=
  ∀ (i : Instr) (s t : State), exec i s = .next t →
    ∃ w, t.rspA = s.rspA ++ [w] ∧ (w = 0#32 ∨ w = 1#32 ∨ w = 2#32 ∨ w = 3#32) ∧
      (w ≠ 0#32 → t = { s with rspA := s.rspA ++ [w] })

/-- R230, R231, R233: InvalidConfiguration is answered exactly by a CONFIGURE under one of the listed
conditions, NotConfigured exactly by a PROCESS while `CFG = 0`, whatever the count, and no command answers
IllegalCommand. -/
def Obligations.ErrorCodesBelongToTheirCommands : Prop :=
  ∀ (i : Instr) (s t : State), exec i s = .next t →
    (t.rspA = s.rspA ++ [1#32] ↔ ∃ sr md, i = .configure sr md ∧
      (f64Gt sr 0#64 = false ∨ f64IsFinite sr = false ∨ f64Gt md 0#64 = false ∨
        f64IsFinite md = false ∨
        (let p := f64Mul ⟨s.draws, .configure⟩ sr md
         f64IsFinite p = false ∨ f64RoundHalfAway ⟨s.draws, .configure⟩ p < 1 ∨
          2097152 < f64RoundHalfAway ⟨s.draws, .configure⟩ p))) ∧
    (t.rspA = s.rspA ++ [2#32] ↔ ∃ n, i = .process n ∧ s.conf.cfg = false) ∧
    t.rspA ≠ s.rspA ++ [3#32]

/-! ## CONFIGURE (40_configure.md) -/

/-- The conditions under which CONFIGURE succeeds with length `n` (R120, R121, R122). -/
def Obligations.ConfigureCommitsWhenValid : Prop :=
  ∀ (s : State) (sr md : F64) (n : Nat),
    f64Gt sr 0#64 = true → f64IsFinite sr = true → f64Gt md 0#64 = true → f64IsFinite md = true →
    (let p := f64Mul ⟨s.draws, .configure⟩ sr md
     f64IsFinite p = true ∧ f64RoundHalfAway ⟨s.draws, .configure⟩ p = (n : Int)) →
    1 ≤ n → n ≤ 2097152 →
    exec (.configure sr md) s = .next
      { s with
        conf := ⟨sr, md, BitVec.ofNat 22 n, true⟩
        params :=
          { s.params with
            dtl := clamp binary64 s.params.dtl Config.dtMin md
            dtr := clamp binary64 s.params.dtr Config.dtMin md }
        left := ⟨[], 0#22, 0#64, clamp binary64 s.params.dtl Config.dtMin md, 0#64⟩
        right := ⟨[], 0#22, 0#64, clamp binary64 s.params.dtr Config.dtMin md, 0#64⟩
        rspA := s.rspA ++ [0#32] }

/-- R121, R122, R130: under any of the listed conditions CONFIGURE answers InvalidConfiguration and changes
nothing else; among them, in either place, a NaN, an infinity, a zero of either sign and every negative
value. -/
def Obligations.ConfigureRejectsWhenInvalid : Prop :=
  (∀ (s : State) (sr md : F64),
    (f64Gt sr 0#64 = false ∨ f64IsFinite sr = false ∨ f64Gt md 0#64 = false ∨
      f64IsFinite md = false ∨
      (let p := f64Mul ⟨s.draws, .configure⟩ sr md
       f64IsFinite p = false ∨ f64RoundHalfAway ⟨s.draws, .configure⟩ p < 1 ∨
        2097152 < f64RoundHalfAway ⟨s.draws, .configure⟩ p)) →
    exec (.configure sr md) s = .next { s with rspA := s.rspA ++ [1#32] }) ∧
  (∀ (s : State) (bad other : F64),
    (f64IsNaN bad = true ∨ f64IsFinite bad = false ∨ f64IsZero bad = true ∨ f64Sign bad = true) →
    exec (.configure bad other) s = .next { s with rspA := s.rspA ++ [1#32] } ∧
    exec (.configure other bad) s = .next { s with rspA := s.rspA ++ [1#32] })

/-- R129: two successive CONFIGUREs with the same operands leave the state that one leaves, but for the
second answer. -/
def Obligations.ConfigureIsIdempotent : Prop :=
  ∀ (s t u : State) (sr md : F64), exec (.configure sr md) s = .next t →
    exec (.configure sr md) t = .next u →
    ∃ w, t.rspA = s.rspA ++ [w] ∧ u = { t with rspA := t.rspA ++ [w] }

/-- R128: after a successful CONFIGURE class (a) and (b) state is a function of the operands and the
parameter registers alone. -/
def Obligations.ConfigureForgetsTheDelayLine : Prop :=
  ∀ (s s' t t' : State) (sr md : F64), s.params = s'.params →
    exec (.configure sr md) s = .next t → exec (.configure sr md) s' = .next t' →
    t.rspA = s.rspA ++ [0#32] →
    t'.rspA = s'.rspA ++ [0#32] ∧ t.conf = t'.conf ∧ t.left = t'.left ∧ t.right = t'.right ∧
      t.params = t'.params

/-- R124, R132: after a successful CONFIGURE every buffer entry reads `+0`; CONFIGURE never touches `IO`,
`P[0]`, `P[1]`, `P[4]`, the latches, `FC` or port B. -/
def Obligations.ConfigureFrame : Prop :=
  ∀ (s t : State) (sr md : F64), exec (.configure sr md) s = .next t →
    (t.rspA = s.rspA ++ [0#32] → ∀ c i, t.bufRead c i = 0#64) ∧
    (∀ c i, t.ioRead c i = s.ioRead c i) ∧
    t.params.drywet = s.params.drywet ∧ t.params.feedback = s.params.feedback ∧
    t.params.pingpong = s.params.pingpong ∧ t.latch = s.latch ∧ t.fc = s.fc ∧
    t.portA = s.portA ∧ t.portB = s.portB ∧ t.wireB = s.wireB ∧ t.rspB = s.rspB ∧
    t.draws = s.draws

/-! ## SETPARAM (43_setparam.md) -/

/-- R192: `P[0] <- clamp(v, +0, 1)`, OK answered, nothing else changed. -/
def Obligations.SetparamDrywetStoresClamped : Prop :=
  ∀ (v : F64) (s : State), exec (.setparamDrywet v) s = .next
    { s with
      params :=
        { s.params with
          drywet := if f64Ge v 0x0000000000000000#64 then
              (if f64Gt v 0x3FF0000000000000#64 then 0x3FF0000000000000#64 else v)
            else 0x0000000000000000#64 }
      rspA := s.rspA ++ [0#32] }

/-- R193: `P[1] <- clamp(v, FB_MIN, FB_MAX)`, OK answered, nothing else changed. -/
def Obligations.SetparamFeedbackStoresClamped : Prop :=
  ∀ (v : F64) (s : State), exec (.setparamFeedback v) s = .next
    { s with
      params :=
        { s.params with
          feedback := if f64Ge v 0x3F847AE147AE147B#64 then
              (if f64Gt v 0x3FEF5C28F5C28F5C#64 then 0x3FEF5C28F5C28F5C#64 else v)
            else 0x3F847AE147AE147B#64 }
      rspA := s.rspA ++ [0#32] }

/-- R194, R195: the two delay-time registers, with `hi = MAXD` when `CFG = 1` and `+infinity` when
`CFG = 0`; the upper bound has the last word. -/
def Obligations.SetparamDelayTimesStoreClamped : Prop :=
  ∀ (v : F64) (s : State),
    (let hi : F64 := if s.conf.cfg then s.conf.maxd else 0x7FF0000000000000#64
     let r : F64 := if f64Ge v 0x3F847AE147AE147B#64 then v else 0x3F847AE147AE147B#64
     let stored : F64 := if f64Gt r hi then hi else r
     exec (.setparamDtl v) s = .next
       { s with params := { s.params with dtl := stored }, rspA := s.rspA ++ [0#32] } ∧
     exec (.setparamDtr v) s = .next
       { s with params := { s.params with dtr := stored }, rspA := s.rspA ++ [0#32] })

/-- R196: `P[4] <- 0` when the operand word is zero, 1 otherwise. -/
def Obligations.SetparamPingpongStoresTheFlag : Prop :=
  (∀ (s : State), exec (.setparamPingpong 0#64) s = .next
    { s with params := { s.params with pingpong := false }, rspA := s.rspA ++ [0#32] }) ∧
  (∀ (u : BitVec 64) (s : State), u ≠ 0#64 → exec (.setparamPingpong u) s = .next
    { s with params := { s.params with pingpong := true }, rspA := s.rspA ++ [0#32] })

/-- R10: an in-range value is returned bit for bit; above the upper bound gives it; below the lower bound
and NaN give the lower bound; on an empty range every value gives the upper bound; the result is never NaN. -/
def Obligations.ClampFollowsR10 : Prop :=
  ∀ (v lo hi : F64), f64IsNaN lo = false → f64IsNaN hi = false →
    (f64Le lo hi = true →
      (f64Le lo v = true → f64Le v hi = true → clamp binary64 v lo hi = v) ∧
      (f64Gt v hi = true → clamp binary64 v lo hi = hi) ∧
      (f64Lt v lo = true ∨ f64IsNaN v = true → clamp binary64 v lo hi = lo)) ∧
    (f64Gt lo hi = true → clamp binary64 v lo hi = hi) ∧
    f64IsNaN (clamp binary64 v lo hi) = false

/-- R197 (d), R52: a SETPARAM changes one parameter register and answers; the delay lines, every entry of
`BUF` and `IO`, the configuration, the latches and the ports are as before. -/
def Obligations.SetparamFrame : Prop :=
  ∀ (i : Instr) (s t : State) (v : F64),
    (i = .setparamDrywet v ∨ i = .setparamFeedback v ∨ i = .setparamDtl v ∨ i = .setparamDtr v ∨
      i = .setparamPingpong v) → exec i s = .next t →
    t.left = s.left ∧ t.right = s.right ∧ t.conf = s.conf ∧ t.latch = s.latch ∧ t.fc = s.fc ∧
    (∀ c k, t.bufRead c k = s.bufRead c k) ∧ (∀ c k, t.ioRead c k = s.ioRead c k) ∧
    t.portA = s.portA ∧ t.portB = s.portB ∧ t.wireB = s.wireB ∧ t.rspB = s.rspB ∧
    t.draws = s.draws ∧
    (i ≠ .setparamDrywet v → t.params.drywet = s.params.drywet) ∧
    (i ≠ .setparamFeedback v → t.params.feedback = s.params.feedback) ∧
    (i ≠ .setparamDtl v → t.params.dtl = s.params.dtl) ∧
    (i ≠ .setparamDtr v → t.params.dtr = s.params.dtr) ∧
    (i ≠ .setparamPingpong v → t.params.pingpong = s.params.pingpong)

/-! ## PROCESS_SAMPLE, the frame and PROCESS (41_process_sample.md, 42_frame_and_block.md) -/

/-- R140 to R150: PROCESS_SAMPLE follows its nine steps on every channel whose head is in range and whose
buffer is in canonical form, and leaves `FB[c]` alone. -/
def Obligations.ProcessSampleFollowsTheNineSteps : Prop :=
  ∀ (k : Nat) (c : Chan) (sr : F64) (len : Nat) (target fbc xin : F64) (ch : Channel F64),
    ch.wh.toNat < len → len ≤ 2097152 → Memory.wf Config.plusZero ch.buf = true →
    (let r := processSample binary64 k c sr len target fbc xin ch
     SampleRule k c sr len target fbc xin ch r.chan r.out r.fnew ∧ r.chan.fb = ch.fb)

/-- R170, R171, R173, R174: one frame of a block run without port-B traffic. The latches hold the
parameter registers, each channel follows its nine steps with its own target and the shared coefficient,
the fresh feedback values are committed straight or crossed, each output is the mix of the channel's own
dry and wet values, and OK is answered. -/
def Obligations.ProcessOneFrame : Prop :=
  ∀ (s : State), s.conf.cfg = true → s.headsOk = true → s.memoryOk = true → s.quietB = true →
    ∃ t l r out0 out1 f0 f1,
      exec (.process 1) s = .next t ∧
      SampleRule s.draws .left s.conf.sr s.conf.len.toNat s.params.dtl s.params.feedback
        (s.ioRead .left 0) s.left l out0 f0 ∧
      SampleRule s.draws .right s.conf.sr s.conf.len.toNat s.params.dtr s.params.feedback
        (s.ioRead .right 0) s.right r out1 f1 ∧
      t.left = { l with fb := if s.params.pingpong then f1 else f0 } ∧
      t.right = { r with fb := if s.params.pingpong then f0 else f1 } ∧
      t.latch = ⟨s.params.drywet, s.params.feedback, s.params.dtl, s.params.dtr,
        s.params.pingpong⟩ ∧
      (∀ i, t.ioRead .left i =
        if i = 0 then mixRule s.draws .left (s.ioRead .left 0) out0 s.params.drywet
        else s.ioRead .left i) ∧
      (∀ i, t.ioRead .right i =
        if i = 0 then mixRule s.draws .right (s.ioRead .right 0) out1 s.params.drywet
        else s.ioRead .right i) ∧
      t.fc = 1#24 ∧ t.rspA = s.rspA ++ [0#32] ∧ t.conf = s.conf ∧ t.params = s.params

/-- R235: PROCESS on a configured engine whose heads are in range always completes with OK, for every
count that a packet carries and every sample; `FC` ends at `n`. -/
def Obligations.ProcessCompletesWhenConfigured : Prop :=
  ∀ (n : Nat) (s : State), n < 2 ^ 24 → s.conf.cfg = true → s.headsOk = true →
    ∃ t, exec (.process n) s = .next t ∧ t.rspA = s.rspA ++ [0#32] ∧ t.fc.toNat = n

/-- R186, R233: PROCESS on an unconfigured engine answers NotConfigured and changes nothing else. -/
def Obligations.ProcessRefusesWhenUnconfigured : Prop :=
  ∀ (n : Nat) (s : State), s.conf.cfg = false →
    exec (.process n) s = .next { s with rspA := s.rspA ++ [2#32] }

/-- R52, R61, R62, R79, R143: what PROCESS `n` leaves unchanged: the configuration, every entry of `IO` from
index `n` on, port A's words; every buffer entry but the `n` around the wrap from the write head on; and,
without port-B traffic, the parameter registers and port B. On an unconfigured engine everything but the
answer. -/
def Obligations.ProcessFrame : Prop :=
  ∀ (n : Nat) (s t : State), s.memoryOk = true → exec (.process n) s = .next t →
    t.conf = s.conf ∧ t.portA = s.portA ∧
    (∀ c i, n ≤ i → t.ioRead c i = s.ioRead c i) ∧
    (∀ c i, s.conf.len.toNat ≤ i → t.bufRead c i = s.bufRead c i) ∧
    (s.headsOk = true → ∀ c i, i < s.conf.len.toNat →
      (∀ j, j < n → i ≠ ((s.chan c).wh.toNat + j) % s.conf.len.toNat) →
      t.bufRead c i = s.bufRead c i) ∧
    (s.quietB = true → t.params = s.params ∧ t.portB = s.portB ∧ t.wireB = s.wireB ∧
      t.rspB = s.rspB) ∧
    (s.conf.cfg = false → t = { s with rspA := s.rspA ++ [2#32] })

/-- R149, R209: `n` frames advance each write head by `n` modulo `LEN`. -/
def Obligations.WriteHeadAdvancesModuloLength : Prop :=
  ∀ (n : Nat) (s t : State), s.conf.cfg = true → s.headsOk = true →
    exec (.process n) s = .next t → ∀ c,
    (t.chan c).wh.toNat = ((s.chan c).wh.toNat + n) % s.conf.len.toNat

/-- R177: block boundaries are invisible: `a` frames, then `b` frames on the samples that stood at `a` and
on, give the outputs, the channels, the configuration and the parameters that `a + b` frames give. That
also the patterns of produced NaNs are equal rests on the model's draws, which are named by the frame and
not by the block (log entry 3). -/
def Obligations.BlocksOfFramesCompose : Prop :=
  ∀ (a b : Nat) (s t t1 s2 t2 : State), s.quietB = true → s.memoryOk = true → a + b < 2 ^ 24 →
    exec (.process (a + b)) s = .next t → exec (.process a) s = .next t1 →
    s2.memoryOk = true → s2 = { t1 with io0 := s2.io0, io1 := s2.io1 } →
    (∀ c j, j < b → s2.ioRead c j = t1.ioRead c (a + j)) →
    exec (.process b) s2 = .next t2 →
    t2.left = t.left ∧ t2.right = t.right ∧ t2.conf = t.conf ∧ t2.params = t.params ∧
      (∀ c j, j < a → t1.ioRead c j = t.ioRead c j) ∧
      (∀ c j, j < b → t2.ioRead c j = t.ioRead c (a + j))

/-- R182: with both delay lines and both feedback registers at zero and zero input, every output of a
block is a zero and the delay lines and feedback registers stay at zero, with any legal parameters. -/
def Obligations.SilenceStaysSilent : Prop :=
  ∀ (n : Nat) (s t : State), s.Inv = true → s.conf.cfg = true → s.silent = true →
    (∀ c i, i < n → f64IsZero (s.ioRead c i) = true) → exec (.process n) s = .next t →
    t.silent = true ∧ (∀ c i, i < n → f64IsZero (t.ioRead c i) = true)

/-- R70, R172, with the arrival times given by the model's own schedule (log entry 5): the latch reads the five
registers one by one, `P[0]` to `P[4]`. A port-B SETPARAM of register `j` that arrives after `w` read points
is latched by this frame exactly when `w <= j`; the other latches take their registers as they stand. And
R70's own case: of two writes, DTL and `g` read points later DTR, a frame may latch the old `P[2]` and the
new `P[3]`. -/
def Obligations.PortBWriteBeforeTheReadIsLatched : Prop :=
  ∀ (s : State) (v v' : F64) (u : OpWord) (w g : Nat), s.portB = [] →
    (let after (ws : List Arrival) : Latches F64 := (latchParams { s with wireB := ws }).latch
     let p := s.params
     after (arrivals w (encode (.setparamDrywet v))) =
       ⟨if w ≤ 0 then drywetOperand v else p.drywet, p.feedback, p.dtl, p.dtr, p.pingpong⟩ ∧
     after (arrivals w (encode (.setparamFeedback v))) =
       ⟨p.drywet, if w ≤ 1 then feedbackOperand v else p.feedback, p.dtl, p.dtr, p.pingpong⟩ ∧
     after (arrivals w (encode (.setparamDtl v))) =
       ⟨p.drywet, p.feedback, if w ≤ 2 then delayOperand s.conf v else p.dtl, p.dtr, p.pingpong⟩ ∧
     after (arrivals w (encode (.setparamDtr v))) =
       ⟨p.drywet, p.feedback, p.dtl, if w ≤ 3 then delayOperand s.conf v else p.dtr, p.pingpong⟩ ∧
     after (arrivals w (encode (.setparamPingpong u))) =
       ⟨p.drywet, p.feedback, p.dtl, p.dtr, if w ≤ 4 then pingpongOperand u else p.pingpong⟩ ∧
     after (arrivals w (encode (.setparamDtl v)) ++ arrivals g (encode (.setparamDtr v'))) =
       ⟨p.drywet, p.feedback, if w ≤ 2 then delayOperand s.conf v else p.dtl,
         if w + g ≤ 3 then delayOperand s.conf v' else p.dtr, p.pingpong⟩)

/-- R175: the two samples of a frame may be computed in either order: each reads and writes its own
channel, and neither reads what the other writes. -/
def Obligations.ChannelsAreIndependentWithinAFrame : Prop :=
  ∀ (k : Nat) (sr : F64) (len : Nat) (lt : Latches F64) (l r l' r' : Channel F64)
    (d0 d1 d0' d1' : F64),
    (let f := frameCore binary64 k sr len lt l r d0 d1
     let g := frameCore binary64 k sr len lt l r' d0 d1'
     let h := frameCore binary64 k sr len lt l' r d0' d1
     f.out0 = g.out0 ∧ { f.left with fb := 0#64 } = { g.left with fb := 0#64 } ∧
     f.out1 = h.out1 ∧ { f.right with fb := 0#64 } = { h.right with fb := 0#64 } ∧
     (lt.lpp = false → f.left.fb = g.left.fb ∧ f.right.fb = h.right.fb) ∧
     (lt.lpp = true → f.right.fb = g.right.fb ∧ f.left.fb = h.left.fb))

/-- R183: at `dw = +0` and a finite wet value the mix returns the dry sample bit for bit, and at `dw = 1`
and a finite dry value the wet sample, but for a NaN (whose pattern is open) and for `-0`, which may come
out `+0`. -/
def Obligations.MixAtItsEndsReturnsTheSample : Prop :=
  ∀ (k : Nat) (c : Chan) (dry wet : F64),
    (f64IsFinite wet = true → f64IsNaN dry = false → dry ≠ 0x8000000000000000#64 →
      mix binary64 k c dry wet 0#64 = dry) ∧
    (f64IsFinite dry = true → f64IsNaN wet = false → wet ≠ 0x8000000000000000#64 →
      mix binary64 k c dry wet 0x3FF0000000000000#64 = wet)

/-- R146, R157: for every integer index and every length the two tap indices lie in `[0, LEN)`; for
`0 <= xi <= LEN - 1` they are `xi` and `xi + 1`, or 0 when `xi + 1 = LEN`. -/
def Obligations.TapIndicesStayInTheBuffer : Prop :=
  ∀ (xi : Int) (len : Nat), 1 ≤ len →
    tapIndex xi len < len ∧ tapIndex1 xi len < len ∧
    (0 ≤ xi → xi < (len : Int) →
      (tapIndex xi len : Int) = xi ∧
      tapIndex1 xi len = (if xi + 1 = (len : Int) then 0 else (xi + 1).toNat))

/-- R153: a delay of exactly `LEN` samples reads at the write head: the position is the head, the
fractional part is `+0` and the first tap is the entry just written. -/
def Obligations.FullLengthDelayAliasesToZero : Prop :=
  ∀ (k : Nat) (c : Chan) (w len : Nat), w < len → len ≤ 2097152 →
    (let rh := readPosition binary64 k c w len (f64OfInt len)
     rh = f64OfInt w ∧ baseIndex binary64 k c rh = (w : Int) ∧
     fraction binary64 k c rh (w : Int) = 0#64 ∧ tapIndex (w : Int) len = w)

/-- R211: in a legal configured state the read position is finite and its integer index lies in
`[-1, LEN]`, so `emod` corrects by at most one buffer length. -/
def Obligations.ReadIndexStaysNearTheBuffer : Prop :=
  ∀ (s : State) (k : Nat) (c : Chan), s.Inv = true → s.conf.cfg = true →
    (let rh := readPosition binary64 k c (s.chan c).wh.toNat s.conf.len.toNat
       (delaySamples binary64 k c s.conf.sr (s.chan c).sm)
     f64IsFinite rh = true ∧ -1 ≤ baseIndex binary64 k c rh ∧
       baseIndex binary64 k c rh ≤ (s.conf.len.toNat : Int))

/-- R141, R158 (the bound is left by the spec as a proof obligation under binary64): one smoothing step
between finite non-negative values stays between the old value and the target; a smoother at its target
stays there bit for bit (it is finite and not `-0`). -/
def Obligations.SmootherNeverOvershoots : Prop :=
  (∀ (k : Nat) (c : Chan) (s target : F64), f64IsFinite s = true → f64IsFinite target = true →
    f64Ge s 0#64 = true → f64Ge target 0#64 = true →
    (f64Le s target = true → f64Le s (smoothStep binary64 k c s target) = true ∧
      f64Le (smoothStep binary64 k c s target) target = true) ∧
    (f64Le target s = true → f64Le target (smoothStep binary64 k c s target) = true ∧
      f64Le (smoothStep binary64 k c s target) s = true)) ∧
  (∀ (k : Nat) (c : Chan) (s : F64), f64IsFinite s = true → s ≠ 0x8000000000000000#64 →
    smoothStep binary64 k c s s = s)

/-! ## Arithmetic (44_arithmetic.md) -/

/-- R202: a rounded magnitude is the nearest: for every magnitude pattern below the infinity's, the result
of rounding `m` units of 2^-(1074 + sh) is at least as close, and a tie goes to the even pattern. It is the
infinity's pattern exactly from half a unit in the last place above the largest finite value on. -/
def Obligations.RoundingIsToNearestEven : Prop :=
  (∀ (m sh : Nat) (x : F64), f64IsFinite x = true → roundBits m sh < f64InfBits →
    (let got : Int := (f64Mag (f64Pack false (roundBits m sh)) * 2 ^ sh : Nat)
     let other : Int := (f64Mag x * 2 ^ sh : Nat)
     |got - (m : Int)| ≤ |other - (m : Int)| ∧
     (other ≠ got → |got - (m : Int)| = |other - (m : Int)| → roundBits m sh % 2 = 0))) ∧
  (∀ (m sh : Nat), roundBits m sh = f64InfBits ↔ (2 ^ 54 - 1) * 2 ^ (2044 + sh) ≤ m)

/-- R202: rounding is monotone, and a magnitude that a word already has is kept. -/
def Obligations.RoundingIsMonotoneAndExact : Prop :=
  (∀ (m m' sh : Nat), m ≤ m' → roundBits m sh ≤ roundBits m' sh) ∧
  (∀ (x : F64) (sh : Nat), f64IsFinite x = true →
    roundBits (f64Mag x * 2 ^ sh) sh = x.toNat % 2 ^ 63)

/-- R202, R203: the special cases: an operation with a NaN operand, `infinity - infinity` (as a sum of
opposite infinities and as a difference of equal ones) and `0 * infinity` in either order give a quiet NaN;
`x - x = +0`, `x + (+0) = x` for `x` not `-0`, and `1 * x = x * 1 = x` for finite `x`; `(-0) + (-0) = -0` and
`(+0) + (-0) = (-0) + (+0) = +0`; a product of a zero and a finite value, in either order, is a zero whose
sign is the product of the signs. -/
def Obligations.SpecialCasesOfTheOperations : Prop :=
  ∀ (d : Config.Draw) (a b : F64),
    (f64IsNaN a = true ∨ f64IsNaN b = true →
      (f64IsNaN (f64Add d a b) = true ∧ (f64Add d a b).getLsbD 51 = true) ∧
      (f64IsNaN (f64Sub d a b) = true ∧ (f64Sub d a b).getLsbD 51 = true) ∧
      (f64IsNaN (f64Mul d a b) = true ∧ (f64Mul d a b).getLsbD 51 = true)) ∧
    (∀ n : Bool, f64Value a = .inf n → f64Value b = .inf (!n) →
      f64IsNaN (f64Add d a b) = true ∧ (f64Add d a b).getLsbD 51 = true) ∧
    (∀ n : Bool, f64Value a = .inf n → f64Value b = .inf n →
      f64IsNaN (f64Sub d a b) = true ∧ (f64Sub d a b).getLsbD 51 = true) ∧
    (∀ n : Bool, f64IsZero a = true → f64Value b = .inf n →
      (f64IsNaN (f64Mul d a b) = true ∧ (f64Mul d a b).getLsbD 51 = true) ∧
      (f64IsNaN (f64Mul d b a) = true ∧ (f64Mul d b a).getLsbD 51 = true)) ∧
    (f64IsFinite a = true →
      f64Sub d a a = 0#64 ∧
      (a ≠ 0x8000000000000000#64 → f64Add d a 0#64 = a) ∧
      f64Mul d 0x3FF0000000000000#64 a = a ∧ f64Mul d a 0x3FF0000000000000#64 = a) ∧
    f64Add d 0x8000000000000000#64 0x8000000000000000#64 = 0x8000000000000000#64 ∧
    f64Add d 0x0000000000000000#64 0x8000000000000000#64 = 0x0000000000000000#64 ∧
    f64Add d 0x8000000000000000#64 0x0000000000000000#64 = 0x0000000000000000#64 ∧
    (f64IsZero a = true → f64IsFinite b = true →
      (let z : F64 :=
        if f64Sign a = f64Sign b then 0x0000000000000000#64 else 0x8000000000000000#64
       f64Mul d a b = z ∧ f64Mul d b a = z))

/-- R206 for the values where it holds: `int_to_num` is exact for `|k| <= 2 * LEN_MAX + 1`, and the
fractional part of every finite value that is not negative is exact (a value in `[0, 1)`). -/
def Obligations.FractionIsExactWhenNotNegative : Prop :=
  (∀ (k : Int), |k| ≤ 2 * 2097152 + 1 → f64Value (f64OfInt k) = .fin (k * 2 ^ 1074)) ∧
  (∀ (d : Config.Draw) (rh : F64) (x : Int), f64Value rh = .fin x → 0 ≤ x →
    f64Value (f64Sub d rh (f64OfInt (f64FloorInt d rh))) = .fin (x % 2 ^ 1074))

/-- R206 as the spec words it, for EVERY finite value. It fails: for a tiny negative value, `-2^-1074`, the
floor is -1 and the difference rounds to 1 (log entry 10). -/
def Obligations.FractionIsExactForEveryFiniteValue : Prop :=
  (∀ (k : Int), |k| ≤ 2 * 2097152 + 1 → f64Value (f64OfInt k) = .fin (k * 2 ^ 1074)) ∧
  (∀ (d : Config.Draw) (rh : F64) (x : Int), f64Value rh = .fin x →
    ∃ y : Int, f64Value (f64Sub d rh (f64OfInt (f64FloorInt d rh))) = .fin y ∧
      y = x - f64FloorInt d rh * 2 ^ 1074 ∧ 0 ≤ y ∧ y < 2 ^ 1074)

/-- R207: for a finite positive value, `round_half_away` is the floor when the fractional part is below one
half and the floor plus one otherwise, on exact values; and the rule's four examples. -/
def Obligations.RoundHalfAwayFollowsR207 : Prop :=
  (∀ (d : Config.Draw) (a : F64) (x : Int), f64Value a = .fin x → 0 < x →
    (let k := f64FloorInt d a
     k * 2 ^ 1074 ≤ x ∧ x < (k + 1) * 2 ^ 1074 ∧
     f64RoundHalfAway d a = (if 2 * (x - k * 2 ^ 1074) < 2 ^ 1074 then k else k + 1))) ∧
  (∀ d : Config.Draw,
    f64RoundHalfAway d 0x3FE0000000000000#64 = 1 ∧ f64RoundHalfAway d 0x3FDFFFFFFFFFFFFF#64 = 0 ∧
    f64RoundHalfAway d 0x4004000000000000#64 = 3 ∧ f64RoundHalfAway d 0x4011000000000000#64 = 4)

/-- R11, R210: `emod(k, n)` is the one `r` in `[0, n)` with `k - r` a multiple of `n`; and the laws the
rules use. -/
def Obligations.EmodIsTheEuclideanRemainder : Prop :=
  ∀ (k : Int) (n : Nat), 1 ≤ n →
    (emod k n < n ∧ (n : Int) ∣ k - (emod k n : Int)) ∧
    (∀ r : Nat, r < n → (n : Int) ∣ k - (r : Int) → r = emod k n) ∧
    (0 ≤ k → k < (n : Int) → (emod k n : Int) = k) ∧ emod (n : Int) n = 0 ∧
    emod (-1) n = n - 1 ∧ emod (k + (n : Int)) n = emod k n ∧ emod k 1 = 0

/-! ## Ideal arithmetic (R212) -/

/-- R178: the loop equation without ping-pong, for either channel. -/
def Obligations.LoopEquationStraight : Prop :=
  ∀ (sr : Rat) (len : Nat) (lt : Latches Rat) (in0 in1 : Nat → Rat) (d : Nat),
    len ≤ 2097152 → lt.lpp = false → 1 ≤ d → d + 1 ≤ len →
    (sr * lt.ldt0 = (d : Rat) → ∀ k, idealWet0 sr len lt in0 in1 k =
      delayed in0 d k + lt.lfb * delayed (idealWet0 sr len lt in0 in1) (d + 1) k) ∧
    (sr * lt.ldt1 = (d : Rat) → ∀ k, idealWet1 sr len lt in0 in1 k =
      delayed in1 d k + lt.lfb * delayed (idealWet1 sr len lt in0 in1) (d + 1) k)

/-- R179: the loop equations with ping-pong. -/
def Obligations.LoopEquationPingPong : Prop :=
  ∀ (sr : Rat) (len : Nat) (lt : Latches Rat) (in0 in1 : Nat → Rat) (dL dR : Nat),
    len ≤ 2097152 → lt.lpp = true → 1 ≤ dL → dL + 1 ≤ len → 1 ≤ dR → dR + 1 ≤ len →
    sr * lt.ldt0 = (dL : Rat) → sr * lt.ldt1 = (dR : Rat) →
    ∀ k,
      idealWet0 sr len lt in0 in1 k =
        delayed in0 dL k + lt.lfb * delayed (idealWet1 sr len lt in0 in1) (dL + 1) k ∧
      idealWet1 sr len lt in0 in1 k =
        delayed in1 dR k + lt.lfb * delayed (idealWet0 sr len lt in0 in1) (dR + 1) k

/-- R180: the impulse response without ping-pong and `dryWet = 1`, on either channel: `f^j` at frame
`d + j * (d + 1)`, zero in every other frame. -/
def Obligations.ImpulseResponseStraight : Prop :=
  ∀ (sr : Rat) (len : Nat) (lt : Latches Rat) (other : Nat → Rat) (d : Nat),
    len ≤ 2097152 → lt.lpp = false → lt.ldw = 1 → 1 ≤ d → d + 1 ≤ len →
    (let impulse : Nat → Rat := fun k => if k = 0 then 1 else 0
     (sr * lt.ldt0 = (d : Rat) →
       (∀ j, idealOut0 sr len lt impulse other (d + j * (d + 1)) = lt.lfb ^ j) ∧
       (∀ k, (∀ j, k ≠ d + j * (d + 1)) → idealOut0 sr len lt impulse other k = 0)) ∧
     (sr * lt.ldt1 = (d : Rat) →
       (∀ j, idealOut1 sr len lt other impulse (d + j * (d + 1)) = lt.lfb ^ j) ∧
       (∀ k, (∀ j, k ≠ d + j * (d + 1)) → idealOut1 sr len lt other impulse k = 0)))

/-- R181: with ping-pong, one integer delay on both channels, `dryWet = 1` and an impulse on the left only:
`f^j` at frame `d + j * (d + 1)`, on the left for even `j` and on the right for odd `j`, zero elsewhere. -/
def Obligations.ImpulseResponsePingPong : Prop :=
  ∀ (sr : Rat) (len : Nat) (lt : Latches Rat) (d : Nat),
    len ≤ 2097152 → lt.lpp = true → lt.ldw = 1 → 1 ≤ d → d + 1 ≤ len →
    sr * lt.ldt0 = (d : Rat) → sr * lt.ldt1 = (d : Rat) →
    (let impulse : Nat → Rat := fun k => if k = 0 then 1 else 0
     let zeros : Nat → Rat := fun _ => 0
     (∀ j, idealOut0 sr len lt impulse zeros (d + j * (d + 1)) =
         (if j % 2 = 0 then lt.lfb ^ j else 0) ∧
       idealOut1 sr len lt impulse zeros (d + j * (d + 1)) =
         (if j % 2 = 0 then 0 else lt.lfb ^ j)) ∧
     (∀ k, (∀ j, k ≠ d + j * (d + 1)) →
       idealOut0 sr len lt impulse zeros k = 0 ∧ idealOut1 sr len lt impulse zeros k = 0))

/-- R158: under ideal arithmetic with a constant target, `s_k = T + (s_0 - T) * 0.999^k`. -/
def Obligations.SmoothingIsExponentialWhenIdeal : Prop :=
  ∀ (target s0 : Rat) (k : Nat),
    idealSmooth target s0 k = target + (s0 - target) * (999 / 1000) ^ k

/-- R154: under ideal arithmetic a delay in `(0, LEN]` gives a read position in `[0, LEN)`, and the index
reduction changes nothing. -/
def Obligations.IdealReadPositionIsInRange : Prop :=
  ∀ (k : Nat) (c : Chan) (w len : Nat) (dts : Rat), w < len → 0 < dts → dts ≤ (len : Rat) →
    (let rh := readPosition ideal k c w len dts
     0 ≤ rh ∧ rh < (len : Rat) ∧ idxCorrected (baseIndex ideal k c rh) len = false ∧
       (tapIndex (baseIndex ideal k c rh) len : Int) = baseIndex ideal k c rh)

/-! ## Reset and the invariants that every step keeps -/

/-- R50: what the spec gives for reset: `CFG`, the five parameter registers, empty buffers, idle ports. -/
def Obligations.ResetLeavesTheSpecValues : Prop :=
  State.reset.conf.cfg = false ∧ State.reset.params.drywet = 0x0000000000000000#64 ∧
  State.reset.params.feedback = 0x3F847AE147AE147B#64 ∧
  State.reset.params.dtl = 0x3F847AE147AE147B#64 ∧
  State.reset.params.dtr = 0x3F847AE147AE147B#64 ∧ State.reset.params.pingpong = false ∧
  State.reset.left.buf = [] ∧ State.reset.right.buf = [] ∧
  State.reset.portA = [] ∧ State.reset.portB = [] ∧ State.reset.rspA = [] ∧ State.reset.rspB = []

/-- Every invariant holds at reset, with the values the model chose for what the spec leaves open (log
entries 1 and 2). -/
def Obligations.ResetMeetsEveryInvariant : Prop := State.reset.Inv = true

/-- Every step keeps the memories in the model's canonical form (indexes strictly rising, no entry that is
`+0`: the model's own, log entry 11) and inside their spaces (R43, R60). -/
def Obligations.StepKeepsMemoryCanonical : Prop :=
  ∀ (s t : State), s.memoryOk = true → step s = .next t → t.memoryOk = true

/-- R43: every step keeps `0 <= WH[c] < LEN` and `1 <= LEN <= LEN_MAX` while `CFG = 1`. -/
def Obligations.StepKeepsHeadsInRange : Prop :=
  ∀ (s t : State), s.headsOk = true → step s = .next t → t.headsOk = true

/-- R22: every step keeps the two write heads equal. -/
def Obligations.StepKeepsHeadsEqual : Prop :=
  ∀ (s t : State), s.headsEqual = true → step s = .next t → t.headsEqual = true

/-- R27, R28, R29, R44: every step keeps the configuration registers and the parameter registers legal. -/
def Obligations.StepKeepsParametersLegal : Prop :=
  ∀ (s t : State), s.confOk = true → s.paramsOk = true → step s = .next t →
    t.confOk = true ∧ t.paramsOk = true

/-- R45 under binary64 (left by the spec as a proof obligation): every step keeps the smoothed delay times
between `min(DT_MIN, MAXD)` and `MAXD`. -/
def Obligations.StepKeepsSmoothedDelayBounded : Prop :=
  ∀ (s t : State), s.confOk = true → s.paramsOk = true → s.smoothOk = true → step s = .next t →
    t.smoothOk = true

/-- R31: no step clears `CFG`; and only a successful CONFIGURE changes a configuration register (R52). -/
def Obligations.OnlyConfigureChangesTheConfiguration : Prop :=
  (∀ (s t : State), s.conf.cfg = true → step s = .next t → t.conf.cfg = true) ∧
  (∀ (i : Instr) (s t : State), exec i s = .next t → t.conf ≠ s.conf →
    ∃ sr md, i = .configure sr md ∧ t.rspA = s.rspA ++ [0#32])

/-- R51, R38, R40, R23: no step's outcome depends on the latches, `FC` or the read heads, nor, while
`CFG = 0`, on `SR`, `MAXD`, `LEN` or the channels: two states that show the same have outcomes that show
the same. -/
def Obligations.HiddenStateIsUnobservable : Prop :=
  ∀ (s s' : State), s.observable = s'.observable →
    mapNext State.observable (step s) = mapNext State.observable (step s')

/-! ## The three operations on finite values (44_arithmetic.md) -/

/-- R202: on finite operands `fadd`, `fsub` and `fmul` return the exact sum, difference and product rounded
once, to nearest with ties to even, an overflow giving the infinity of the result's sign; a product's sign
is the product of the signs, also where it rounds to a zero. -/
def Obligations.OperationsRoundTheExactResultOnce : Prop :=
  ∀ (d : Config.Draw) (a b : F64) (x y : Int), f64Value a = .fin x → f64Value b = .fin y →
    RoundedOnce (x + y) 0 (f64Add d a b) ∧
    RoundedOnce (x - y) 0 (f64Sub d a b) ∧
    RoundedOnce (x * y) 1074 (f64Mul d a b) ∧
    f64Sign (f64Mul d a b) = (f64Sign a != f64Sign b)
end

