-- ==== Sys2Proof/Laws/Binary64.lean ====
section
/-! SUPPORT. The small facts about binary64 words and operations that later proofs cite: what a word can
be, what the comparisons are as orders, and what each operation is on finite values (R200 to R204). -/

namespace Sys2Proof.Machine

/-! ## Words -/

theorem f64Exp_lt (x : F64) : f64Exp x < 2 ^ 11 := Nat.mod_lt _ (by norm_num)

theorem f64Frac_lt (x : F64) : f64Frac x < 2 ^ 52 := Nat.mod_lt _ (by norm_num)

/-- A word is a NaN, an infinity or finite, by its exponent and fraction fields. -/
theorem f64Value_cases (x : F64) :
    (f64IsNaN x = true ∧ f64Value x = .nan) ∨
    (f64IsNaN x = false ∧ f64IsFinite x = false ∧ f64Value x = .inf (f64Sign x)) ∨
    (f64IsNaN x = false ∧ f64IsFinite x = true ∧
      f64Value x = .fin (if f64Sign x then -(f64Mag x : Int) else (f64Mag x : Int))) := by
  unfold f64IsNaN f64IsFinite f64Value
  by_cases he : f64Exp x = 2047
  · by_cases hf : f64Frac x = 0
    · right; left; simp [he, hf]
    · left; simp [he, hf]
  · right; right; simp [he]

/-- `f64IsNaN` reads the value. -/
theorem f64IsNaN_iff (x : F64) : f64IsNaN x = true ↔ f64Value x = .nan := by
  rcases f64Value_cases x with ⟨h, hv⟩ | ⟨h, -, hv⟩ | ⟨h, -, hv⟩ <;> simp [h, hv]

/-- `is_finite` reads the value. -/
theorem f64IsFinite_iff (x : F64) : f64IsFinite x = true ↔ ∃ u, f64Value x = .fin u := by
  rcases f64Value_cases x with ⟨h, hv⟩ | ⟨h, hf, hv⟩ | ⟨h, hf, hv⟩
  · have : f64IsFinite x = false := by
      unfold f64IsNaN at h
      unfold f64IsFinite
      simp at h
      simp [h.1]
    simp [this, hv]
  · simp [hf, hv]
  · simp [hf, hv]

/-- The fields of a packed word. -/
theorem f64Pack_fields (neg : Bool) {bits : Nat} (h : bits < 2 ^ 63) :
    f64Exp (f64Pack neg bits) = bits / 2 ^ 52 ∧ f64Frac (f64Pack neg bits) = bits % 2 ^ 52 ∧
      f64Sign (f64Pack neg bits) = neg := by
  have hw : (f64Pack neg bits).toNat = (if neg then 2 ^ 63 else 0) + bits := by
    unfold f64Pack
    rw [BitVec.toNat_ofNat]
    exact Nat.mod_eq_of_lt (by split <;> omega)
  refine ⟨?_, ?_, ?_⟩
  · unfold f64Exp
    rw [hw]
    split <;> omega
  · unfold f64Frac
    rw [hw]
    split <;> omega
  · unfold f64Sign
    rw [← BitVec.testBit_toNat, hw, Nat.testBit_eq_decide_div_mod_eq]
    cases neg <;> simp <;> omega

/-- A word is its sign and its magnitude pattern. -/
theorem f64Pack_self (x : F64) : f64Pack (f64Sign x) (x.toNat % 2 ^ 63) = x := by
  apply BitVec.eq_of_toNat_eq
  have hx := x.isLt
  unfold f64Pack f64Sign
  rw [BitVec.toNat_ofNat, ← BitVec.testBit_toNat, Nat.testBit_eq_decide_div_mod_eq]
  by_cases h : x.toNat / 2 ^ 63 % 2 = 1
  · simp only [h, decide_true, if_true]
    omega
  · simp only [h, decide_false, Bool.false_eq_true, if_false]
    omega

/-! ## Produced NaNs (R203): quiet, whatever their free bits -/

theorem quietNaN_fields (bits : BitVec 52) :
    f64Exp (quietNaN bits) = 2047 ∧ 2 ^ 51 ≤ f64Frac (quietNaN bits) := by
  have hw : (quietNaN bits).toNat =
      (bits.extractLsb' 51 1).toNat * 2 ^ 63 + (0xFFF * 2 ^ 51 + (bits.extractLsb' 0 51).toNat) := by
    unfold quietNaN
    have h0 := (bits.extractLsb' 0 51).isLt
    have h12 : (0xFFF#12).toNat < 2 ^ 12 := by decide
    rw [BitVec.toNat_append, BitVec.toNat_append, ← Nat.shiftLeft_add_eq_or_of_lt h12,
      ← Nat.shiftLeft_add_eq_or_of_lt h0, Nat.shiftLeft_eq, Nat.shiftLeft_eq]
    have h : (0xFFF#12).toNat = 0xFFF := by decide
    rw [h]
    omega
  have h1 := (bits.extractLsb' 51 1).isLt
  have h0 := (bits.extractLsb' 0 51).isLt
  unfold f64Exp f64Frac
  rw [hw]
  omega

@[simp] theorem f64Value_quietNaN (bits : BitVec 52) : f64Value (quietNaN bits) = .nan := by
  obtain ⟨he, hf⟩ := quietNaN_fields bits
  unfold f64Value
  rw [if_pos he, if_neg (by omega)]

@[simp] theorem f64IsNaN_quietNaN (bits : BitVec 52) : f64IsNaN (quietNaN bits) = true :=
  (f64IsNaN_iff _).mpr (f64Value_quietNaN bits)

/-! ## Comparisons (R204) are a total order on what is no NaN -/

theorem valueLe_trans {a b c : F64Value} (h : valueLe a b = true) (k : valueLe b c = true) :
    valueLe a c = true := by
  cases a <;> cases b <;> cases c <;> simp_all [valueLe] <;> first | omega | grind

theorem valueLt_eq_not_le {a b : F64Value} (ha : a ≠ .nan) (hb : b ≠ .nan) :
    valueLt a b = !valueLe b a := by
  cases a <;> cases b <;> simp_all [valueLe, valueLt] <;> grind

theorem valueLe_total {a b : F64Value} (ha : a ≠ .nan) (hb : b ≠ .nan) :
    valueLe a b = true ∨ valueLe b a = true := by
  cases a <;> cases b <;> simp_all [valueLe] <;> first | omega | grind

theorem f64Le_trans {a b c : F64} (h : f64Le a b = true) (k : f64Le b c = true) :
    f64Le a c = true := valueLe_trans h k

theorem f64Le_refl {a : F64} (h : f64IsNaN a = false) : f64Le a a = true := by
  have hn : f64Value a ≠ .nan := fun hv => by simp [(f64IsNaN_iff a).mpr hv] at h
  exact (valueLe_total hn hn).elim id id

/-- A comparison that holds has no NaN operand. -/
theorem f64Le_not_nan {a b : F64} (h : f64Le a b = true) :
    f64IsNaN a = false ∧ f64IsNaN b = false := by
  constructor
  · by_contra hn
    rw [Bool.not_eq_false, f64IsNaN_iff] at hn
    simp [f64Le, hn, valueLe] at h
  · by_contra hn
    rw [Bool.not_eq_false, f64IsNaN_iff] at hn
    unfold f64Le at h
    rw [hn] at h
    cases hv : f64Value a <;> simp [hv, valueLe] at h

/-- What `a < b` is when neither is a NaN. -/
theorem f64Lt_eq_not_le {a b : F64} (ha : f64IsNaN a = false) (hb : f64IsNaN b = false) :
    f64Lt a b = !f64Le b a := by
  refine valueLt_eq_not_le ?_ ?_ <;> intro hv
  · simp [(f64IsNaN_iff a).mpr hv] at ha
  · simp [(f64IsNaN_iff b).mpr hv] at hb

/-! ## The operations on finite values (R202) -/

theorem f64Add_finite (d : Config.Draw) {a b : F64} {x y : Int} (ha : f64Value a = .fin x)
    (hb : f64Value b = .fin y) :
    f64Add d a b =
      if x + y = 0 then f64Zero (f64Sign a && f64Sign b)
      else f64Pack (x + y < 0) (roundBits (x + y).natAbs 0) := by
  unfold f64Add
  rw [ha, hb]

theorem f64Mul_finite (d : Config.Draw) {a b : F64} {x y : Int} (ha : f64Value a = .fin x)
    (hb : f64Value b = .fin y) :
    f64Mul d a b =
      f64Pack (f64Sign a != f64Sign b) (roundBits (x.natAbs * y.natAbs) 1074) := by
  unfold f64Mul
  rw [ha, hb]

/-- No rounding goes above the infinity's pattern, so every packed pattern has 63 bits. -/
theorem roundBits_le (m sh : Nat) : roundBits m sh ≤ f64InfBits := Nat.min_le_right _ _

/-- The rounded quotient is the floor or the one above it. -/
theorem roundShift_cases (m k : Nat) :
    roundShift m k = m / 2 ^ k ∨ roundShift m k = m / 2 ^ k + 1 := by
  unfold roundShift
  dsimp only
  split
  · exact .inr rfl
  · exact .inl rfl

/-- What is a multiple is not rounded. -/
theorem roundShift_exact (q k : Nat) : roundShift (q * 2 ^ k) k = q := by
  have hp : 0 < 2 ^ k := Nat.two_pow_pos k
  unfold roundShift
  simp [Nat.mul_div_cancel q hp]
  omega

end Sys2Proof.Machine
end

