-- ==== Sys2Proof/Laws/Encoding.lean ====
section
/-! SUPPORT. The fields of an assembled command word (R92), and taking operand words (R101). -/

namespace Sys2Proof

theorem opcField_commandWord (opc sel : BitVec 4) (cnt : BitVec 24) :
    opcField (commandWord opc sel cnt) = opc := by
  simp only [opcField, commandWord]
  ext i hi
  simp only [BitVec.getElem_extractLsb', BitVec.getLsbD_append]
  simp [show ¬ 28 + i < 24 by omega, show ¬ 28 + i - 24 < 4 by omega,
    show 28 + i - 24 - 4 = i by omega, hi]

theorem selField_commandWord (opc sel : BitVec 4) (cnt : BitVec 24) :
    selField (commandWord opc sel cnt) = sel := by
  simp only [selField, commandWord]
  ext i hi
  simp only [BitVec.getElem_extractLsb', BitVec.getLsbD_append]
  simp [hi]

theorem cntField_commandWord (opc sel : BitVec 4) (cnt : BitVec 24) :
    cntField (commandWord opc sel cnt) = cnt := by
  simp only [cntField, commandWord]
  ext i hi
  simp only [BitVec.getElem_extractLsb', BitVec.getLsbD_append]
  simp [hi]

/-- 32 bits are their top four, the next four and the low 24. -/
theorem bits32_append (cw : BitVec 32) :
    cw.extractLsb' 28 4 ++ cw.extractLsb' 24 4 ++ cw.extractLsb' 0 24 = cw := by
  ext i hi
  rw [← BitVec.getLsbD_eq_getElem, BitVec.getLsbD_append, BitVec.getLsbD_append]
  simp only [BitVec.getLsbD_extractLsb']
  by_cases h1 : i < 24
  · simp [h1, BitVec.getLsbD_eq_getElem, hi]
  · by_cases h2 : i - 24 < 4
    · simp [h1, h2, show 24 + (i - 24) = i by omega, BitVec.getLsbD_eq_getElem, hi]
    · simp [h1, h2, show 28 + (i - 24 - 4) = i by omega, show i - 24 - 4 < 4 by omega,
        BitVec.getLsbD_eq_getElem, hi]

/-- A command word is its three fields: no bit is outside them (R92). -/
theorem commandWord_fields (cw : CmdWord) :
    commandWord (opcField cw) (selField cw) (cntField cw) = cw := bits32_append cw

/-- The range of a count, in figures (R170). -/
theorem countFits_iff (n : Nat) : countFits n = true ↔ n ≤ 16777215 := by
  simp only [countFits, decide_eq_true_eq]
  exact Nat.lt_succ_iff

/-- A count field is at most `2^24 - 1` (R98). -/
theorem cntField_le (cw : CmdWord) : (cntField cw).toNat ≤ 16777215 :=
  Nat.le_of_lt_succ (cntField cw).isLt

/-- Taking exactly the operand words at the head. -/
theorem takeOperands_map (ops : List F64) (rest : List PortWord) :
    takeOperands ops.length (ops.map .opd ++ rest) = .words ops rest := by
  induction ops with
  | nil => rfl
  | cons w ops ih => simp [takeOperands, ih]

/-- Operand words taken are `n` operand words off the head. -/
theorem takeOperands_words {n : Nat} {ws rest : List PortWord} {ops : List F64}
    (h : takeOperands n ws = .words ops rest) : ops.length = n ∧ ws = ops.map .opd ++ rest := by
  induction n generalizing ws ops with
  | zero =>
    simp only [takeOperands, Taken.words.injEq] at h
    obtain ⟨rfl, rfl⟩ := h
    exact ⟨rfl, rfl⟩
  | succ n ih =>
    cases ws with
    | nil => cases h
    | cons w ws =>
      cases w with
      | cmd w => cases h
      | opd w =>
        simp only [takeOperands] at h
        cases ht : takeOperands n ws with
        | short => simp [ht] at h
        | malformed => simp [ht] at h
        | words ops' rest' =>
          simp only [ht, Taken.words.injEq] at h
          obtain ⟨rfl, rfl⟩ := h
          obtain ⟨hl, hw⟩ := ih ht
          exact ⟨by simp [hl], by simp [hw]⟩

end Sys2Proof
end

