-- ==== Sys2Proof/Laws/Memory.lean ====
section
/-! SUPPORT. The laws of `MemRead` and `MemWrite` (R8, R66, R67): a read after a write to the same
entry gives the value written, a write leaves every other entry alone, and every operation keeps the
canonical form. -/

namespace Sys2Proof.Machine

variable {α : Type} [DecidableEq α] {z : α}

theorem wfFrom_cons {lo j : Nat} {w : α} {m : Memory α} :
    Memory.wfFrom z lo ((j, w) :: m) = true ↔
      lo ≤ j ∧ w ≠ z ∧ Memory.wfFrom z (j + 1) m = true := by
  simp [Memory.wfFrom, and_assoc]

theorem wfFrom_mono {lo lo' : Nat} {m : Memory α} (h : Memory.wfFrom z lo m = true)
    (hl : lo' ≤ lo) : Memory.wfFrom z lo' m = true := by
  cases m with
  | nil => rfl
  | cons e m =>
    obtain ⟨h1, h2, h3⟩ := wfFrom_cons.mp h
    exact wfFrom_cons.mpr ⟨by omega, h2, h3⟩

theorem memory_cleared_wf : Memory.wf z (Memory.cleared : Memory α) = true := rfl

omit [DecidableEq α] in
theorem memory_cleared_read (i : Nat) : Memory.read z (Memory.cleared : Memory α) i = z := rfl

theorem memory_read_below {lo : Nat} {m : Memory α} (h : Memory.wfFrom z lo m = true) {i : Nat}
    (hi : i < lo) : Memory.read z m i = z := by
  cases m with
  | nil => rfl
  | cons e m =>
    obtain ⟨h1, -, -⟩ := wfFrom_cons.mp h
    have : e.1 ≠ i := by omega
    simp [Memory.read, this, show i < e.1 by omega]

theorem memory_write_wfFrom {lo i : Nat} {m : Memory α} (v : α)
    (h : Memory.wfFrom z lo m = true) (hi : lo ≤ i) :
    Memory.wfFrom z lo (Memory.write z m i v) = true := by
  induction m generalizing lo with
  | nil =>
    by_cases hv : v = z
    · simp [Memory.write, hv, Memory.wfFrom]
    · simp [Memory.write, hv, Memory.wfFrom, hi]
  | cons e m ih =>
    obtain ⟨j, w⟩ := e
    obtain ⟨h1, h2, h3⟩ := wfFrom_cons.mp h
    simp only [Memory.write]
    split
    · subst_vars
      split
      · exact wfFrom_mono h3 (by omega)
      · exact wfFrom_cons.mpr ⟨hi, by assumption, h3⟩
    · split
      · split
        · exact h
        · exact wfFrom_cons.mpr ⟨hi, by assumption, wfFrom_cons.mpr ⟨by omega, h2, h3⟩⟩
      · exact wfFrom_cons.mpr ⟨h1, h2, ih h3 (by omega)⟩

/-- A write keeps the canonical form. -/
theorem memory_write_wf {m : Memory α} (i : Nat) (v : α) (h : Memory.wf z m = true) :
    Memory.wf z (Memory.write z m i v) = true :=
  memory_write_wfFrom v h (Nat.zero_le i)

theorem memory_read_write_same_from {lo i : Nat} {m : Memory α} (v : α)
    (h : Memory.wfFrom z lo m = true) : Memory.read z (Memory.write z m i v) i = v := by
  induction m generalizing lo with
  | nil =>
    by_cases hv : v = z
    · simp [Memory.write, hv, Memory.read]
    · simp [Memory.write, hv, Memory.read]
  | cons e m ih =>
    obtain ⟨j, w⟩ := e
    obtain ⟨h1, h2, h3⟩ := wfFrom_cons.mp h
    simp only [Memory.write]
    split
    · subst_vars
      split
      · subst_vars
        exact memory_read_below h3 (by omega)
      · simp [Memory.read]
    · split
      · split
        · subst_vars
          simp [Memory.read, *]
        · simp [Memory.read]
      · simp only [Memory.read]
        rw [if_neg (by assumption), if_neg (by assumption)]
        exact ih h3

/-- A read after a write to the same entry gives the value written. -/
theorem memory_read_write_same {m : Memory α} (i : Nat) (v : α) (h : Memory.wf z m = true) :
    Memory.read z (Memory.write z m i v) i = v :=
  memory_read_write_same_from v h

theorem memory_read_write_other_from {lo i k : Nat} {m : Memory α} (v : α)
    (h : Memory.wfFrom z lo m = true) (hk : k ≠ i) :
    Memory.read z (Memory.write z m i v) k = Memory.read z m k := by
  induction m generalizing lo with
  | nil =>
    by_cases hv : v = z
    · simp [Memory.write, hv, Memory.read]
    · simp [Memory.write, hv, Memory.read, Ne.symm hk]
  | cons e m ih =>
    obtain ⟨j, w⟩ := e
    obtain ⟨h1, h2, h3⟩ := wfFrom_cons.mp h
    simp only [Memory.write]
    split
    · subst_vars
      split
      · simp only [Memory.read, if_neg (Ne.symm hk)]
        split
        · exact memory_read_below h3 (by omega)
        · rfl
      · simp [Memory.read, Ne.symm hk]
    · split
      · split
        · rfl
        · simp only [Memory.read, if_neg (Ne.symm hk)]
          split
          · have : j ≠ k := by omega
            simp [this, show k < j by omega]
          · rfl
      · simp only [Memory.read]
        rw [ih h3]

/-- A write leaves every other entry alone. -/
theorem memory_read_write_other {m : Memory α} {i k : Nat} (v : α) (h : Memory.wf z m = true)
    (hk : k ≠ i) : Memory.read z (Memory.write z m i v) k = Memory.read z m k :=
  memory_read_write_other_from v h hk

/-- Reads after a write, both cases in one. -/
theorem memory_read_write {m : Memory α} (i k : Nat) (v : α) (h : Memory.wf z m = true) :
    Memory.read z (Memory.write z m i v) k = if k = i then v else Memory.read z m k := by
  split
  · subst_vars
    exact memory_read_write_same _ v h
  · exact memory_read_write_other v h (by assumption)

/-- A write below `n` lists no index from `n` on. -/
theorem memory_write_within {m : Memory α} {n i : Nat} (v : α) (h : Memory.within n m = true)
    (hi : i < n) : Memory.within n (Memory.write z m i v) = true := by
  induction m with
  | nil => by_cases hv : v = z <;> simp [Memory.write, hv, Memory.within, hi]
  | cons e m ih =>
    obtain ⟨j, w⟩ := e
    simp only [Memory.within, List.all_cons, Bool.and_eq_true, decide_eq_true_eq] at h ih ⊢
    simp only [Memory.write]
    split
    · split
      · exact h.2
      · simp [hi, h.2]
    · split
      · split <;> simp [hi, h.1, h.2]
      · simp [h.1, ih h.2]

omit [DecidableEq α] in
theorem memory_cleared_within (n : Nat) : Memory.within n (Memory.cleared : Memory α) = true := rfl

/-- Two canonical memories that read the same everywhere are the same list. -/
theorem memory_ext_from {lo : Nat} {m m' : Memory α} (h : Memory.wfFrom z lo m = true)
    (h' : Memory.wfFrom z lo m' = true) (hr : ∀ i, Memory.read z m i = Memory.read z m' i) :
    m = m' := by
  induction m generalizing lo m' with
  | nil =>
    cases m' with
    | nil => rfl
    | cons e m' =>
      obtain ⟨j, w⟩ := e
      obtain ⟨-, h2, -⟩ := wfFrom_cons.mp h'
      exact absurd (by simpa [Memory.read] using (hr j).symm) h2
  | cons e m ih =>
    obtain ⟨j, w⟩ := e
    obtain ⟨-, h2, h3⟩ := wfFrom_cons.mp h
    cases m' with
    | nil => exact absurd (by simpa [Memory.read] using hr j) h2
    | cons e' m' =>
      obtain ⟨j', w'⟩ := e'
      obtain ⟨-, h2', h3'⟩ := wfFrom_cons.mp h'
      have hj : j = j' := by
        rcases Nat.lt_trichotomy j j' with hlt | heq | hgt
        · have := hr j
          simp [Memory.read, show j' ≠ j by omega, hlt] at this
          exact absurd this h2
        · exact heq
        · have := hr j'
          simp [Memory.read, show j ≠ j' by omega, hgt] at this
          exact absurd this.symm h2'
      subst hj
      have hw : w = w' := by simpa [Memory.read] using hr j
      subst hw
      congr 1
      refine ih h3 h3' fun i => ?_
      by_cases hi : i < j + 1
      · rw [memory_read_below h3 hi, memory_read_below h3' hi]
      · have := hr i
        simpa [Memory.read, show j ≠ i by omega, show ¬ i < j by omega] using this

end Sys2Proof.Machine
end

