-- ==== Sys2Proof/Laws/State.lean ====
section
/-! SUPPORT. What each named update does to each field of State: one lemma per field, so that no later
proof unfolds a record update. -/

namespace Sys2Proof.Machine

/-! ## Widths in figures (R4) -/

/-- The channels are numbered 0 and 1, each number once. -/
theorem chan_number_bijective : Function.Bijective Chan.number := by
  constructor
  · intro a b
    cases a <;> cases b <;> decide
  · intro n
    match n with
    | 0 => exact ⟨.left, rfl⟩
    | 1 => exact ⟨.right, rfl⟩

/-- A write head or a length is below `2^LENW`. -/
theorem lenW_bound (w : BitVec Config.lenW) : w.toNat < 4194304 := w.isLt

/-- A frame counter is below `2^CNTW`. -/
theorem cntW_bound (w : BitVec Config.cntW) : w.toNat < 16777216 := w.isLt

/-- A value below `2^LENW` is kept by a head or length register. -/
theorem toNat_ofNat_lenW {n : Nat} (h : n < 4194304) : (BitVec.ofNat Config.lenW n).toNat = n :=
  Nat.mod_eq_of_lt h

/-- A value below `2^CNTW` is kept by the frame counter. -/
theorem toNat_ofNat_cntW {n : Nat} (h : n < 16777216) : (BitVec.ofNat Config.cntW n).toNat = n :=
  Nat.mod_eq_of_lt h

/-! ## Answering a packet (R102, R236) -/

@[simp] theorem respond_left (p : Port) (r : Response) (s : State) :
    (respond p r s).left = s.left := by
  cases p <;> rfl

@[simp] theorem respond_right (p : Port) (r : Response) (s : State) :
    (respond p r s).right = s.right := by
  cases p <;> rfl

@[simp] theorem respond_conf (p : Port) (r : Response) (s : State) :
    (respond p r s).conf = s.conf := by
  cases p <;> rfl

@[simp] theorem respond_params (p : Port) (r : Response) (s : State) :
    (respond p r s).params = s.params := by
  cases p <;> rfl

@[simp] theorem respond_latch (p : Port) (r : Response) (s : State) :
    (respond p r s).latch = s.latch := by
  cases p <;> rfl

@[simp] theorem respond_fc (p : Port) (r : Response) (s : State) : (respond p r s).fc = s.fc := by
  cases p <;> rfl

@[simp] theorem respond_io0 (p : Port) (r : Response) (s : State) :
    (respond p r s).io0 = s.io0 := by
  cases p <;> rfl

@[simp] theorem respond_io1 (p : Port) (r : Response) (s : State) :
    (respond p r s).io1 = s.io1 := by
  cases p <;> rfl

@[simp] theorem respond_portA (p : Port) (r : Response) (s : State) :
    (respond p r s).portA = s.portA := by
  cases p <;> rfl

@[simp] theorem respond_portB (p : Port) (r : Response) (s : State) :
    (respond p r s).portB = s.portB := by
  cases p <;> rfl

@[simp] theorem respond_wireB (p : Port) (r : Response) (s : State) :
    (respond p r s).wireB = s.wireB := by
  cases p <;> rfl

@[simp] theorem respond_draws (p : Port) (r : Response) (s : State) :
    (respond p r s).draws = s.draws := by
  cases p <;> rfl

@[simp] theorem respond_A_rspA (r : Response) (s : State) :
    (respond .A r s).rspA = s.rspA ++ [responseWord r] := rfl

@[simp] theorem respond_A_rspB (r : Response) (s : State) : (respond .A r s).rspB = s.rspB := rfl

@[simp] theorem respond_B_rspA (r : Response) (s : State) : (respond .B r s).rspA = s.rspA := rfl

@[simp] theorem respond_B_rspB (r : Response) (s : State) :
    (respond .B r s).rspB = s.rspB ++ [responseWord r] := rfl

/-- Taking an error is answering with its code, and nothing else (R236). -/
theorem raiseError_eq (p : Port) (e : Response) (s : State) : raiseError p e s = respond p e s := rfl

/-! ## writeDrywet (R190) -/

@[simp] theorem writeDrywet_left (v : F64) (s : State) : (writeDrywet v s).left = s.left := rfl

@[simp] theorem writeDrywet_right (v : F64) (s : State) : (writeDrywet v s).right = s.right := rfl

@[simp] theorem writeDrywet_conf (v : F64) (s : State) : (writeDrywet v s).conf = s.conf := rfl

@[simp] theorem writeDrywet_latch (v : F64) (s : State) : (writeDrywet v s).latch = s.latch := rfl

@[simp] theorem writeDrywet_fc (v : F64) (s : State) : (writeDrywet v s).fc = s.fc := rfl

@[simp] theorem writeDrywet_io0 (v : F64) (s : State) : (writeDrywet v s).io0 = s.io0 := rfl

@[simp] theorem writeDrywet_io1 (v : F64) (s : State) : (writeDrywet v s).io1 = s.io1 := rfl

@[simp] theorem writeDrywet_portA (v : F64) (s : State) : (writeDrywet v s).portA = s.portA := rfl

@[simp] theorem writeDrywet_portB (v : F64) (s : State) : (writeDrywet v s).portB = s.portB := rfl

@[simp] theorem writeDrywet_wireB (v : F64) (s : State) : (writeDrywet v s).wireB = s.wireB := rfl

@[simp] theorem writeDrywet_rspA (v : F64) (s : State) : (writeDrywet v s).rspA = s.rspA := rfl

@[simp] theorem writeDrywet_rspB (v : F64) (s : State) : (writeDrywet v s).rspB = s.rspB := rfl

@[simp] theorem writeDrywet_draws (v : F64) (s : State) : (writeDrywet v s).draws = s.draws := rfl

@[simp] theorem writeDrywet_params_drywet (v : F64) (s : State) :
    (writeDrywet v s).params.drywet = drywetOperand v := rfl

@[simp] theorem writeDrywet_params_feedback (v : F64) (s : State) :
    (writeDrywet v s).params.feedback = s.params.feedback := rfl

@[simp] theorem writeDrywet_params_dtl (v : F64) (s : State) :
    (writeDrywet v s).params.dtl = s.params.dtl := rfl

@[simp] theorem writeDrywet_params_dtr (v : F64) (s : State) :
    (writeDrywet v s).params.dtr = s.params.dtr := rfl

@[simp] theorem writeDrywet_params_pingpong (v : F64) (s : State) :
    (writeDrywet v s).params.pingpong = s.params.pingpong := rfl

/-! ## writeFeedback (R190) -/

@[simp] theorem writeFeedback_left (v : F64) (s : State) : (writeFeedback v s).left = s.left := rfl

@[simp] theorem writeFeedback_right (v : F64) (s : State) :
    (writeFeedback v s).right = s.right := rfl

@[simp] theorem writeFeedback_conf (v : F64) (s : State) : (writeFeedback v s).conf = s.conf := rfl

@[simp] theorem writeFeedback_latch (v : F64) (s : State) :
    (writeFeedback v s).latch = s.latch := rfl

@[simp] theorem writeFeedback_fc (v : F64) (s : State) : (writeFeedback v s).fc = s.fc := rfl

@[simp] theorem writeFeedback_io0 (v : F64) (s : State) : (writeFeedback v s).io0 = s.io0 := rfl

@[simp] theorem writeFeedback_io1 (v : F64) (s : State) : (writeFeedback v s).io1 = s.io1 := rfl

@[simp] theorem writeFeedback_portA (v : F64) (s : State) :
    (writeFeedback v s).portA = s.portA := rfl

@[simp] theorem writeFeedback_portB (v : F64) (s : State) :
    (writeFeedback v s).portB = s.portB := rfl

@[simp] theorem writeFeedback_wireB (v : F64) (s : State) :
    (writeFeedback v s).wireB = s.wireB := rfl

@[simp] theorem writeFeedback_rspA (v : F64) (s : State) : (writeFeedback v s).rspA = s.rspA := rfl

@[simp] theorem writeFeedback_rspB (v : F64) (s : State) : (writeFeedback v s).rspB = s.rspB := rfl

@[simp] theorem writeFeedback_draws (v : F64) (s : State) :
    (writeFeedback v s).draws = s.draws := rfl

@[simp] theorem writeFeedback_params_drywet (v : F64) (s : State) :
    (writeFeedback v s).params.drywet = s.params.drywet := rfl

@[simp] theorem writeFeedback_params_feedback (v : F64) (s : State) :
    (writeFeedback v s).params.feedback = feedbackOperand v := rfl

@[simp] theorem writeFeedback_params_dtl (v : F64) (s : State) :
    (writeFeedback v s).params.dtl = s.params.dtl := rfl

@[simp] theorem writeFeedback_params_dtr (v : F64) (s : State) :
    (writeFeedback v s).params.dtr = s.params.dtr := rfl

@[simp] theorem writeFeedback_params_pingpong (v : F64) (s : State) :
    (writeFeedback v s).params.pingpong = s.params.pingpong := rfl

/-! ## writeDtl (R190) -/

@[simp] theorem writeDtl_left (v : F64) (s : State) : (writeDtl v s).left = s.left := rfl

@[simp] theorem writeDtl_right (v : F64) (s : State) : (writeDtl v s).right = s.right := rfl

@[simp] theorem writeDtl_conf (v : F64) (s : State) : (writeDtl v s).conf = s.conf := rfl

@[simp] theorem writeDtl_latch (v : F64) (s : State) : (writeDtl v s).latch = s.latch := rfl

@[simp] theorem writeDtl_fc (v : F64) (s : State) : (writeDtl v s).fc = s.fc := rfl

@[simp] theorem writeDtl_io0 (v : F64) (s : State) : (writeDtl v s).io0 = s.io0 := rfl

@[simp] theorem writeDtl_io1 (v : F64) (s : State) : (writeDtl v s).io1 = s.io1 := rfl

@[simp] theorem writeDtl_portA (v : F64) (s : State) : (writeDtl v s).portA = s.portA := rfl

@[simp] theorem writeDtl_portB (v : F64) (s : State) : (writeDtl v s).portB = s.portB := rfl

@[simp] theorem writeDtl_wireB (v : F64) (s : State) : (writeDtl v s).wireB = s.wireB := rfl

@[simp] theorem writeDtl_rspA (v : F64) (s : State) : (writeDtl v s).rspA = s.rspA := rfl

@[simp] theorem writeDtl_rspB (v : F64) (s : State) : (writeDtl v s).rspB = s.rspB := rfl

@[simp] theorem writeDtl_draws (v : F64) (s : State) : (writeDtl v s).draws = s.draws := rfl

@[simp] theorem writeDtl_params_drywet (v : F64) (s : State) :
    (writeDtl v s).params.drywet = s.params.drywet := rfl

@[simp] theorem writeDtl_params_feedback (v : F64) (s : State) :
    (writeDtl v s).params.feedback = s.params.feedback := rfl

@[simp] theorem writeDtl_params_dtl (v : F64) (s : State) :
    (writeDtl v s).params.dtl = delayOperand s.conf v := rfl

@[simp] theorem writeDtl_params_dtr (v : F64) (s : State) :
    (writeDtl v s).params.dtr = s.params.dtr := rfl

@[simp] theorem writeDtl_params_pingpong (v : F64) (s : State) :
    (writeDtl v s).params.pingpong = s.params.pingpong := rfl

/-! ## writeDtr (R190) -/

@[simp] theorem writeDtr_left (v : F64) (s : State) : (writeDtr v s).left = s.left := rfl

@[simp] theorem writeDtr_right (v : F64) (s : State) : (writeDtr v s).right = s.right := rfl

@[simp] theorem writeDtr_conf (v : F64) (s : State) : (writeDtr v s).conf = s.conf := rfl

@[simp] theorem writeDtr_latch (v : F64) (s : State) : (writeDtr v s).latch = s.latch := rfl

@[simp] theorem writeDtr_fc (v : F64) (s : State) : (writeDtr v s).fc = s.fc := rfl

@[simp] theorem writeDtr_io0 (v : F64) (s : State) : (writeDtr v s).io0 = s.io0 := rfl

@[simp] theorem writeDtr_io1 (v : F64) (s : State) : (writeDtr v s).io1 = s.io1 := rfl

@[simp] theorem writeDtr_portA (v : F64) (s : State) : (writeDtr v s).portA = s.portA := rfl

@[simp] theorem writeDtr_portB (v : F64) (s : State) : (writeDtr v s).portB = s.portB := rfl

@[simp] theorem writeDtr_wireB (v : F64) (s : State) : (writeDtr v s).wireB = s.wireB := rfl

@[simp] theorem writeDtr_rspA (v : F64) (s : State) : (writeDtr v s).rspA = s.rspA := rfl

@[simp] theorem writeDtr_rspB (v : F64) (s : State) : (writeDtr v s).rspB = s.rspB := rfl

@[simp] theorem writeDtr_draws (v : F64) (s : State) : (writeDtr v s).draws = s.draws := rfl

@[simp] theorem writeDtr_params_drywet (v : F64) (s : State) :
    (writeDtr v s).params.drywet = s.params.drywet := rfl

@[simp] theorem writeDtr_params_feedback (v : F64) (s : State) :
    (writeDtr v s).params.feedback = s.params.feedback := rfl

@[simp] theorem writeDtr_params_dtl (v : F64) (s : State) :
    (writeDtr v s).params.dtl = s.params.dtl := rfl

@[simp] theorem writeDtr_params_dtr (v : F64) (s : State) :
    (writeDtr v s).params.dtr = delayOperand s.conf v := rfl

@[simp] theorem writeDtr_params_pingpong (v : F64) (s : State) :
    (writeDtr v s).params.pingpong = s.params.pingpong := rfl

/-! ## writePingpong (R190) -/

@[simp] theorem writePingpong_left (v : BitVec 64) (s : State) :
    (writePingpong v s).left = s.left := rfl

@[simp] theorem writePingpong_right (v : BitVec 64) (s : State) :
    (writePingpong v s).right = s.right := rfl

@[simp] theorem writePingpong_conf (v : BitVec 64) (s : State) :
    (writePingpong v s).conf = s.conf := rfl

@[simp] theorem writePingpong_latch (v : BitVec 64) (s : State) :
    (writePingpong v s).latch = s.latch := rfl

@[simp] theorem writePingpong_fc (v : BitVec 64) (s : State) : (writePingpong v s).fc = s.fc := rfl

@[simp] theorem writePingpong_io0 (v : BitVec 64) (s : State) :
    (writePingpong v s).io0 = s.io0 := rfl

@[simp] theorem writePingpong_io1 (v : BitVec 64) (s : State) :
    (writePingpong v s).io1 = s.io1 := rfl

@[simp] theorem writePingpong_portA (v : BitVec 64) (s : State) :
    (writePingpong v s).portA = s.portA := rfl

@[simp] theorem writePingpong_portB (v : BitVec 64) (s : State) :
    (writePingpong v s).portB = s.portB := rfl

@[simp] theorem writePingpong_wireB (v : BitVec 64) (s : State) :
    (writePingpong v s).wireB = s.wireB := rfl

@[simp] theorem writePingpong_rspA (v : BitVec 64) (s : State) :
    (writePingpong v s).rspA = s.rspA := rfl

@[simp] theorem writePingpong_rspB (v : BitVec 64) (s : State) :
    (writePingpong v s).rspB = s.rspB := rfl

@[simp] theorem writePingpong_draws (v : BitVec 64) (s : State) :
    (writePingpong v s).draws = s.draws := rfl

@[simp] theorem writePingpong_params_drywet (v : BitVec 64) (s : State) :
    (writePingpong v s).params.drywet = s.params.drywet := rfl

@[simp] theorem writePingpong_params_feedback (v : BitVec 64) (s : State) :
    (writePingpong v s).params.feedback = s.params.feedback := rfl

@[simp] theorem writePingpong_params_dtl (v : BitVec 64) (s : State) :
    (writePingpong v s).params.dtl = s.params.dtl := rfl

@[simp] theorem writePingpong_params_dtr (v : BitVec 64) (s : State) :
    (writePingpong v s).params.dtr = s.params.dtr := rfl

@[simp] theorem writePingpong_params_pingpong (v : BitVec 64) (s : State) :
    (writePingpong v s).params.pingpong = pingpongOperand v := rfl

/-! ## The commit of CONFIGURE (R120, R128, R132) -/

@[simp] theorem configureCommit_left (sr md : F64) (n : Nat) (s : State) :
    (configureCommit sr md n s).left = clearedChannel (clamp binary64 s.params.dtl Config.dtMin md) := rfl

@[simp] theorem configureCommit_right (sr md : F64) (n : Nat) (s : State) :
    (configureCommit sr md n s).right = clearedChannel (clamp binary64 s.params.dtr Config.dtMin md) := rfl

@[simp] theorem configureCommit_conf (sr md : F64) (n : Nat) (s : State) :
    (configureCommit sr md n s).conf = { sr := sr, maxd := md, len := BitVec.ofNat Config.lenW n, cfg := true } := rfl

@[simp] theorem configureCommit_params_drywet (sr md : F64) (n : Nat) (s : State) :
    (configureCommit sr md n s).params.drywet = s.params.drywet := rfl

@[simp] theorem configureCommit_params_feedback (sr md : F64) (n : Nat) (s : State) :
    (configureCommit sr md n s).params.feedback = s.params.feedback := rfl

@[simp] theorem configureCommit_params_dtl (sr md : F64) (n : Nat) (s : State) :
    (configureCommit sr md n s).params.dtl = clamp binary64 s.params.dtl Config.dtMin md := rfl

@[simp] theorem configureCommit_params_dtr (sr md : F64) (n : Nat) (s : State) :
    (configureCommit sr md n s).params.dtr = clamp binary64 s.params.dtr Config.dtMin md := rfl

@[simp] theorem configureCommit_params_pingpong (sr md : F64) (n : Nat) (s : State) :
    (configureCommit sr md n s).params.pingpong = s.params.pingpong := rfl

@[simp] theorem configureCommit_latch (sr md : F64) (n : Nat) (s : State) :
    (configureCommit sr md n s).latch = s.latch := rfl

@[simp] theorem configureCommit_fc (sr md : F64) (n : Nat) (s : State) :
    (configureCommit sr md n s).fc = s.fc := rfl

@[simp] theorem configureCommit_io0 (sr md : F64) (n : Nat) (s : State) :
    (configureCommit sr md n s).io0 = s.io0 := rfl

@[simp] theorem configureCommit_io1 (sr md : F64) (n : Nat) (s : State) :
    (configureCommit sr md n s).io1 = s.io1 := rfl

@[simp] theorem configureCommit_portA (sr md : F64) (n : Nat) (s : State) :
    (configureCommit sr md n s).portA = s.portA := rfl

@[simp] theorem configureCommit_portB (sr md : F64) (n : Nat) (s : State) :
    (configureCommit sr md n s).portB = s.portB := rfl

@[simp] theorem configureCommit_wireB (sr md : F64) (n : Nat) (s : State) :
    (configureCommit sr md n s).wireB = s.wireB := rfl

@[simp] theorem configureCommit_rspA (sr md : F64) (n : Nat) (s : State) :
    (configureCommit sr md n s).rspA = s.rspA := rfl

@[simp] theorem configureCommit_rspB (sr md : F64) (n : Nat) (s : State) :
    (configureCommit sr md n s).rspB = s.rspB := rfl

@[simp] theorem configureCommit_draws (sr md : F64) (n : Nat) (s : State) :
    (configureCommit sr md n s).draws = s.draws := rfl

/-! ## Words arriving on port B (R70) -/

@[simp] theorem receiveB_left (s : State) : (receiveB s).left = s.left := rfl

@[simp] theorem receiveB_right (s : State) : (receiveB s).right = s.right := rfl

@[simp] theorem receiveB_conf (s : State) : (receiveB s).conf = s.conf := rfl

@[simp] theorem receiveB_params (s : State) : (receiveB s).params = s.params := rfl

@[simp] theorem receiveB_latch (s : State) : (receiveB s).latch = s.latch := rfl

@[simp] theorem receiveB_fc (s : State) : (receiveB s).fc = s.fc := rfl

@[simp] theorem receiveB_io0 (s : State) : (receiveB s).io0 = s.io0 := rfl

@[simp] theorem receiveB_io1 (s : State) : (receiveB s).io1 = s.io1 := rfl

@[simp] theorem receiveB_portA (s : State) : (receiveB s).portA = s.portA := rfl

@[simp] theorem receiveB_portB (s : State) :
    (receiveB s).portB = s.portB ++ (arrive s.wireB).1 := rfl

@[simp] theorem receiveB_wireB (s : State) : (receiveB s).wireB = (arrive s.wireB).2 := rfl

@[simp] theorem receiveB_rspA (s : State) : (receiveB s).rspA = s.rspA := rfl

@[simp] theorem receiveB_rspB (s : State) : (receiveB s).rspB = s.rspB := rfl

@[simp] theorem receiveB_draws (s : State) : (receiveB s).draws = s.draws := rfl

/-! ## The rest of a frame (R171) -/

@[simp] theorem frameBody_conf (i : Nat) (s : State) : (frameBody i s).conf = s.conf := rfl

@[simp] theorem frameBody_params (i : Nat) (s : State) : (frameBody i s).params = s.params := rfl

@[simp] theorem frameBody_latch (i : Nat) (s : State) : (frameBody i s).latch = s.latch := rfl

@[simp] theorem frameBody_fc (i : Nat) (s : State) : (frameBody i s).fc = s.fc := rfl

@[simp] theorem frameBody_portA (i : Nat) (s : State) : (frameBody i s).portA = s.portA := rfl

@[simp] theorem frameBody_portB (i : Nat) (s : State) : (frameBody i s).portB = s.portB := rfl

@[simp] theorem frameBody_wireB (i : Nat) (s : State) : (frameBody i s).wireB = s.wireB := rfl

@[simp] theorem frameBody_rspA (i : Nat) (s : State) : (frameBody i s).rspA = s.rspA := rfl

@[simp] theorem frameBody_rspB (i : Nat) (s : State) : (frameBody i s).rspB = s.rspB := rfl

@[simp] theorem frameBody_draws (i : Nat) (s : State) : (frameBody i s).draws = s.draws + 1 := rfl

end Sys2Proof.Machine
end

