-- ==== Sys2Proof/Laws/Ports.lean ====
section
/-! SUPPORT. What the control-port writer can do (R70 to R72, R103): a slot changes parameter
registers, port B's words and port B's answers, and nothing else. -/

namespace Sys2Proof.Machine

/-- Everything but the parameter registers and port B is the same. -/
structure SameButPortB (s t : State) : Prop where
  left : t.left = s.left
  right : t.right = s.right
  conf : t.conf = s.conf
  latch : t.latch = s.latch
  fc : t.fc = s.fc
  io0 : t.io0 = s.io0
  io1 : t.io1 = s.io1
  portA : t.portA = s.portA
  rspA : t.rspA = s.rspA
  draws : t.draws = s.draws

theorem SameButPortB.refl (s : State) : SameButPortB s s :=
  ⟨rfl, rfl, rfl, rfl, rfl, rfl, rfl, rfl, rfl, rfl⟩

theorem SameButPortB.trans {s t u : State} (h : SameButPortB s t) (k : SameButPortB t u) :
    SameButPortB s u :=
  ⟨k.left.trans h.left, k.right.trans h.right, k.conf.trans h.conf, k.latch.trans h.latch,
    k.fc.trans h.fc, k.io0.trans h.io0, k.io1.trans h.io1, k.portA.trans h.portA,
    k.rspA.trans h.rspA, k.draws.trans h.draws⟩

theorem controlWrite_sameButPortB (i : Instr) (s : State) : SameButPortB s (controlWrite i s) := by
  cases i <;> exact ⟨rfl, rfl, rfl, rfl, rfl, rfl, rfl, rfl, rfl, rfl⟩

theorem servePacketB_sameButPortB (p : Packet) (s : State) : SameButPortB s (servePacketB p s) := by
  unfold servePacketB
  split
  · exact controlWrite_sameButPortB _ s
  · exact ⟨rfl, rfl, rfl, rfl, rfl, rfl, rfl, rfl, rfl, rfl⟩

theorem servePortB_sameButPortB (fuel : Nat) (s : State) : SameButPortB s (servePortB fuel s) := by
  induction fuel generalizing s with
  | zero => exact .refl s
  | succ fuel ih =>
    simp only [servePortB]
    split
    · rename_i p rest _
      have h : SameButPortB s { s with portB := rest } :=
        ⟨rfl, rfl, rfl, rfl, rfl, rfl, rfl, rfl, rfl, rfl⟩
      exact (h.trans (servePacketB_sameButPortB p _)).trans (ih _)
    · exact .refl s
    · exact .refl s

/-- A slot changes parameter registers, port B's words and its answers only. -/
theorem slot_sameButPortB (s : State) : SameButPortB s (slot s) :=
  SameButPortB.trans (t := receiveB s) ⟨rfl, rfl, rfl, rfl, rfl, rfl, rfl, rfl, rfl, rfl⟩
    (servePortB_sameButPortB (receiveB s).portB.length (receiveB s))

@[simp] theorem slot_left (s : State) : (slot s).left = s.left := (slot_sameButPortB s).left
@[simp] theorem slot_right (s : State) : (slot s).right = s.right := (slot_sameButPortB s).right
@[simp] theorem slot_conf (s : State) : (slot s).conf = s.conf := (slot_sameButPortB s).conf
@[simp] theorem slot_latch (s : State) : (slot s).latch = s.latch := (slot_sameButPortB s).latch
@[simp] theorem slot_fc (s : State) : (slot s).fc = s.fc := (slot_sameButPortB s).fc
@[simp] theorem slot_io0 (s : State) : (slot s).io0 = s.io0 := (slot_sameButPortB s).io0
@[simp] theorem slot_io1 (s : State) : (slot s).io1 = s.io1 := (slot_sameButPortB s).io1
@[simp] theorem slot_portA (s : State) : (slot s).portA = s.portA := (slot_sameButPortB s).portA
@[simp] theorem slot_rspA (s : State) : (slot s).rspA = s.rspA := (slot_sameButPortB s).rspA
@[simp] theorem slot_draws (s : State) : (slot s).draws = s.draws := (slot_sameButPortB s).draws

/-- With no port-B traffic a slot does nothing. -/
theorem slot_quiet {s : State} (hp : s.portB = []) (hw : s.wireB = []) : slot s = s := by
  cases s
  simp only at hp hw
  subst hp hw
  rfl

/-! ## Properties that every register write of SETPARAM keeps, every slot keeps -/

/-- What every SETPARAM on port B keeps, and what does not look at port B, a slot keeps. -/
theorem slot_keeps (P : State → Prop)
    (hwrite : ∀ i s, P s → P (controlWrite i s))
    (hraise : ∀ s, P s → P (raiseError .B .illegalCommand s))
    (hports : ∀ s pb wb, P s → P { s with portB := pb, wireB := wb })
    (s : State) (h : P s) : P (slot s) := by
  have serve : ∀ fuel s, P s → P (servePortB fuel s) := by
    intro fuel
    induction fuel with
    | zero => exact fun s h => h
    | succ fuel ih =>
      intro s h
      simp only [servePortB]
      split
      · refine ih _ ?_
        unfold servePacketB
        split
        · exact hwrite _ _ (hports s _ s.wireB h)
        · exact hraise _ (hports s _ s.wireB h)
      · exact h
      · exact h
  exact serve _ _ (hports s _ _ h)

end Sys2Proof.Machine
end

