-- ==== Sys2Proof/Laws/Frames.lean ====
section
/-! SUPPORT. What the latch, one frame and a block of frames can do (R170 to R172). -/

namespace Sys2Proof.Machine

/-! ## The latch (R172) -/

/-- Everything but the latches, the parameter registers and port B is the same. -/
structure SameButLatch (s t : State) : Prop where
  left : t.left = s.left
  right : t.right = s.right
  conf : t.conf = s.conf
  fc : t.fc = s.fc
  io0 : t.io0 = s.io0
  io1 : t.io1 = s.io1
  portA : t.portA = s.portA
  rspA : t.rspA = s.rspA
  draws : t.draws = s.draws

theorem SameButLatch.trans {s t u : State} (h : SameButLatch s t) (k : SameButLatch t u) :
    SameButLatch s u :=
  ⟨k.left.trans h.left, k.right.trans h.right, k.conf.trans h.conf, k.fc.trans h.fc,
    k.io0.trans h.io0, k.io1.trans h.io1, k.portA.trans h.portA, k.rspA.trans h.rspA,
    k.draws.trans h.draws⟩

theorem latchRead_sameButLatch (f : Params → Latches F64 → Latches F64) (s : State) :
    SameButLatch s (latchRead f s) :=
  let h := slot_sameButPortB s
  ⟨h.left, h.right, h.conf, h.fc, h.io0, h.io1, h.portA, h.rspA, h.draws⟩

theorem latchDrywet_sameButLatch (s : State) : SameButLatch s (latchDrywet s) :=
  latchRead_sameButLatch _ s

theorem latchFeedback_sameButLatch (s : State) : SameButLatch s (latchFeedback s) :=
  latchRead_sameButLatch _ s

theorem latchDtl_sameButLatch (s : State) : SameButLatch s (latchDtl s) :=
  latchRead_sameButLatch _ s

theorem latchDtr_sameButLatch (s : State) : SameButLatch s (latchDtr s) :=
  latchRead_sameButLatch _ s

theorem latchPingpong_sameButLatch (s : State) : SameButLatch s (latchPingpong s) :=
  latchRead_sameButLatch _ s

/-- The latch changes latches, parameter registers (by port B) and port B only. -/
theorem latchParams_sameButLatch (s : State) : SameButLatch s (latchParams s) := by
  unfold latchParams
  have h1 := latchDrywet_sameButLatch s
  generalize latchDrywet s = s1 at h1 ⊢
  have h2 := h1.trans (latchFeedback_sameButLatch s1)
  generalize latchFeedback s1 = s2 at h2 ⊢
  have h3 := h2.trans (latchDtl_sameButLatch s2)
  generalize latchDtl s2 = s3 at h3 ⊢
  have h4 := h3.trans (latchDtr_sameButLatch s3)
  generalize latchDtr s3 = s4 at h4 ⊢
  exact h4.trans (latchPingpong_sameButLatch s4)

@[simp] theorem latchParams_left (s : State) : (latchParams s).left = s.left :=
  (latchParams_sameButLatch s).left

@[simp] theorem latchParams_right (s : State) : (latchParams s).right = s.right :=
  (latchParams_sameButLatch s).right

@[simp] theorem latchParams_conf (s : State) : (latchParams s).conf = s.conf :=
  (latchParams_sameButLatch s).conf

@[simp] theorem latchParams_fc (s : State) : (latchParams s).fc = s.fc :=
  (latchParams_sameButLatch s).fc

@[simp] theorem latchParams_io0 (s : State) : (latchParams s).io0 = s.io0 :=
  (latchParams_sameButLatch s).io0

@[simp] theorem latchParams_io1 (s : State) : (latchParams s).io1 = s.io1 :=
  (latchParams_sameButLatch s).io1

@[simp] theorem latchParams_portA (s : State) : (latchParams s).portA = s.portA :=
  (latchParams_sameButLatch s).portA

@[simp] theorem latchParams_rspA (s : State) : (latchParams s).rspA = s.rspA :=
  (latchParams_sameButLatch s).rspA

@[simp] theorem latchParams_draws (s : State) : (latchParams s).draws = s.draws :=
  (latchParams_sameButLatch s).draws

/-- What a slot keeps, and what does not look at the latches, the latch keeps. -/
theorem latchParams_keeps (P : State → Prop) (hslot : ∀ s, P s → P (slot s))
    (hset : ∀ f s, P s → P (setLatch f s)) (s : State) (h : P s) : P (latchParams s) := by
  have read : ∀ f s, P s → P (latchRead f s) := fun f s h => hset f (slot s) (hslot s h)
  unfold latchParams
  have h1 : P (latchDrywet s) := read _ s h
  generalize latchDrywet s = s1 at h1 ⊢
  have h2 : P (latchFeedback s1) := read _ s1 h1
  generalize latchFeedback s1 = s2 at h2 ⊢
  have h3 : P (latchDtl s2) := read _ s2 h2
  generalize latchDtl s2 = s3 at h3 ⊢
  have h4 : P (latchDtr s3) := read _ s3 h3
  generalize latchDtr s3 = s4 at h4 ⊢
  exact read _ s4 h4

/-- With no port-B traffic one latch read sets its latch and does nothing else. -/
theorem latchRead_quiet (f : Params → Latches F64 → Latches F64) {s : State}
    (hp : s.portB = []) (hw : s.wireB = []) : latchRead f s = setLatch f s := by
  rw [latchRead, slot_quiet hp hw]

/-- With no port-B traffic the latches take the five registers as they stand. -/
theorem latchParams_quiet {s : State} (hp : s.portB = []) (hw : s.wireB = []) :
    latchParams s =
      { s with
        latch := ⟨s.params.drywet, s.params.feedback, s.params.dtl, s.params.dtr,
          s.params.pingpong⟩ } := by
  unfold latchParams latchPingpong latchDtr latchDtl latchFeedback latchDrywet
  rw [latchRead_quiet _ hp hw]
  rw [latchRead_quiet (s := setLatch _ s) _ hp hw]
  rw [latchRead_quiet (s := setLatch _ (setLatch _ s)) _ hp hw]
  rw [latchRead_quiet (s := setLatch _ (setLatch _ (setLatch _ s))) _ hp hw]
  rw [latchRead_quiet (s := setLatch _ (setLatch _ (setLatch _ (setLatch _ s)))) _ hp hw]
  rfl

/-! ## One frame (R171) -/

/-- A frame that answers a state has its index and its heads in range, and that state is the frame's body
after the latch. -/
theorem frame_ok {i : Nat} {s t : State} (h : frame i s = .ok t) :
    i < Config.ioLen ∧ s.headsInRange = true ∧ t = frameBody i (latchParams s) := by
  unfold frame at h
  split at h
  · cases h
  · split at h
    · cases h
    · rename_i h1 h2
      injection h with h
      exact ⟨by omega, by simpa using h2, h.symm⟩

/-- With its index and its heads in range a frame answers a state. -/
theorem frame_of_inRange {i : Nat} {s : State} (hi : i < Config.ioLen)
    (hh : s.headsInRange = true) : frame i s = .ok (frameBody i (latchParams s)) := by
  unfold frame
  rw [if_neg (by omega), if_neg (by simp [hh])]

/-! ## A block of frames (R170) -/

theorem frames_zero (i : Nat) (s : State) :
    frames 0 i s = .ok { s with fc := BitVec.ofNat Config.cntW i } := rfl

/-- A block that answers a state begins with a frame that does. -/
theorem frames_succ_ok {k i : Nat} {s t : State} (h : frames (k + 1) i s = .ok t) :
    ∃ u, frame i { s with fc := BitVec.ofNat Config.cntW i } = .ok u ∧ frames k (i + 1) u = .ok t := by
  simp only [frames] at h
  split at h
  · exact ⟨_, by assumption, h⟩
  · cases h

/-- Induction over the frames of a block: what setting `FC` and every frame keep, the block keeps. -/
theorem frames_keeps (P : State → Prop)
    (hfc : ∀ s f, P s → P { s with fc := f })
    (hframe : ∀ i s, i < Config.ioLen → s.headsInRange = true → P s →
      P (frameBody i (latchParams s)))
    {k i : Nat} {s t : State} (h : frames k i s = .ok t) (hs : P s) : P t := by
  induction k generalizing i s with
  | zero =>
    injection h with h
    exact h ▸ hfc s _ hs
  | succ k ih =>
    obtain ⟨u, hu, hrest⟩ := frames_succ_ok h
    obtain ⟨hi, hh, rfl⟩ := frame_ok hu
    exact ih hrest (hframe i _ hi hh (hfc s _ hs))

/-- Two blocks of frames in a row are one (the index goes on). -/
theorem frames_add (a b i : Nat) (s : State) :
    frames (a + b) i s =
      match frames a i s with
      | .ok t => frames b (i + a) t
      | .error e => .error e := by
  induction a generalizing i s with
  | zero =>
    simp only [Nat.zero_add, frames_zero, Nat.add_zero]
    cases b <;> rfl
  | succ a ih =>
    rw [show a + 1 + b = (a + b) + 1 by omega]
    simp only [frames]
    cases frame i { s with fc := BitVec.ofNat Config.cntW i } with
    | ok u =>
      dsimp only
      rw [ih, show i + 1 + a = i + (a + 1) by omega]
    | error e => rfl

/-! ## What one PROCESS_SAMPLE leaves alone -/

section
variable {α : Type} [DecidableEq α]

/-- `FB[c]` is not written by PROCESS_SAMPLE (R148). -/
@[simp] theorem processSample_fb (N : Numerics α) (k : Nat) (c : Chan) (sr : α) (len : Nat)
    (target fbc xin : α) (ch : Channel α) :
    (processSample N k c sr len target fbc xin ch).chan.fb = ch.fb := rfl

@[simp] theorem processSample_wh (N : Numerics α) (k : Nat) (c : Chan) (sr : α) (len : Nat)
    (target fbc xin : α) (ch : Channel α) :
    (processSample N k c sr len target fbc xin ch).chan.wh = advanceHead ch.wh len := rfl

@[simp] theorem processSample_sm (N : Numerics α) (k : Nat) (c : Chan) (sr : α) (len : Nat)
    (target fbc xin : α) (ch : Channel α) :
    (processSample N k c sr len target fbc xin ch).chan.sm = smoothStep N k c ch.sm target := rfl

@[simp] theorem processSample_buf (N : Numerics α) (k : Nat) (c : Chan) (sr : α) (len : Nat)
    (target fbc xin : α) (ch : Channel α) :
    (processSample N k c sr len target fbc xin ch).chan.buf =
      Memory.write N.zero ch.buf ch.wh.toNat (writeValue N k c xin ch.fb) := rfl

omit [DecidableEq α] in
/-- The commit changes the two feedback registers only (R173). -/
theorem commitFeedback_eq (lpp : Bool) (f0 f1 : α) (l r : Channel α) :
    commitFeedback lpp f0 f1 l r =
      ({ l with fb := if lpp then f1 else f0 }, { r with fb := if lpp then f0 else f1 }) := by
  cases lpp <;> rfl

end

end Sys2Proof.Machine
end

