-- ==== Sys2Proof/Laws/Exec.lean ====
section
/-! SUPPORT. What each command can do, once: if it answers a next state, which one. Later proofs cite
these and do not unfold the meanings. -/

namespace Sys2Proof.Machine

/-- CONFIGURE answers in every state: InvalidConfiguration and nothing else, or the commit (R130). -/
theorem execConfigure_cases (sr md : F64) (s : State) :
    (configureLength binary64 ⟨s.draws, .configure⟩ sr md = none ∧
      execConfigure sr md s = .next (raiseError .A .invalidConfiguration s)) ∨
    ∃ n, configureLength binary64 ⟨s.draws, .configure⟩ sr md = some n ∧
      execConfigure sr md s = .next (respond .A .ok (configureCommit sr md n s)) := by
  unfold execConfigure
  cases configureLength binary64 ⟨s.draws, .configure⟩ sr md with
  | none => exact .inl ⟨rfl, rfl⟩
  | some n => exact .inr ⟨n, rfl, rfl⟩

/-- A length CONFIGURE accepts is at least 1 and at most `LEN_MAX` (R122). -/
theorem configureLength_bounds {α : Type} {N : Numerics α} {d : Config.Draw} {sr md : α} {n : Nat}
    (h : configureLength N d sr md = some n) : 1 ≤ n ∧ n ≤ Config.lenMax := by
  unfold configureLength at h
  split at h
  · cases h
  · split at h
    · cases h
    · dsimp only at h
      split at h
      · cases h
      · split at h
        · cases h
        · rename_i hn
          rw [not_or] at hn
          injection h with h
          omega

/-- PROCESS: NotConfigured and nothing else; or its frames, answered OK; or a frame's fault. -/
theorem execProcess_cases (n : Nat) (s : State) :
    (s.conf.cfg = false ∧ execProcess n s = .next (raiseError .A .notConfigured s)) ∨
    (s.conf.cfg = true ∧ ∃ t, frames n 0 s = .ok t ∧
      execProcess n s = .next (respond .A .ok t)) ∨
    (s.conf.cfg = true ∧ ∃ e, frames n 0 s = .error e ∧ execProcess n s = .fault e) := by
  unfold execProcess State.configured
  cases hc : s.conf.cfg with
  | false => exact .inl ⟨rfl, rfl⟩
  | true =>
    right
    cases hf : frames n 0 s with
    | ok t => exact .inl ⟨rfl, t, rfl, rfl⟩
    | error e => exact .inr ⟨rfl, e, rfl, rfl⟩

/-- What one step can be: a stop at a malformed stream, waiting, an illegal packet answered, or one
command executed on the state after the slot with its packet taken. -/
theorem step_cases (s : State) :
    (∃ p, step s = .refused (.malformedStream p)) ∨
    step s = .next (slot s) ∨
    (∃ p rest e, takePacket s.portA = .packet p rest ∧ decode .A p = .error e ∧
      step s = .next (raiseError .A .illegalCommand { slot s with portA := rest })) ∨
    (∃ p rest i, takePacket s.portA = .packet p rest ∧ decode .A p = .ok i ∧
      step s = exec i { slot s with portA := rest }) := by
  unfold step
  split
  · exact .inl ⟨.B, rfl⟩
  · unfold servePortA
    rw [slot_portA]
    split
    · exact .inr (.inl rfl)
    · exact .inl ⟨.A, rfl⟩
    · rename_i p rest hp
      unfold runPacketA
      split
      · rename_i i hi
        exact .inr (.inr (.inr ⟨p, rest, i, hp, hi, rfl⟩))
      · rename_i e he
        exact .inr (.inr (.inl ⟨p, rest, e, hp, he, rfl⟩))

/-- An invariant that every slot, taking a packet, every answer on port A and every command keep, every
step keeps. -/
theorem step_keeps (P : State → Prop)
    (hslot : ∀ s, P s → P (slot s))
    (hportA : ∀ s w, P s → P { s with portA := w })
    (hrespond : ∀ r s, P s → P (respond .A r s))
    (hexec : ∀ i s t, P s → exec i s = .next t → P t)
    {s t : State} (hs : P s) (h : step s = .next t) : P t := by
  rcases step_cases s with ⟨p, hp⟩ | hw | ⟨p, rest, e, -, -, he⟩ | ⟨p, rest, i, -, -, hi⟩
  · rw [hp] at h
    cases h
  · rw [hw] at h
    injection h with h
    exact h ▸ hslot s hs
  · rw [he] at h
    injection h with h
    exact h ▸ hrespond _ _ (hportA _ _ (hslot s hs))
  · rw [hi] at h
    exact hexec i _ t (hportA _ _ (hslot s hs)) h

end Sys2Proof.Machine
end

