-- ==== Sys2Proof/Laws/Host.lean ====
section
/-! SUPPORT. What the host's moves on the block memory can do (R60, R62, R75, R270), and that they keep the
canonical form of the memories. -/

namespace Sys2Proof.Machine

/-- A move on the block memory was the host's to make, inside the memory, and stored the samples. -/
theorem hostLoad_some {c : Chan} {i : Nat} {vs : List F64} {s t : State}
    (h : hostLoad c i vs s = some t) :
    s.portA = [] ∧ s.rspA = [] ∧ i + vs.length ≤ Config.ioLen ∧ t = storeSamples c i vs s := by
  unfold hostLoad at h
  split at h
  · rename_i hm
    simp only [hostMayTouch, hostOwnsIO, Bool.and_eq_true, List.isEmpty_iff, decide_eq_true_eq] at hm
    injection h with h
    exact ⟨hm.1.1, hm.1.2, hm.2, h.symm⟩
  · cases h

/-- Nor has the host a read of the block memory while a word or an answer of port A is outstanding. -/
theorem hostSamples_some {c : Chan} {i n : Nat} {s : State} {vs : List F64}
    (h : hostSamples c i n s = some vs) :
    s.portA = [] ∧ s.rspA = [] ∧ i + n ≤ Config.ioLen ∧
      vs = (List.range' i n).map (s.ioRead c) := by
  unfold hostSamples at h
  split at h
  · rename_i hm
    simp only [hostMayTouch, hostOwnsIO, Bool.and_eq_true, List.isEmpty_iff, decide_eq_true_eq] at hm
    injection h with h
    exact ⟨hm.1.1, hm.1.2, hm.2, h.symm⟩
  · cases h

/-- Stored samples change the block memory only. -/
theorem storeSamples_frame (c : Chan) (i : Nat) (vs : List F64) (s : State) :
    storeSamples c i vs s =
      { s with io0 := (storeSamples c i vs s).io0, io1 := (storeSamples c i vs s).io1 } := by
  induction vs generalizing i s with
  | nil => rfl
  | cons v vs ih => cases c <;> exact ih _ _

/-- Stored samples keep the memories canonical and inside their spaces. -/
theorem storeSamples_memoryOk {c : Chan} {i : Nat} {vs : List F64} {s : State}
    (hi : i + vs.length ≤ Config.ioLen) (h : s.memoryOk = true) :
    (storeSamples c i vs s).memoryOk = true := by
  induction vs generalizing i s with
  | nil => exact h
  | cons v vs ih =>
    have hlt : i < Config.ioLen := by rw [List.length_cons] at hi; omega
    have hrest : i + 1 + vs.length ≤ Config.ioLen := by rw [List.length_cons] at hi; omega
    simp only [State.memoryOk, Bool.and_eq_true] at h
    obtain ⟨⟨⟨⟨⟨⟨hl, hr⟩, h0⟩, h1⟩, w0⟩, w1⟩, hb⟩ := h
    cases c <;> refine ih hrest ?_ <;> simp only [State.memoryOk, Bool.and_eq_true]
    · exact ⟨⟨⟨⟨⟨⟨hl, hr⟩, memory_write_wf i v h0⟩, h1⟩, memory_write_within v w0 hlt⟩, w1⟩, hb⟩
    · exact ⟨⟨⟨⟨⟨⟨hl, hr⟩, h0⟩, memory_write_wf i v h1⟩, w0⟩, memory_write_within v w1 hlt⟩, hb⟩

/-- The host's move keeps every invariant: it changes the block memory only, and keeps it canonical. -/
theorem hostLoad_inv {c : Chan} {i : Nat} {vs : List F64} {s t : State} (hs : s.Inv = true)
    (h : hostLoad c i vs s = some t) : t.Inv = true := by
  obtain ⟨-, -, hi, rfl⟩ := hostLoad_some h
  simp only [State.Inv, Bool.and_eq_true] at hs ⊢
  obtain ⟨⟨⟨⟨⟨hm, hh⟩, he⟩, hc⟩, hp⟩, hsm⟩ := hs
  have hm' := storeSamples_memoryOk (c := c) (vs := vs) hi hm
  rw [storeSamples_frame c i vs s] at hm' ⊢
  exact ⟨⟨⟨⟨⟨hm', hh⟩, he⟩, hc⟩, hp⟩, hsm⟩

end Sys2Proof.Machine
end

