-- ==== Sys2Proof/Laws/PerInstr.lean ====
section
/-! SUPPORT. A statement made per command, about the command as syntax: the encoder gives it as many
operand words as the port takes for its command word (R101). -/

namespace Sys2Proof.Laws.OperandWords

/-- The packet of a command carries the operand words its `OPC` asks for (R91, R101). -/
def Statement (i : Instr) : Prop :=
  (encodePacket i).ops.length = operandCount (encodePacket i).cw

theorem configure (sr md : F64) : Statement (.configure sr md) := by
  simp [Statement, encodePacket, operandCount, opcField_commandWord]

theorem setparamDrywet (v : F64) : Statement (.setparamDrywet v) := by
  simp [Statement, encodePacket, operandCount, opcField_commandWord]

theorem setparamFeedback (v : F64) : Statement (.setparamFeedback v) := by
  simp [Statement, encodePacket, operandCount, opcField_commandWord]

theorem setparamDtl (v : F64) : Statement (.setparamDtl v) := by
  simp [Statement, encodePacket, operandCount, opcField_commandWord]

theorem setparamDtr (v : F64) : Statement (.setparamDtr v) := by
  simp [Statement, encodePacket, operandCount, opcField_commandWord]

theorem setparamPingpong (u : BitVec 64) : Statement (.setparamPingpong u) := by
  simp [Statement, encodePacket, operandCount, opcField_commandWord]

theorem process (n : Nat) : Statement (.process n) := by
  simp [Statement, encodePacket, operandCount, opcField_commandWord]

end Sys2Proof.Laws.OperandWords
end

