-- ==== Sys2Proof/Tests/Slice0.lean ====
section
/-! SUPPORT. Tests on small states, expected results from the spec's own encodings and vectors
(95_test_vectors.md), and for each obligation with hypotheses a named witness that meets them. Real
binary64 arithmetic is evaluated by the kernel (`decide +kernel`). -/

open Sys2Proof
open Sys2Proof.Machine

namespace Sys2Proof.Tests

/- One theorem at a time: each waits for the kernel, and many waiting threads would fill the memory. -/
set_option Elab.async false

/-! ## Helpers -/

/-- The next state of an outcome; the reset state where it stops. -/
def nextOr (o : Host.Outcome State Fault Refusal) : State :=
  match o with
  | .next s => s
  | .fault _ => State.reset
  | .refused _ => State.reset

theorem eq_next {o : Host.Outcome State Fault Refusal} (h : isNext o = true) :
    o = .next (nextOr o) := by
  cases o with
  | next s => rfl
  | fault e => cases h
  | refused r => cases h

theorem next_eq {o : Host.Outcome State Fault Refusal} {t : State}
    (h : isNext o = true ∧ nextOr o = t) : o = .next t := by
  rw [← h.2]
  exact eq_next h.1

/-- The words a command leaves on port A when run on `s`. -/
def answers (i : Instr) (s : State) : List RspWord := (nextOr (exec i s)).rspA

/-- P1's registers before its CONFIGURE: DRYWET 1, FEEDBACK 0.5, both delay times 0.375. -/
def p1Params : Params :=
  ⟨0x3FF0000000000000#64, 0x3FE0000000000000#64, 0x3FD8000000000000#64, 0x3FD8000000000000#64, false⟩

/-- Reset, then P1's SETPARAMs. -/
def preset : State := { State.reset with params := p1Params }

/-- A channel of P1 after CONFIGURE 8, 1. -/
def p1Channel : Channel F64 := ⟨[], 0#22, 0#64, 0x3FD8000000000000#64, 0#64⟩

/-- P1 after CONFIGURE 8, 1: `LEN = 8`, `SM = [0.375, 0.375]`. -/
def ready : State :=
  { preset with
    conf := ⟨0x4020000000000000#64, 0x3FF0000000000000#64, 8#22, true⟩
    left := p1Channel
    right := p1Channel }

/-- P1 with the impulse in `IO[0][0]`. -/
def impulse : State := { ready with io0 := [(0, 0x3FF0000000000000#64)] }

/-- The packet of SETPARAM DRYWET, 0.5 (V-E2). -/
def drywetPacket : Packet := ⟨0x20000000#32, [0x3FE0000000000000#64]⟩

/-- The words of SETPARAM DRYWET, 0.5. -/
def drywetWords : List PortWord := [.cmd 0x20000000#32, .opd 0x3FE0000000000000#64]

/-! ## Well-formedness: the one check refuses a count of 25 bits (R170) -/

theorem test_wellFormed_refuses_count : WellFormed (.process 16777216) = false := by decide

theorem test_wellFormed_admits_largest : WellFormed (.process 16777215) = true := by decide

/-! ## Words written out from the spec's encodings (R96, R97, R98, R100) -/

theorem test_decode_configure :
    decode .A ⟨0b00010000000000000000000000000000#32,
      [0x40E5888000000000#64, 0x4000000000000000#64]⟩ =
      .ok (.configure 0x40E5888000000000#64 0x4000000000000000#64) := by decide

theorem test_decode_drywet :
    decode .A ⟨0b00100000000000000000000000000000#32, [0x3FE0000000000000#64]⟩ =
      .ok (.setparamDrywet 0x3FE0000000000000#64) := by decide

theorem test_decode_feedback :
    decode .A ⟨0b00100001000000000000000000000000#32, [0x3FE0000000000000#64]⟩ =
      .ok (.setparamFeedback 0x3FE0000000000000#64) := by decide

theorem test_decode_dtl :
    decode .B ⟨0b00100010000000000000000000000000#32, [0x3FD8000000000000#64]⟩ =
      .ok (.setparamDtl 0x3FD8000000000000#64) := by decide

theorem test_decode_dtr :
    decode .A ⟨0b00100011000000000000000000000000#32, [0x3FD8000000000000#64]⟩ =
      .ok (.setparamDtr 0x3FD8000000000000#64) := by decide

theorem test_decode_pingpong :
    decode .A ⟨0b00100100000000000000000000000000#32, [0x0000000000000001#64]⟩ =
      .ok (.setparamPingpong 1#64) := by decide

theorem test_decode_process :
    decode .A ⟨0b00110000000000000000001000000000#32, []⟩ = .ok (.process 512) := by decide

/-- V-E10, V-E12, V-E14, V-E16, V-E18, V-E19, V-E20. -/
theorem test_decode_illegal :
    decode .A ⟨0x00000000#32, []⟩ = .error .reservedOpcode ∧
    decode .A ⟨0xF0123456#32, []⟩ = .error .reservedOpcode ∧
    decode .A ⟨0x20000001#32, [0x3FE0000000000000#64]⟩ = .error .setparamCount ∧
    decode .A ⟨0x10000005#32, [0xBFF0000000000000#64, 0x3FF0000000000000#64]⟩ =
      .error .configureFields ∧
    decode .B ⟨0x10000000#32, [0x4020000000000000#64, 0x3FF0000000000000#64]⟩ =
      .error .notOnPortB ∧
    decode .B ⟨0x30000004#32, []⟩ = .error .notOnPortB ∧
    decode .B ⟨0x40000000#32, []⟩ = .error .notOnPortB := by decide

/-- The encoder's words are those of V-E1 and V-E8. -/
theorem test_encode_words :
    encode (.configure 0x40E5888000000000#64 0x4000000000000000#64) =
      [.cmd 0x10000000#32, .opd 0x40E5888000000000#64, .opd 0x4000000000000000#64] ∧
    encode (.process 16777215) = [.cmd 0x30FFFFFF#32] := by decide

/-- An illegal CONFIGURE (V-E15) still takes two operand words; the stream stays in step (R101). -/
theorem test_illegal_configure_takes_two :
    takePacket [.cmd 0x11000000#32, .opd 0x4020000000000000#64, .opd 0x3FF0000000000000#64,
        .cmd 0x30000200#32] =
      .packet ⟨0x11000000#32, [0x4020000000000000#64, 0x3FF0000000000000#64]⟩
        [.cmd 0x30000200#32] := by decide

/-- A row of the table whose bits are V-E1's: the command word in the low 32 bits, then the operands. -/
theorem test_table_word_configure :
    decodeTableWord 160 (0x10000000 + 0x40E5888000000000 * 2 ^ 32 + 0x4000000000000000 * 2 ^ 96) =
      some (.configure 0x40E5888000000000#64 0x4000000000000000#64) := by decide

theorem test_table_word_refused : decodeTableWord 32 0x31000002 = none := by decide

/-! ## Arithmetic (44_arithmetic.md) -/

/-- `emod` and `floor_int` vectors of 2.7. -/
theorem test_emod :
    emod (-1) 8 = 7 ∧ emod 8 8 = 0 ∧ emod 9 8 = 1 ∧ emod (-1) 1 = 0 ∧ emod 5 8 = 5 ∧
      emod (-9) 8 = 7 := by decide

theorem test_floor_int :
    f64FloorInt ⟨0, .configure⟩ 0xBFD0000000000000#64 = -1 ∧
      f64FloorInt ⟨0, .configure⟩ 0x401E000000000000#64 = 7 ∧
      f64FloorInt ⟨0, .configure⟩ 0x4020000000000000#64 = 8 ∧
      f64FloorInt ⟨0, .configure⟩ 0x8000000000000000#64 = 0 := by decide +kernel

/-- R201: each constant is the value nearest its decimal. -/
theorem test_literals :
    f64Lit 1 1000 = Config.smoothCoef ∧ f64Lit 1 100 = Config.fbMin ∧
      f64Lit 98 100 = Config.fbMax ∧ f64Lit 1 100 = Config.dtMin ∧ f64Lit 1 1 = Config.one := by
  decide +kernel

/-- R204: the zeros are equal, a NaN compares false. -/
theorem test_comparisons :
    f64Lt 0x8000000000000000#64 0#64 = false ∧ f64Ge 0x8000000000000000#64 0#64 = true ∧
      f64Ge 0x7FF8000000000000#64 0#64 = false ∧ f64Gt 0x7FF8000000000000#64 0#64 = false := by
  decide +kernel

/-- V-S1: 0.25 towards 0.5. -/
theorem test_smooth :
    smoothStep binary64 0 .left 0x3FD0000000000000#64 0x3FE0000000000000#64 =
      0x3FD004189374BC6A#64 := by decide +kernel

/-- V-M8, every operation of the mix rounded. -/
theorem test_mix_rounds :
    mix binary64 0 .left 0x3FB999999999999A#64 0x3FC999999999999A#64 0x3FD3333333333333#64 =
      0x3FC0A3D70A3D70A4#64 := by decide +kernel

/-- V-M4: a dry `-0` comes out `+0`. -/
theorem test_mix_minus_zero :
    mix binary64 0 .right 0x8000000000000000#64 0x3FE0000000000000#64 0#64 = 0#64 := by
  decide +kernel

/-- `0 * infinity` is a NaN (V-M5's product), whichever pattern the draw gives. -/
theorem test_zero_times_infinity (d : Config.Draw) :
    f64IsNaN (f64Mul d 0#64 0x7FF0000000000000#64) = true := by
  have ha : f64Value 0#64 = .fin 0 := by decide +kernel
  have hb : f64Value 0x7FF0000000000000#64 = .inf false := by decide +kernel
  simp [f64Mul, ha, hb]

/-- V-K2, V-K4, V-K5, V-K7, V-K8, V-K9. -/
theorem test_clamp :
    clamp binary64 0xBFF0000000000000#64 0#64 0x3FF0000000000000#64 = 0#64 ∧
      clamp binary64 0x7FF8000000000000#64 0#64 0x3FF0000000000000#64 = 0#64 ∧
      clamp binary64 0x7FF0000000000000#64 0#64 0x3FF0000000000000#64 = 0x3FF0000000000000#64 ∧
      clamp binary64 0x8000000000000000#64 0#64 0x3FF0000000000000#64 = 0x8000000000000000#64 ∧
      clamp binary64 0x3F747AE147AE147B#64 0x3F847AE147AE147B#64 0x3F80624DD2F1A9FC#64 =
        0x3F80624DD2F1A9FC#64 ∧
      clamp binary64 0x7FF8000000000000#64 0x3F847AE147AE147B#64 0x3F747AE147AE147B#64 =
        0x3F747AE147AE147B#64 := by decide +kernel

/-! ## One sample -/

/-- R140's example: `LEN = 8`, `SR = 8`, `SM = 0.3125`, `WH = 2`, `BUF = [1, 2, 0, ...]`, `xin = 3`. -/
def exampleChannel : Channel F64 :=
  ⟨[(0, 0x3FF0000000000000#64), (1, 0x4000000000000000#64)], 2#22, 0#64, 0x3FD4000000000000#64, 0#64⟩

theorem test_process_sample_example :
    processSample binary64 0 .left 0x4020000000000000#64 8 0x3FD4000000000000#64
        0x3FE0000000000000#64 0x4008000000000000#64 exampleChannel =
      ⟨⟨[(0, 0x3FF0000000000000#64), (1, 0x4000000000000000#64), (2, 0x4008000000000000#64)], 3#22,
          0x401E000000000000#64, 0x3FD4000000000000#64, 0#64⟩,
        0x3FE0000000000000#64, 0x3FD0000000000000#64⟩ := by decide +kernel

/-- R155's example: `dts = 4.25`, `LEN = 4`, `w = 0`: the position is -0.25, the index -1, the taps 3 and 0. -/
theorem test_length_rounded_down :
    readPosition binary64 0 .left 0 4 0x4011000000000000#64 = 0xBFD0000000000000#64 ∧
      baseIndex binary64 0 .left 0xBFD0000000000000#64 = -1 ∧
      fraction binary64 0 .left 0xBFD0000000000000#64 (-1) = 0x3FE8000000000000#64 ∧
      tapIndex (-1) 4 = 3 ∧ tapIndex1 (-1) 4 = 0 ∧ idxCorrected (-1) 4 = true := by decide +kernel

/-- R156's example: the wrapped position rounds to exactly `LEN = 8`; the taps are 0 and 1. -/
theorem test_position_rounds_to_length :
    readPosition binary64 0 .left 3 8 0x4008000000000001#64 = 0x4020000000000000#64 ∧
      tapIndex 8 8 = 0 ∧ tapIndex1 8 8 = 1 := by decide +kernel

/-! ## The commands -/

/-- V-CF3, P1: CONFIGURE 8, 1 with both delay times at 0.375. -/
theorem test_configure_commits :
    isNext (exec (.configure 0x4020000000000000#64 0x3FF0000000000000#64) preset) = true ∧
    nextOr (exec (.configure 0x4020000000000000#64 0x3FF0000000000000#64) preset) =
      { ready with rspA := [0x00000000#32] } := by decide +kernel

/-- V-CF8: a length of 0 is refused and nothing changes. -/
theorem test_configure_refuses_zero_length :
    nextOr (exec (.configure 0x3FF0000000000000#64 0x3FD0000000000000#64) ready) =
      { ready with rspA := [0x00000001#32] } := by decide +kernel

/-- V-P4: a NaN stores the lower bound. -/
theorem test_drywet_nan :
    nextOr (exec (.setparamDrywet 0x7FF8000000000000#64) preset) =
      { preset with
        params := { p1Params with drywet := 0#64 }, rspA := [0x00000000#32] } := by decide +kernel

/-- V-P6: 1.5 stores `FB_MAX`, answered OK. -/
theorem test_feedback_above :
    nextOr (exec (.setparamFeedback 0x3FF8000000000000#64) preset) =
      { preset with
        params := { p1Params with feedback := 0x3FEF5C28F5C28F5C#64 }
        rspA := [0x00000000#32] } := by decide +kernel

/-- V-P12: with `CFG = 0` there is no upper bound. -/
theorem test_dtl_unconfigured :
    (nextOr (exec (.setparamDtl 0x4014000000000000#64) State.reset)).params.dtl =
      0x4014000000000000#64 := by decide +kernel

/-- V-P10: with `MAXD = 1`, 2 stores 1. -/
theorem test_dtr_configured :
    (nextOr (exec (.setparamDtr 0x4000000000000000#64) ready)).params =
      { p1Params with dtr := 0x3FF0000000000000#64 } := by decide +kernel

/-- V-P17: the pattern of `-0.0` is not the zero word. -/
theorem test_pingpong_nonzero :
    (nextOr (exec (.setparamPingpong 0x8000000000000000#64) State.reset)).params.pingpong = true := by
  decide +kernel

/-- V-P15. -/
theorem test_pingpong_zero :
    (nextOr (exec (.setparamPingpong 0#64)
      { ready with params := { p1Params with pingpong := true } })).params.pingpong = false := by
  decide +kernel

/-- P1's first five frames: the echo at frame 3 with amplitude 1, `FB[0] = 0.5` fed back in frame 4. -/
theorem test_process_impulse :
    (let t := nextOr (exec (.process 5) impulse)
     t.io0 = [(3, 0x3FF0000000000000#64)] ∧ t.io1 = [] ∧ t.left.wh = 5#22 ∧ t.fc = 5#24 ∧
       t.left.buf = [(0, 0x3FF0000000000000#64), (4, 0x3FE0000000000000#64)] ∧
       t.rspA = [0x00000000#32]) := by decide +kernel

/-- V-X1: PROCESS 4 after reset answers NotConfigured and changes nothing. -/
theorem test_process_unconfigured :
    nextOr (exec (.process 4) State.reset) = { State.reset with rspA := [0x00000002#32] } := by
  decide +kernel

/-! ## Steps -/

/-- P8's setting: a port-B write that is due now is served before the frame's first read (R70, R72). -/
theorem test_step_serves_port_B :
    (let s := { State.reset with wireB := arrivals 0 drywetWords }
     (nextOr (step s)).params.drywet = 0x3FE0000000000000#64 ∧
       (nextOr (step s)).rspB = [0x00000000#32] ∧ (nextOr (step s)).rspA = []) := by decide +kernel

/-- V-X7: an illegal word after reset answers 3, not 2. -/
theorem test_step_illegal :
    nextOr (step (State.reset.withFetchWord 32 0x31000002)) =
      { State.reset with rspA := [0x00000003#32] } := by decide +kernel

/-- The table's row runs as the first command after reset. -/
theorem test_step_fetched :
    nextOr (step (State.reset.withFetchWord 32 0x30000004)) =
      { State.reset with rspA := [0x00000002#32] } := by decide +kernel

/-- A stream that is no packet is refused by name. -/
theorem test_step_malformed :
    step { State.reset with portA := [.opd 0#64] } = .refused (.malformedStream .A) := by rfl

/-- SETDELAY is two packets (R106). -/
theorem test_pseudo_setdelay :
    (issueLine (.pseudoA (.setDelay 0x3FD8000000000000#64)) State.reset).portA =
      [.cmd 0x22000000#32, .opd 0x3FD8000000000000#64, .cmd 0x23000000#32,
        .opd 0x3FD8000000000000#64] := by decide

/-- P4's line `CONFIGURE 0x4020000000000000, 0.5 ; ...` and P8's `B: SETPARAM DRYWET, 1` (R105). -/
theorem test_assemble_lines :
    assemble 0 0 (['C', 'O', 'N', 'F', 'I', 'G', 'U', 'R', 'E', ' '] ++
        ['0', 'x', '4', '0', '2', '0', '0', '0', '0', '0', '0', '0', '0', '0', '0', '0', '0', '0'] ++
        [',', ' ', '0', '.', '5', ' ', ';', 'x']) =
      .line (.onA (.configure 0x4020000000000000#64 0x3FE0000000000000#64)) ∧
    assemble 3 0 (['B', ':', ' ', 'S', 'E', 'T', 'P', 'A', 'R', 'A', 'M', ' '] ++
        ['D', 'R', 'Y', 'W', 'E', 'T', ',', ' ', '1']) =
      .line (.onB 3 (.setparamDrywet 0x3FF0000000000000#64)) ∧
    assemble 0 0 [' ', ';', 'a'] = .blank := by decide +kernel

/-- A `B: SETDELAY` pair may be split by a read point (R106, R271): the second packet comes one later. -/
theorem test_setdelay_split :
    issueLine (.pseudoB 2 1 (.setDelay 0x3FD8000000000000#64)) State.reset =
      { State.reset with
        wireB := [⟨2, .cmd 0x22000000#32⟩, ⟨0, .opd 0x3FD8000000000000#64⟩,
          ⟨1, .cmd 0x23000000#32⟩, ⟨0, .opd 0x3FD8000000000000#64⟩] } := by decide

/-- The host's samples are read back where it put them (R62). -/
theorem test_host_samples :
    (hostLoad .left 0 [1#64, 0#64, 3#64] State.reset).bind (hostSamples .left 0 3) =
      some [1#64, 0#64, 3#64] := by decide

/-- The host has no move on `IO` past its last entry (R60), nor between sending a PROCESS and receiving its
response (R270). -/
theorem test_host_barred :
    hostLoad .right 16777215 [1#64, 1#64] State.reset = none ∧
      hostSamples .left 0 1 (hostSendA (encode (.process 1)) State.reset) = none ∧
      hostSamples .left 0 1 { State.reset with rspA := [0#32] } = none ∧
      (hostLoad .right 16777215 [1#64] State.reset).isSome = true := by decide

/-! ## Witnesses: for each obligation with hypotheses, a concrete case that meets them all

A witness for a statement with several clauses covers each of them, at a boundary value where the clause
has a range. -/

theorem witness_DecodeOfEncodeIsTheCommand : WellFormed (.process 16777215) = true := by decide

theorem witness_EncodeOfDecodeIsTheWords :
    takePacket (.cmd 0x30FFFFFF#32 :: drywetWords) = .packet ⟨0x30FFFFFF#32, []⟩ drywetWords ∧
      decode .A ⟨0x30FFFFFF#32, []⟩ = .ok (.process 16777215) := by decide

/-- The first and the last reserved opcodes, the first reserved selector, and port B's own rule. -/
theorem witness_IllegalPacketsAreExactlyThose :
    decode .A ⟨0x40000000#32, []⟩ = .error .reservedOpcode ∧
      decode .A ⟨0xF0000000#32, []⟩ = .error .reservedOpcode ∧
      decode .A ⟨0x25000000#32, [0#64]⟩ = .error .reservedParameter ∧
      decode .B ⟨0x30000004#32, []⟩ = .error .notOnPortB := by decide

theorem witness_OperandWordsConsumedByOpcode :
    ([1#64, 2#64].length = if opcField 0x1F000000#32 = 1#4 then 2
      else if opcField 0x1F000000#32 = 2#4 then 1 else 0) ∧
    takePacket (State.reset.withFetchWord 32 0x40000000).portA = .packet ⟨0x40000000#32, []⟩ [] ∧
    step (State.reset.withFetchWord 32 0x40000000) =
      .next (nextOr (step (State.reset.withFetchWord 32 0x40000000))) ∧
    takePacket drywetWords = .packet drywetPacket [] :=
  ⟨by decide, by decide, eq_next (by decide +kernel), by decide⟩

theorem witness_PortBRefusesAllButSetparam :
    takePacket { State.reset with portB := [.cmd 0x30000004#32] }.portB =
      .packet ⟨0x30000004#32, []⟩ [] ∧ opcField 0x30000004#32 ≠ 2#4 := by decide

theorem witness_SetparamIsTheSameFromEitherPort :
    decode .B drywetPacket = .ok (.setparamDrywet 0x3FE0000000000000#64) := by decide

theorem witness_StepRunsTheDecodedCommand :
    (let s := { State.reset with portA := drywetWords }
     takePacket (slot s).portB ≠ .malformed ∧ takePacket s.portA = .packet drywetPacket [] ∧
       decode .A drywetPacket = .ok (.setparamDrywet 0x3FE0000000000000#64) ∧ s.quietB = true ∧
       WellFormed (.setparamDrywet 0x3FE0000000000000#64) = true ∧
       s.portA = encode (.setparamDrywet 0x3FE0000000000000#64) ++ []) := by decide

/-- One state for each clause: words on port B that are no packet; nothing on port A, a packet, and words that
are no packet. -/
theorem witness_StepStopsOnlyOnMalformedStreams :
    takePacket (slot { State.reset with portB := [.opd 0#64] }).portB = .malformed ∧
    (takePacket (slot State.reset).portB ≠ .malformed ∧ takePacket State.reset.portA = .waiting) ∧
    ({ ready with portA := drywetWords }.headsOk = true ∧ takePacket drywetWords ≠ .malformed) ∧
    takePacket [PortWord.opd 0#64] = .malformed := by decide

theorem witness_ErrorsChangeNothingElse :
    exec (.process 4) State.reset = .next { State.reset with rspA := [2#32] } := rfl

/-- A CONFIGURE that answers 1, and which condition it meets; a PROCESS that answers 2; a SETPARAM that
answers 0. -/
theorem witness_ErrorCodesBelongToTheirCommands :
    exec (.configure 0#64 0x3FF0000000000000#64) State.reset =
      .next { State.reset with rspA := [1#32] } ∧ f64Gt 0#64 0#64 = false ∧
      exec (.process 0) State.reset = .next { State.reset with rspA := [2#32] } ∧
      State.reset.conf.cfg = false ∧ answers (.setparamPingpong 1#64) State.reset = [0#32] :=
  ⟨next_eq (by decide +kernel), by decide +kernel, rfl, rfl, by decide +kernel⟩

/-- The smallest and the largest length: V-CF4 and V-CF6. -/
theorem witness_ConfigureCommitsWhenValid :
    f64Gt 0x3FF0000000000000#64 0#64 = true ∧ f64IsFinite 0x3FF0000000000000#64 = true ∧
    f64Gt 0x3FE0000000000000#64 0#64 = true ∧ f64IsFinite 0x3FE0000000000000#64 = true ∧
    f64Gt 0x4140000000000000#64 0#64 = true ∧ f64IsFinite 0x4140000000000000#64 = true ∧
    f64RoundHalfAway ⟨0, .configure⟩
      (f64Mul ⟨0, .configure⟩ 0x3FF0000000000000#64 0x3FE0000000000000#64) = ((1 : Nat) : Int) ∧
    f64RoundHalfAway ⟨0, .configure⟩
      (f64Mul ⟨0, .configure⟩ 0x4140000000000000#64 0x3FF0000000000000#64) =
      ((2097152 : Nat) : Int) ∧
    f64IsFinite (f64Mul ⟨0, .configure⟩ 0x3FF0000000000000#64 0x3FE0000000000000#64) = true ∧
    f64IsFinite (f64Mul ⟨0, .configure⟩ 0x4140000000000000#64 0x3FF0000000000000#64) = true := by
  decide +kernel

/-- Each condition: a zero, an infinity, an overflowing product, a length of 0, a length of LEN_MAX + 1; and
each class of bad operand. -/
theorem witness_ConfigureRejectsWhenInvalid :
    f64Gt 0#64 0#64 = false ∧ f64IsFinite 0x7FF0000000000000#64 = false ∧
      f64IsFinite (f64Mul ⟨0, .configure⟩ 0x7E37E43C8800759C#64 0x7E37E43C8800759C#64) = false ∧
      f64RoundHalfAway ⟨0, .configure⟩
        (f64Mul ⟨0, .configure⟩ 0x3FF0000000000000#64 0x3FD0000000000000#64) < 1 ∧
      2097152 < f64RoundHalfAway ⟨0, .configure⟩
        (f64Mul ⟨0, .configure⟩ 0x4140000080000000#64 0x3FF0000000000000#64) ∧
      f64IsNaN 0x7FF8000000000000#64 = true ∧ f64IsZero 0x8000000000000000#64 = true ∧
      f64Sign 0xBFF0000000000000#64 = true := by decide +kernel

/-- CONFIGURE 8, 1 answers from P1's registers, and again from where it leads. -/
theorem witness_ConfigureIsIdempotent :
    exec (.configure 0x4020000000000000#64 0x3FF0000000000000#64) preset =
      .next { ready with rspA := [0#32] } ∧
    exec (.configure 0x4020000000000000#64 0x3FF0000000000000#64)
        { ready with rspA := [0#32] } =
      .next { ready with rspA := [0#32, 0#32] } :=
  ⟨next_eq (by decide +kernel), next_eq (by decide +kernel)⟩

/-- Two states with P1's registers, one unconfigured and one with a full delay line. -/
theorem witness_ConfigureForgetsTheDelayLine :
    preset.params = { ready with left := exampleChannel }.params ∧
    exec (.configure 0x4020000000000000#64 0x3FF0000000000000#64) preset =
      .next { ready with rspA := [0#32] } ∧
    exec (.configure 0x4020000000000000#64 0x3FF0000000000000#64)
        { ready with left := exampleChannel } = .next { ready with rspA := [0#32] } ∧
    { ready with rspA := [0#32] }.rspA = preset.rspA ++ [0#32] :=
  ⟨rfl, next_eq (by decide +kernel), next_eq (by decide +kernel), rfl⟩

theorem witness_ConfigureFrame :
    exec (.configure 0x4020000000000000#64 0x3FF0000000000000#64) preset =
      .next { ready with rspA := [0#32] } := next_eq (by decide +kernel)

theorem witness_SetparamPingpongStoresTheFlag : (0x8000000000000000#64 : BitVec 64) ≠ 0#64 := by decide

/-- Bounds that are no NaN, with a value in range, one above, one below, a NaN, and an empty range. -/
theorem witness_ClampFollowsR10 :
    f64IsNaN 0x3F847AE147AE147B#64 = false ∧ f64IsNaN 0x3FF0000000000000#64 = false ∧
      f64Le 0x3F847AE147AE147B#64 0x3FF0000000000000#64 = true ∧
      f64Le 0x3F847AE147AE147B#64 0x3F847AE147AE147B#64 = true ∧
      f64Gt 0x7FF0000000000000#64 0x3FF0000000000000#64 = true ∧
      f64Lt 0x3F847AE147AE147A#64 0x3F847AE147AE147B#64 = true ∧
      f64IsNaN 0x7FF8000000000000#64 = true ∧
      f64Gt 0x3F847AE147AE147B#64 0x3F747AE147AE147B#64 = true := by decide +kernel

theorem witness_SetparamFrame :
    exec (.setparamPingpong 1#64) State.reset =
      .next { State.reset with
        params := { State.reset.params with pingpong := true }, rspA := [0#32] } := rfl

/-- A head at the last entry of a buffer of length 1, and R140's example. -/
theorem witness_ProcessSampleFollowsTheNineSteps :
    (p1Channel.wh.toNat < 1 ∧ Memory.wf Config.plusZero p1Channel.buf = true) ∧
      (exampleChannel.wh.toNat < 8 ∧ Memory.wf Config.plusZero exampleChannel.buf = true) := by
  decide +kernel

theorem witness_ProcessOneFrame :
    impulse.conf.cfg = true ∧ impulse.headsOk = true ∧ impulse.memoryOk = true ∧
      impulse.quietB = true := by decide +kernel

theorem witness_ProcessCompletesWhenConfigured :
    16777215 < 2 ^ 24 ∧ ready.conf.cfg = true ∧ ready.headsOk = true := by decide +kernel

theorem witness_ProcessRefusesWhenUnconfigured : State.reset.conf.cfg = false := rfl

/-- Configured, with the head's entry the only one written; and unconfigured. -/
theorem witness_ProcessFrame :
    impulse.memoryOk = true ∧ impulse.headsOk = true ∧ impulse.quietB = true ∧
    exec (.process 1) impulse = .next (nextOr (exec (.process 1) impulse)) ∧
    State.reset.memoryOk = true ∧ State.reset.conf.cfg = false ∧
    exec (.process 1) State.reset = .next (nextOr (exec (.process 1) State.reset)) :=
  ⟨by decide +kernel, by decide +kernel, by decide +kernel, eq_next (by decide +kernel),
    by decide +kernel, rfl, eq_next (by decide +kernel)⟩

/-- Nine frames around a buffer of eight entries: the head wraps. -/
theorem witness_WriteHeadAdvancesModuloLength :
    ready.conf.cfg = true ∧ ready.headsOk = true ∧
    exec (.process 9) ready = .next (nextOr (exec (.process 9) ready)) ∧
    (nextOr (exec (.process 9) ready)).left.wh = 1#22 :=
  ⟨rfl, by decide +kernel, eq_next (by decide +kernel), by decide +kernel⟩

/-- P1's impulse in two blocks of 1 and 3 frames; the second block's samples are zeros. -/
theorem witness_BlocksOfFramesCompose :
    (let t1 := nextOr (exec (.process 1) impulse)
     let s2 := { t1 with io0 := [], io1 := [] }
     impulse.quietB = true ∧ impulse.memoryOk = true ∧ isNext (exec (.process (1 + 3)) impulse) = true ∧
       isNext (exec (.process 1) impulse) = true ∧ s2.memoryOk = true ∧
       (∀ j ∈ [0, 1, 2], s2.ioRead .left j = t1.ioRead .left (1 + j) ∧
         s2.ioRead .right j = t1.ioRead .right (1 + j)) ∧
       isNext (exec (.process 3) s2) = true) := by decide +kernel

theorem witness_SilenceStaysSilent :
    ready.Inv = true ∧ ready.conf.cfg = true ∧ ready.silent = true ∧
      f64IsZero (ready.ioRead .left 0) = true ∧ f64IsZero (ready.ioRead .right 0) = true ∧
      isNext (exec (.process 1) ready) = true := by decide +kernel

/-- The hypothesis, and both sides of two boundaries: PINGPONG at `w = 4` and `w = 5`; and R70's case, the old
`P[2]` with the new `P[3]`, at `w = 3`, `g = 0`. -/
theorem witness_PortBWriteBeforeTheReadIsLatched :
    ready.portB = [] ∧
    (latchParams { ready with wireB := arrivals 4 (encode (.setparamPingpong 1#64)) }).latch.lpp =
      true ∧
    (latchParams { ready with wireB := arrivals 5 (encode (.setparamPingpong 1#64)) }).latch.lpp =
      false ∧
    (let t := latchParams { ready with
      wireB := arrivals 3 (encode (.setparamDtl 0x3FE0000000000000#64)) ++
        arrivals 0 (encode (.setparamDtr 0x3FE0000000000000#64)) }
     t.latch.ldt0 = 0x3FD8000000000000#64 ∧ t.latch.ldt1 = 0x3FE0000000000000#64) := by
  decide +kernel

/-- Latches with either ping-pong flag. -/
theorem witness_ChannelsAreIndependentWithinAFrame :
    State.reset.latch.lpp = false ∧ { State.reset.latch with lpp := true }.lpp = true := by decide

theorem witness_MixAtItsEndsReturnsTheSample :
    f64IsFinite 0x7FEFFFFFFFFFFFFF#64 = true ∧ f64IsNaN 0x7FF0000000000000#64 = false ∧
      (0x7FF0000000000000#64 : F64) ≠ 0x8000000000000000#64 ∧ f64IsFinite 0#64 = true := by
  decide +kernel

/-- The last index of a buffer, and a buffer of one entry. -/
theorem witness_TapIndicesStayInTheBuffer :
    (1 ≤ 8 ∧ (0 : Int) ≤ 7 ∧ (7 : Int) < ((8 : Nat) : Int)) ∧
      (1 ≤ 1 ∧ (0 : Int) ≤ 0 ∧ (0 : Int) < ((1 : Nat) : Int)) := by decide

theorem witness_FullLengthDelayAliasesToZero : 2097151 < 2097152 ∧ 2097152 ≤ 2097152 := by decide

theorem witness_ReadIndexStaysNearTheBuffer : ready.Inv = true ∧ ready.conf.cfg = true := by
  decide +kernel

/-- Rising, falling and at the target; the largest finite value and zero. -/
theorem witness_SmootherNeverOvershoots :
    f64IsFinite 0x7FEFFFFFFFFFFFFF#64 = true ∧ f64IsFinite 0#64 = true ∧
      f64Ge 0x7FEFFFFFFFFFFFFF#64 0#64 = true ∧ f64Ge 0#64 0#64 = true ∧
      f64Le 0#64 0x7FEFFFFFFFFFFFFF#64 = true ∧ (0#64 : F64) ≠ 0x8000000000000000#64 := by
  decide +kernel

/-- A tie between two subnormals goes to the even one; the smallest magnitude that overflows, and the one
below it. -/
theorem witness_RoundingIsToNearestEven :
    f64IsFinite 0x0000000000000001#64 = true ∧ roundBits 3 1 < f64InfBits ∧ roundBits 3 1 = 2 ∧
      roundBits ((2 ^ 54 - 1) * 2 ^ 2044) 0 = f64InfBits ∧
      roundBits ((2 ^ 54 - 1) * 2 ^ 2044 - 1) 0 = f64InfBits - 1 := by decide +kernel

/-- Finite operands: the largest finite value, and the least negative one. -/
theorem witness_OperationsRoundTheExactResultOnce :
    f64Value 0x7FEFFFFFFFFFFFFF#64 = .fin (((2 ^ 53 - 1) * 2 ^ 2045 : Nat) : Int) ∧
      f64Value 0x8000000000000001#64 = .fin (-1) := ⟨by decide +kernel, by decide +kernel⟩

theorem witness_RoundingIsMonotoneAndExact :
    (3 ≤ 4) ∧ f64IsFinite 0x7FEFFFFFFFFFFFFF#64 = true := by decide +kernel

theorem witness_SpecialCasesOfTheOperations :
    f64IsNaN 0x7FF0000000000001#64 = true ∧
      f64Value 0x7FF0000000000000#64 = .inf false ∧ f64Value 0xFFF0000000000000#64 = .inf (!false) ∧
      f64Value 0x7FF0000000000000#64 = .inf false ∧
      f64IsZero 0x8000000000000000#64 = true ∧ f64IsFinite 0x0000000000000001#64 = true ∧
      (0x0000000000000001#64 : F64) ≠ 0x8000000000000000#64 := by decide +kernel

theorem witness_FractionIsExactWhenNotNegative :
    |(4194305 : Int)| ≤ 2 * 2097152 + 1 ∧ f64Value 0x3FF8000000000000#64 = .fin ((3 * 2 ^ 1073 : Nat) : Int) ∧
      (0 : Int) ≤ ((3 * 2 ^ 1073 : Nat) : Int) :=
  ⟨by norm_num, by decide +kernel, Int.natCast_nonneg _⟩

/-- The value at which the statement fails: `-2^-1074`. -/
theorem witness_FractionIsExactForEveryFiniteValue :
    |(-4194305 : Int)| ≤ 2 * 2097152 + 1 ∧ f64Value 0x8000000000000001#64 = .fin (-1) := by
  refine ⟨by norm_num, by decide +kernel⟩

theorem witness_RoundHalfAwayFollowsR207 :
    f64Value 0x3FE0000000000000#64 = .fin ((2 ^ 1073 : Nat) : Int) ∧
      (0 : Int) < ((2 ^ 1073 : Nat) : Int) :=
  ⟨by decide +kernel, by decide +kernel⟩

/-- The smallest divisor, at its only remainder. -/
theorem witness_EmodIsTheEuclideanRemainder :
    1 ≤ 1 ∧ 0 < 1 ∧ ((1 : Nat) : Int) ∣ 5 - ((0 : Nat) : Int) ∧ (0 : Int) ≤ 7 ∧
      (7 : Int) < ((8 : Nat) : Int) := by decide

/-- Latches with a delay of three eighths of a second on both channels, and either ping-pong flag. -/
def idealLatches (lpp : Bool) : Latches Rat := ⟨1, 1 / 2, 3 / 8, 3 / 8, lpp⟩

/-- P1's setting: `SR = 8`, `LEN = 8`, `d = 3`. -/
theorem witness_LoopEquationStraight :
    8 ≤ 2097152 ∧ (idealLatches false).lpp = false ∧ 1 ≤ 3 ∧ 3 + 1 ≤ 8 ∧
      (8 : Rat) * (idealLatches false).ldt0 = ((3 : Nat) : Rat) ∧
      (8 : Rat) * (idealLatches false).ldt1 = ((3 : Nat) : Rat) :=
  ⟨by decide, rfl, by decide, by decide, by norm_num [idealLatches], by norm_num [idealLatches]⟩

/-- P2's setting; the longest true delay is `LEN - 1`. -/
theorem witness_LoopEquationPingPong :
    4 ≤ 2097152 ∧ (idealLatches true).lpp = true ∧ 1 ≤ 3 ∧ 3 + 1 ≤ 4 ∧
      (8 : Rat) * (idealLatches true).ldt0 = ((3 : Nat) : Rat) ∧
      (8 : Rat) * (idealLatches true).ldt1 = ((3 : Nat) : Rat) :=
  ⟨by decide, rfl, by decide, by decide, by norm_num [idealLatches], by norm_num [idealLatches]⟩

/-- P1's setting, with an echo frame and a frame that is none. -/
theorem witness_ImpulseResponseStraight :
    8 ≤ 2097152 ∧ (idealLatches false).lpp = false ∧ (idealLatches false).ldw = 1 ∧ 1 ≤ 3 ∧
      3 + 1 ≤ 8 ∧ (8 : Rat) * (idealLatches false).ldt0 = ((3 : Nat) : Rat) ∧
      (8 : Rat) * (idealLatches false).ldt1 = ((3 : Nat) : Rat) ∧
      (∀ j : Nat, 4 ≠ 3 + j * (3 + 1)) :=
  ⟨by decide, rfl, rfl, by decide, by decide, by norm_num [idealLatches],
    by norm_num [idealLatches], fun j => by omega⟩

/-- P2's setting, with a frame that is no echo. -/
theorem witness_ImpulseResponsePingPong :
    8 ≤ 2097152 ∧ (idealLatches true).lpp = true ∧ (idealLatches true).ldw = 1 ∧ 1 ≤ 3 ∧
      3 + 1 ≤ 8 ∧ (8 : Rat) * (idealLatches true).ldt0 = ((3 : Nat) : Rat) ∧
      (8 : Rat) * (idealLatches true).ldt1 = ((3 : Nat) : Rat) ∧
      (∀ j : Nat, 0 ≠ 3 + j * (3 + 1)) :=
  ⟨by decide, rfl, rfl, by decide, by decide, by norm_num [idealLatches],
    by norm_num [idealLatches], fun j => by omega⟩

/-- The head at 0 with the longest delay of the range. -/
theorem witness_IdealReadPositionIsInRange :
    0 < 8 ∧ (0 : Rat) < 8 ∧ (8 : Rat) ≤ ((8 : Nat) : Rat) := by norm_num

/-- For the five StepKeeps statements: a legal configured state with a PROCESS at the head of port A, whose
step is a next state. -/
theorem witness_StepKeeps :
    (let s := impulse.withFetchWord 32 0x30000002
     s.memoryOk = true ∧ s.headsOk = true ∧ s.headsEqual = true ∧ s.confOk = true ∧
       s.paramsOk = true ∧ s.smoothOk = true ∧ s.conf.cfg = true ∧ isNext (step s) = true) := by
  decide +kernel

/-- A command after which a configuration register differs. -/
theorem witness_OnlyConfigureChangesTheConfiguration :
    exec (.configure 0x4020000000000000#64 0x3FF0000000000000#64) preset =
      .next { ready with rspA := [0#32] } ∧ { ready with rspA := [0#32] }.conf ≠ preset.conf :=
  ⟨next_eq (by decide +kernel), by decide +kernel⟩

/-- Two different states that show the same: the latches, and a channel while `CFG = 0`. -/
theorem witness_HiddenStateIsUnobservable :
    (let s := { State.reset with left := exampleChannel, fc := 7#24 }
     s ≠ State.reset ∧ s.observable = State.reset.observable) := by decide +kernel

end Sys2Proof.Tests
end

/-! SUPPORT. The remainder and the clamp of 00_scope.md (R10, R11): their laws, and the
obligations about them. -/

namespace Sys2Proof.Machine

/-! ## `emod` (R11, R210) -/

/-- Read as an integer, `emod` is the integer remainder. -/
theorem emod_cast (k : Int) {n : Nat} (hn : 1 ≤ n) : (emod k n : Int) = k % (n : Int) :=
  Int.toNat_of_nonneg (Int.emod_nonneg k (by omega))

theorem emod_lt (k : Int) {n : Nat} (hn : 1 ≤ n) : emod k n < n := by
  have h : k % (n : Int) < n := Int.emod_lt_of_pos k (by omega)
  rw [← emod_cast k hn] at h
  exact_mod_cast h

/-- The only remainder below `n`. -/
theorem eq_emod_of_dvd {k : Int} {n r : Nat} (hr : r < n) (hd : (n : Int) ∣ k - (r : Int)) :
    r = emod k n := by
  have h : k % (n : Int) = (r : Int) := by
    rw [Int.emod_eq_emod_iff_emod_sub_eq_zero.mpr (Int.emod_eq_zero_of_dvd hd)]
    exact Int.emod_eq_of_lt (by omega) (by omega)
  unfold emod
  rw [h, Int.toNat_natCast]

theorem emod_dvd_sub (k : Int) {n : Nat} (hn : 1 ≤ n) : (n : Int) ∣ k - (emod k n : Int) := by
  rw [emod_cast k hn]
  exact Int.dvd_self_sub_emod

/-- Settles O44: the remainder exists and is unique, and each law names a remainder. -/
theorem emodIsTheEuclideanRemainder : Obligations.EmodIsTheEuclideanRemainder := by
  intro k n hn
  refine ⟨⟨emod_lt k hn, emod_dvd_sub k hn⟩, fun r hr hd => eq_emod_of_dvd hr hd, ?_, ?_, ?_, ?_, ?_⟩
  · intro h0 hk
    rw [emod_cast k hn]
    exact Int.emod_eq_of_lt h0 hk
  · exact (eq_emod_of_dvd hn (by simp)).symm
  · exact (eq_emod_of_dvd (by omega) ⟨-1, by push_cast [hn]; ring⟩).symm
  · unfold emod
    rw [Int.add_emod_right]
  · exact (eq_emod_of_dvd Nat.one_pos (one_dvd _)).symm

/-! ## `clamp` (R10) -/

/-- What `a > b` is when neither is a NaN. -/
theorem f64Gt_eq_not_le {a b : F64} (ha : f64IsNaN a = false) (hb : f64IsNaN b = false) :
    f64Gt a b = !f64Le a b := f64Lt_eq_not_le hb ha

theorem valueLe_of_lt {a b : F64Value} (h : valueLt a b = true) : valueLe a b = true := by
  cases a <;> cases b <;> simp_all [valueLt, valueLe]
  case fin.fin => omega

theorem f64Le_of_lt {a b : F64} (h : f64Lt a b = true) : f64Le a b = true := valueLe_of_lt h

theorem f64Lt_of_lt_of_le {a b c : F64} (h : f64Lt a b = true) (k : f64Le b c = true) :
    f64Lt a c = true := by
  obtain ⟨ha, hb⟩ := f64Le_not_nan (f64Le_of_lt h)
  obtain ⟨-, hc⟩ := f64Le_not_nan k
  rw [f64Lt_eq_not_le ha hb, Bool.not_eq_true'] at h
  rw [f64Lt_eq_not_le ha hc, Bool.not_eq_true']
  by_contra hca
  rw [Bool.not_eq_false] at hca
  simp [f64Le_trans k hca] at h

/-- On a value that is at least `lo`, only the upper bound acts. -/
theorem clamp_of_ge {v lo hi : F64} (h : f64Le lo v = true) :
    clamp binary64 v lo hi = if f64Gt v hi then hi else v := by
  simp [clamp, binary64, f64Ge, h]

/-- Any other value, a NaN too, is replaced by `lo` before the upper bound acts. -/
theorem clamp_of_not_ge {v lo hi : F64} (h : f64Le lo v = false) :
    clamp binary64 v lo hi = if f64Gt lo hi then hi else lo := by
  simp [clamp, binary64, f64Ge, h]

theorem clamp_of_inRange {v lo hi : F64} (hlo : f64Le lo v = true) (hhi : f64Le v hi = true) :
    clamp binary64 v lo hi = v := by
  obtain ⟨hv, hh⟩ := f64Le_not_nan hhi
  simp [clamp_of_ge hlo, f64Gt_eq_not_le hv hh, hhi]

theorem clamp_of_gt {v lo hi : F64} (hle : f64Le lo hi = true) (h : f64Gt v hi = true) :
    clamp binary64 v lo hi = hi := by
  rw [clamp_of_ge (f64Le_trans hle (f64Le_of_lt h)), if_pos h]

/-- Below `lo`, or not comparable with it. -/
theorem clamp_of_below {v lo hi : F64} (hle : f64Le lo hi = true) (h : f64Le lo v = false) :
    clamp binary64 v lo hi = lo := by
  obtain ⟨hl, hh⟩ := f64Le_not_nan hle
  simp [clamp_of_not_ge h, f64Gt_eq_not_le hl hh, hle]

/-- `v < lo` and a NaN `v` both fail the test against the lower bound. -/
theorem not_ge_of_lt_or_nan {v lo : F64} (h : f64Lt v lo = true ∨ f64IsNaN v = true) :
    f64Le lo v = false := by
  by_contra hge
  rw [Bool.not_eq_false] at hge
  obtain ⟨hl, hv⟩ := f64Le_not_nan hge
  rcases h with hlt | hnan
  · simp [f64Lt_eq_not_le hv hl, hge] at hlt
  · simp [hv] at hnan

/-- On an empty range the upper bound has the last word. -/
theorem clamp_of_empty {v lo hi : F64} (h : f64Gt lo hi = true) : clamp binary64 v lo hi = hi := by
  by_cases hv : f64Le lo v = true
  · have hgt : f64Gt v hi = true := f64Lt_of_lt_of_le h hv
    rw [clamp_of_ge hv, if_pos hgt]
  · rw [clamp_of_not_ge (by simpa using hv), if_pos h]

theorem clamp_not_nan {lo hi : F64} (v : F64) (hlo : f64IsNaN lo = false)
    (hhi : f64IsNaN hi = false) : f64IsNaN (clamp binary64 v lo hi) = false := by
  by_cases hv : f64Le lo v = true
  · rw [clamp_of_ge hv]
    split
    · exact hhi
    · exact (f64Le_not_nan hv).2
  · rw [clamp_of_not_ge (by simpa using hv)]
    split
    · exact hhi
    · exact hlo

/-- Settles O21: R10's cases, one lemma each. -/
theorem clampFollowsR10 : Obligations.ClampFollowsR10 := by
  intro v lo hi hlo hhi
  refine ⟨fun hle => ⟨clamp_of_inRange, clamp_of_gt hle, fun h => ?_⟩, clamp_of_empty,
    clamp_not_nan v hlo hhi⟩
  exact clamp_of_below hle (not_ge_of_lt_or_nan h)

end Sys2Proof.Machine


/-! SUPPORT. What a step does by what stands at the head of each port (R5, R69, R101), when a command
answers a next state (R12, R43), and the obligations about the step. -/

namespace Sys2Proof

/-! ## Packets of well-formed commands (R96 to R98, R104) -/

/-- A packet with as many operand words as its `OPC` asks for is taken whole (R101). -/
theorem takePacket_packetWords {p : Packet} (rest : List PortWord)
    (h : p.ops.length = operandCount p.cw) :
    takePacket (packetWords p ++ rest) = .packet p rest := by
  simp [packetWords, takePacket, ← h, takeOperands_map]

theorem encodePacket_ops_length (i : Instr) :
    (encodePacket i).ops.length = operandCount (encodePacket i).cw := by
  cases i <;> simp [encodePacket, operandCount, opcField_commandWord]

theorem takePacket_encode (i : Instr) (rest : List PortWord) :
    takePacket (encode i ++ rest) = .packet (encodePacket i) rest :=
  takePacket_packetWords rest (encodePacket_ops_length i)

theorem decode_encodePacket {i : Instr} (h : WellFormed i = true) :
    decode .A (encodePacket i) = .ok i := by
  cases i with
  | process n =>
    have hn : n < 16777216 := Nat.lt_succ_of_le ((countFits_iff n).mp h)
    simpa [decode, encodePacket, opcField_commandWord, selField_commandWord,
      cntField_commandWord] using Machine.toNat_ofNat_cntW hn
  | _ =>
    simp [decode, decodeSetparam, encodePacket, opcField_commandWord, selField_commandWord,
      cntField_commandWord]

/-- A selector names a SETPARAM, and those have no count. -/
theorem decodeSetparam_wellFormed {sel : BitVec 4} {v : OpWord} {i : Instr}
    (h : decodeSetparam sel v = .ok i) : WellFormed i = true := by
  unfold decodeSetparam at h
  split_ifs at h <;> cases h <;> rfl

/-- Whatever is decoded has an encoding: PROCESS's count comes from a 24-bit field. -/
theorem decode_wellFormed {port : Port} {p : Packet} {i : Instr} (h : decode port p = .ok i) :
    WellFormed i = true := by
  unfold decode at h
  split_ifs at h
  · cases h
    rfl
  · exact decodeSetparam_wellFormed h
  · cases h
    exact (countFits_iff _).mpr (cntField_le p.cw)

end Sys2Proof

namespace Sys2Proof.Machine

/-! ## The step, by what stands at the head of each port (R5, R69) -/

theorem step_malformedB {s : State} (h : takePacket (slot s).portB = .malformed) :
    step s = .refused (.malformedStream .B) := if_pos h

/-- With port B's stream in order the step is port A's. -/
theorem step_eq_servePortA {s : State} (h : takePacket (slot s).portB ≠ .malformed) :
    step s = servePortA (slot s) := if_neg h

theorem servePortA_waiting {s : State} (h : takePacket s.portA = .waiting) :
    servePortA s = .next s := by
  simp [servePortA, h]

theorem servePortA_malformed {s : State} (h : takePacket s.portA = .malformed) :
    servePortA s = .refused (.malformedStream .A) := by
  simp [servePortA, h]

theorem servePortA_packet {s : State} {p : Packet} {rest : List PortWord}
    (h : takePacket s.portA = .packet p rest) :
    servePortA s = runPacketA p { s with portA := rest } := by
  simp [servePortA, h]

theorem runPacketA_ok {p : Packet} {i : Instr} (h : decode .A p = .ok i) (s : State) :
    runPacketA p s = exec i s := by
  simp [runPacketA, h]

theorem runPacketA_error {p : Packet} {e : Reject} (h : decode .A p = .error e) (s : State) :
    runPacketA p s = .next (raiseError .A .illegalCommand s) := by
  simp [runPacketA, h]

/-- The step on a packet that decodes. -/
theorem step_of_packet {s : State} {p : Packet} {rest : List PortWord} {i : Instr}
    (hB : takePacket (slot s).portB ≠ .malformed) (hA : takePacket s.portA = .packet p rest)
    (hi : decode .A p = .ok i) : step s = exec i { slot s with portA := rest } := by
  rw [step_eq_servePortA hB, servePortA_packet (by rw [slot_portA]; exact hA), runPacketA_ok hi]

theorem quietB_iff (s : State) : s.quietB = true ↔ s.portB = [] ∧ s.wireB = [] := by
  simp [State.quietB]

/-- Settles O8: the step takes port A's packet after the slot, and a quiet slot does nothing. -/
theorem stepRunsTheDecodedCommand : Obligations.StepRunsTheDecodedCommand := by
  refine ⟨fun s p rest i hB hA hi => step_of_packet hB hA hi, fun s rest i hq hw hA => ?_⟩
  obtain ⟨hp, hwire⟩ := (quietB_iff s).mp hq
  have hslot : slot s = s := slot_quiet hp hwire
  have hB : takePacket (slot s).portB ≠ .malformed := by
    rw [hslot, hp]
    exact nofun
  rw [step_of_packet hB (hA ▸ takePacket_encode i rest) (decode_encodePacket hw), hslot]

/-! ## Frames never stop with the heads in range (R43, R65, R149) -/

/-- A head in range advances by one, or wraps to 0 (R149). -/
theorem advanceHead_toNat {w len : BitVec Config.lenW} (h : w.toNat < len.toNat) :
    (advanceHead w len.toNat).toNat = if w.toNat + 1 = len.toNat then 0 else w.toNat + 1 := by
  have hlen := lenW_bound len
  unfold advanceHead
  split
  · rfl
  · exact toNat_ofNat_lenW (by omega)

theorem advanceHead_lt {w len : BitVec Config.lenW} (h : w.toNat < len.toNat) :
    (advanceHead w len.toNat).toNat < len.toNat := by
  rw [advanceHead_toNat h]
  split <;> omega

/-- A frame moves each write head by PROCESS_SAMPLE's step 8 and in no other way. -/
theorem frameBody_wh (i : Nat) (s : State) :
    (frameBody i s).left.wh = advanceHead s.left.wh s.conf.len.toNat ∧
    (frameBody i s).right.wh = advanceHead s.right.wh s.conf.len.toNat := by
  simp [frameBody, frameCore, commitFeedback_eq]

theorem headsInRange_iff (s : State) :
    s.headsInRange = true ↔
      s.left.wh.toNat < s.conf.len.toNat ∧ s.right.wh.toNat < s.conf.len.toNat := by
  simp [State.headsInRange]

/-- `headsInRange` reads the two channels and the configuration only. -/
theorem headsInRange_congr {s t : State} (hl : t.left = s.left) (hr : t.right = s.right)
    (hc : t.conf = s.conf) : t.headsInRange = s.headsInRange := by
  unfold State.headsInRange
  rw [hl, hr, hc]

theorem frameBody_headsInRange (i : Nat) {s : State} (h : s.headsInRange = true) :
    (frameBody i s).headsInRange = true := by
  obtain ⟨hl, hr⟩ := (headsInRange_iff s).mp h
  obtain ⟨hwl, hwr⟩ := frameBody_wh i s
  rw [headsInRange_iff, hwl, hwr, frameBody_conf]
  exact ⟨advanceHead_lt hl, advanceHead_lt hr⟩

/-- A block inside `IO` that begins with the heads in range answers a state. -/
theorem frames_of_inRange {k i : Nat} {s : State} (hi : i + k ≤ Config.ioLen)
    (hh : s.headsInRange = true) : ∃ t, frames k i s = .ok t := by
  induction k generalizing i s with
  | zero => exact ⟨_, frames_zero i s⟩
  | succ k ih =>
    have hfc : { s with fc := BitVec.ofNat Config.cntW i }.headsInRange = true := hh
    have hlatch : (latchParams { s with fc := BitVec.ofNat Config.cntW i }).headsInRange = true := by
      rw [headsInRange_congr (latchParams_left _) (latchParams_right _) (latchParams_conf _)]
      exact hfc
    simp only [frames, frame_of_inRange (show i < Config.ioLen by omega) hfc]
    exact ih (by omega) (frameBody_headsInRange i hlatch)

/-- A configured engine with legal heads has them in range (R43). -/
theorem headsInRange_of_headsOk {s : State} (h : s.headsOk = true) (hc : s.conf.cfg = true) :
    s.headsInRange = true := by
  simp only [State.headsOk, hc, Bool.not_true, Bool.false_or, Bool.and_eq_true] at h
  exact h.2

theorem execProcess_next {n : Nat} {s : State} (hn : countFits n = true) (hs : s.headsOk = true) :
    ∃ t, execProcess n s = .next t := by
  rcases execProcess_cases n s with ⟨-, h⟩ | ⟨-, t, -, h⟩ | ⟨hc, e, he, -⟩
  · exact ⟨_, h⟩
  · exact ⟨_, h⟩
  · have hle : 0 + n ≤ Config.ioLen := by
      have := (countFits_iff n).mp hn
      unfold Config.ioLen
      omega
    obtain ⟨t, ht⟩ := frames_of_inRange hle (headsInRange_of_headsOk hs hc)
    rw [he] at ht
    cases ht

/-- A command that a packet can carry answers a next state while the heads are legal. -/
theorem exec_next {i : Instr} {s : State} (hi : WellFormed i = true) (hs : s.headsOk = true) :
    ∃ t, exec i s = .next t := by
  cases i with
  | configure sr md =>
    rcases execConfigure_cases sr md s with ⟨-, h⟩ | ⟨n, -, h⟩ <;> exact ⟨_, h⟩
  | process n => exact execProcess_next hi hs
  | _ => exact ⟨_, rfl⟩

/-- Any packet, legal or not, is answered with a next state while the heads are legal. -/
theorem runPacketA_next (p : Packet) {s : State} (hs : s.headsOk = true) :
    ∃ t, runPacketA p s = .next t := by
  cases hd : decode .A p with
  | ok i =>
    rw [runPacketA_ok hd]
    exact exec_next (decode_wellFormed hd) hs
  | error e => exact ⟨_, runPacketA_error hd s⟩

theorem slot_headsOk (s : State) : (slot s).headsOk = s.headsOk := by
  unfold State.headsOk
  rw [headsInRange_congr (slot_left s) (slot_right s) (slot_conf s), slot_conf]

theorem servePortA_next {s : State} (hs : s.headsOk = true)
    (hA : takePacket s.portA ≠ .malformed) : ∃ t, servePortA s = .next t := by
  cases hf : takePacket s.portA with
  | waiting => exact ⟨s, servePortA_waiting hf⟩
  | malformed => exact absurd hf hA
  | packet p rest =>
    rw [servePortA_packet hf]
    exact runPacketA_next p hs

/-- Settles O9: the step is port A's server on the state after the slot, which keeps port A and the heads. -/
theorem stepStopsOnlyOnMalformedStreams : Obligations.StepStopsOnlyOnMalformedStreams := by
  refine fun s => ⟨step_malformedB, fun hB => ?_⟩
  rw [step_eq_servePortA hB, ← slot_portA s]
  exact ⟨servePortA_waiting, fun hs hA => servePortA_next (by rw [slot_headsOk]; exact hs) hA,
    servePortA_malformed⟩

end Sys2Proof.Machine


/-! SUPPORT. What one command, one slot and one step can do to an invariant (R5, R6, R70), said once: a
predicate closed under the few moves below is kept by every step. -/

namespace Sys2Proof.Machine

/-! ## The five register writes as one relation (R190, R241) -/

/-- `t` is `s` after the register write of some SETPARAM, whichever port it came from. -/
inductive ParamWrite (s : State) : State → Prop
  | drywet (v : F64) : ParamWrite s (writeDrywet v s)
  | feedback (v : F64) : ParamWrite s (writeFeedback v s)
  | dtl (v : F64) : ParamWrite s (writeDtl v s)
  | dtr (v : F64) : ParamWrite s (writeDtr v s)
  | pingpong (u : OpWord) : ParamWrite s (writePingpong u s)

/-- A register write changes parameter registers only. -/
theorem ParamWrite.eq_with_params {s t : State} (h : ParamWrite s t) :
    t = { s with params := t.params } := by
  cases h <;> rfl

/-- On port B a command is a register write answered OK, or is answered IllegalCommand. -/
theorem controlWrite_cases (i : Instr) (s : State) :
    (∃ u, ParamWrite s u ∧ controlWrite i s = respond .B .ok u) ∨
      controlWrite i s = raiseError .B .illegalCommand s := by
  cases i with
  | configure sr md => exact .inr rfl
  | setparamDrywet v => exact .inl ⟨_, .drywet v, rfl⟩
  | setparamFeedback v => exact .inl ⟨_, .feedback v, rfl⟩
  | setparamDtl v => exact .inl ⟨_, .dtl v, rfl⟩
  | setparamDtr v => exact .inl ⟨_, .dtr v, rfl⟩
  | setparamPingpong u => exact .inl ⟨_, .pingpong u, rfl⟩
  | process n => exact .inr rfl

/-- What a command that answers a next state has done: nothing but its answer; a register write; a commit
of CONFIGURE; or the frames of PROCESS on a configured engine. -/
theorem exec_cases {i : Instr} {s t : State} (h : exec i s = .next t) :
    (∃ r, t = respond .A r s) ∨
    (∃ u, ParamWrite s u ∧ t = respond .A .ok u) ∨
    (∃ sr md n, i = .configure sr md ∧
      configureLength binary64 ⟨s.draws, .configure⟩ sr md = some n ∧
      t = respond .A .ok (configureCommit sr md n s)) ∨
    (∃ n u, i = .process n ∧ s.conf.cfg = true ∧ frames n 0 s = .ok u ∧ t = respond .A .ok u) := by
  cases i with
  | configure sr md =>
    replace h : execConfigure sr md s = .next t := h
    rcases execConfigure_cases sr md s with ⟨-, he⟩ | ⟨n, hn, he⟩
    · rw [he] at h
      cases h
      exact .inl ⟨_, rfl⟩
    · rw [he] at h
      cases h
      exact .inr (.inr (.inl ⟨sr, md, n, rfl, hn, rfl⟩))
  | setparamDrywet v => cases h; exact .inr (.inl ⟨_, .drywet v, rfl⟩)
  | setparamFeedback v => cases h; exact .inr (.inl ⟨_, .feedback v, rfl⟩)
  | setparamDtl v => cases h; exact .inr (.inl ⟨_, .dtl v, rfl⟩)
  | setparamDtr v => cases h; exact .inr (.inl ⟨_, .dtr v, rfl⟩)
  | setparamPingpong u => cases h; exact .inr (.inl ⟨_, .pingpong u, rfl⟩)
  | process n =>
    replace h : execProcess n s = .next t := h
    rcases execProcess_cases n s with ⟨-, he⟩ | ⟨hc, u, hu, he⟩ | ⟨-, e, -, he⟩
    · rw [he] at h
      cases h
      exact .inl ⟨_, rfl⟩
    · rw [he] at h
      cases h
      exact .inr (.inr (.inr ⟨n, u, rfl, hc, hu, rfl⟩))
    · rw [he] at h
      cases h

/-! ## Step invariants -/

/-- What makes a predicate an invariant of the machine: it looks at no port, no latch and not at `FC`, and
register writes, CONFIGURE's commit and the frames of a configured engine keep it. -/
structure StepInvariant (P : State → Prop) : Prop where
  ports : ∀ s pa pb wb ra rb, P s →
    P { s with portA := pa, portB := pb, wireB := wb, rspA := ra, rspB := rb }
  latch : ∀ s l f, P s → P { s with latch := l, fc := f }
  write : ∀ s t, P s → ParamWrite s t → P t
  configure : ∀ s sr md n, P s →
    configureLength binary64 ⟨s.draws, .configure⟩ sr md = some n → P (configureCommit sr md n s)
  frame : ∀ i s, i < Config.ioLen → s.conf.cfg = true → s.headsInRange = true → P s →
    P (latchParams s) → P (frameBody i (latchParams s))

namespace StepInvariant

variable {P : State → Prop} (hP : StepInvariant P)
include hP

theorem respond {s : State} (p : Port) (r : Response) (h : P s) : P (respond p r s) := by
  cases p with
  | A => exact hP.ports s s.portA s.portB s.wireB _ s.rspB h
  | B => exact hP.ports s s.portA s.portB s.wireB s.rspA _ h

theorem controlWrite {s : State} (i : Instr) (h : P s) : P (controlWrite i s) := by
  rcases controlWrite_cases i s with ⟨u, hu, he⟩ | he
  · exact he ▸ hP.respond .B .ok (hP.write s u h hu)
  · exact he ▸ hP.respond .B .illegalCommand h

theorem slot {s : State} (h : P s) : P (slot s) :=
  slot_keeps P (fun i _ hs => hP.controlWrite i hs) (fun _ hs => hP.respond .B .illegalCommand hs)
    (fun s pb wb hs => hP.ports s s.portA pb wb s.rspA s.rspB hs) s h

theorem latchParams {s : State} (h : P s) : P (latchParams s) :=
  latchParams_keeps P (fun _ hs => hP.slot hs) (fun _ s hs => hP.latch s _ s.fc hs) s h

/-- A block of frames on a configured engine keeps it. -/
theorem frames {k i : Nat} {s t : State} (hc : s.conf.cfg = true)
    (h : frames k i s = .ok t) (hs : P s) : P t := by
  refine (frames_keeps (fun u => P u ∧ u.conf.cfg = true)
    (fun u f hu => ⟨hP.latch u u.latch f hu.1, hu.2⟩) (fun j u hj hh hu => ?_) h ⟨hs, hc⟩).1
  exact ⟨hP.frame j u hj hu.2 hh hu.1 (hP.latchParams hu.1), by simpa using hu.2⟩

theorem exec {i : Instr} {s t : State} (hs : P s) (h : exec i s = .next t) : P t := by
  rcases exec_cases h with ⟨r, rfl⟩ | ⟨u, hu, rfl⟩ | ⟨sr, md, n, -, hn, rfl⟩ | ⟨n, u, -, hc, hu, rfl⟩
  · exact hP.respond .A r hs
  · exact hP.respond .A .ok (hP.write s u hs hu)
  · exact hP.respond .A .ok (hP.configure s sr md n hs hn)
  · exact hP.respond .A .ok (hP.frames hc hu hs)

/-- Every step keeps it. -/
theorem step {s t : State} (hs : P s) (h : step s = .next t) : P t :=
  step_keeps P (fun _ hu => hP.slot hu)
    (fun u w hu => hP.ports u w u.portB u.wireB u.rspA u.rspB hu)
    (fun r _ hu => hP.respond .A r hu) (fun _ _ _ hu he => hP.exec hu he) hs h

end StepInvariant

/-! ## What a frame does to each channel (R140, R171) -/

@[simp] theorem frameBody_left_buf (i : Nat) (s : State) :
    (frameBody i s).left.buf = Memory.write Config.plusZero s.left.buf s.left.wh.toNat
      (writeValue binary64 s.draws .left (Memory.read Config.plusZero s.io0 i) s.left.fb) := by
  simp [frameBody, frameCore, commitFeedback_eq, binary64]

@[simp] theorem frameBody_right_buf (i : Nat) (s : State) :
    (frameBody i s).right.buf = Memory.write Config.plusZero s.right.buf s.right.wh.toNat
      (writeValue binary64 s.draws .right (Memory.read Config.plusZero s.io1 i) s.right.fb) := by
  simp [frameBody, frameCore, commitFeedback_eq, binary64]

@[simp] theorem frameBody_left_wh (i : Nat) (s : State) :
    (frameBody i s).left.wh = advanceHead s.left.wh s.conf.len.toNat := (frameBody_wh i s).1

@[simp] theorem frameBody_right_wh (i : Nat) (s : State) :
    (frameBody i s).right.wh = advanceHead s.right.wh s.conf.len.toNat := (frameBody_wh i s).2

@[simp] theorem frameBody_left_sm (i : Nat) (s : State) :
    (frameBody i s).left.sm = smoothStep binary64 s.draws .left s.left.sm s.latch.ldt0 := by
  simp [frameBody, frameCore, commitFeedback_eq]

@[simp] theorem frameBody_right_sm (i : Nat) (s : State) :
    (frameBody i s).right.sm = smoothStep binary64 s.draws .right s.right.sm s.latch.ldt1 := by
  simp [frameBody, frameCore, commitFeedback_eq]

/-- A frame writes one entry of each block memory, at its own index (R171). -/
theorem frameBody_io0 (i : Nat) (s : State) :
    ∃ v, (frameBody i s).io0 = Memory.write Config.plusZero s.io0 i v := ⟨_, rfl⟩

theorem frameBody_io1 (i : Nat) (s : State) :
    ∃ v, (frameBody i s).io1 = Memory.write Config.plusZero s.io1 i v := ⟨_, rfl⟩

/-! ## Equal heads (R22) -/

theorem headsEqual_stepInvariant : StepInvariant (fun s => s.headsEqual = true) where
  ports _ _ _ _ _ _ h := h
  latch _ _ _ h := h
  write s t h hw := by
    rw [hw.eq_with_params]
    exact h
  configure s sr md n _ _ := by simp [State.headsEqual, clearedChannel]
  frame i s _ _ _ h _ := by
    simp only [State.headsEqual, decide_eq_true_eq] at h
    simp [State.headsEqual, h]

/-- Settles O55: each frame advances both heads by the same rule, and CONFIGURE clears both. -/
theorem stepKeepsHeadsEqual : Obligations.StepKeepsHeadsEqual :=
  fun _ _ hs h => headsEqual_stepInvariant.step hs h

/-! ## Heads in range (R29, R43) -/

/-- A length register holds every length CONFIGURE accepts. -/
theorem configureLength_toNat {N : Numerics F64} {d : Config.Draw} {sr md : F64} {n : Nat}
    (h : configureLength N d sr md = some n) : (BitVec.ofNat Config.lenW n).toNat = n :=
  toNat_ofNat_lenW (Nat.lt_of_le_of_lt (configureLength_bounds h).2 (by decide))

theorem latchParams_headsInRange (s : State) : (latchParams s).headsInRange = s.headsInRange :=
  headsInRange_congr (latchParams_left s) (latchParams_right s) (latchParams_conf s)

theorem headsOk_stepInvariant : StepInvariant (fun s => s.headsOk = true) where
  ports _ _ _ _ _ _ h := h
  latch _ _ _ h := h
  write s t h hw := by
    rw [hw.eq_with_params]
    exact h
  configure s sr md n _ hn := by
    obtain ⟨h1, hmax⟩ := configureLength_bounds hn
    simp [State.headsOk, State.headsInRange, clearedChannel, configureLength_toNat hn, h1, hmax,
      Nat.lt_of_lt_of_le Nat.one_pos h1]
  frame i s _ hc hh _ h := by
    have hr : (frameBody i (latchParams s)).headsInRange = true :=
      frameBody_headsInRange i ((latchParams_headsInRange s).trans hh)
    simp only [State.headsOk, latchParams_conf, hc, Bool.not_true, Bool.false_or,
      Bool.and_eq_true] at h
    simp only [State.headsOk, frameBody_conf, latchParams_conf, hc, Bool.not_true, Bool.false_or,
      Bool.and_eq_true]
    exact ⟨h.1, hr⟩

/-- Settles O54: CONFIGURE's length is bounded and its heads are 0; a frame wraps the heads at `LEN`. -/
theorem stepKeepsHeadsInRange : Obligations.StepKeepsHeadsInRange :=
  fun _ _ hs h => headsOk_stepInvariant.step hs h

/-! ## Canonical memories (R43, R60) -/

theorem memoryOk_iff (s : State) :
    s.memoryOk = true ↔
      (Memory.wf Config.plusZero s.left.buf = true ∧ Memory.wf Config.plusZero s.right.buf = true) ∧
      (Memory.wf Config.plusZero s.io0 = true ∧ Memory.wf Config.plusZero s.io1 = true) ∧
      (Memory.within Config.ioLen s.io0 = true ∧ Memory.within Config.ioLen s.io1 = true) ∧
      (s.conf.cfg = true → Memory.within s.conf.len.toNat s.left.buf = true ∧
        Memory.within s.conf.len.toNat s.right.buf = true) := by
  cases hc : s.conf.cfg <;> simp [State.memoryOk, hc, and_assoc]

theorem memoryOk_stepInvariant : StepInvariant (fun s => s.memoryOk = true) where
  ports _ _ _ _ _ _ h := h
  latch _ _ _ h := h
  write s t h hw := by
    rw [hw.eq_with_params]
    exact h
  configure s sr md n h _ := by
    obtain ⟨-, hio, hin, -⟩ := (memoryOk_iff s).mp h
    rw [memoryOk_iff]
    exact ⟨⟨memory_cleared_wf, memory_cleared_wf⟩, hio, hin,
      fun _ => ⟨memory_cleared_within _, memory_cleared_within _⟩⟩
  frame i s hi hc hh h _ := by
    obtain ⟨⟨hl, hr⟩, ⟨h0, h1⟩, ⟨w0, w1⟩, hb⟩ := (memoryOk_iff s).mp h
    obtain ⟨wl, wr⟩ := hb hc
    obtain ⟨hwl, hwr⟩ := (headsInRange_iff s).mp hh
    obtain ⟨v0, hv0⟩ := frameBody_io0 i (latchParams s)
    obtain ⟨v1, hv1⟩ := frameBody_io1 i (latchParams s)
    simp only [memoryOk_iff, frameBody_left_buf, frameBody_right_buf, frameBody_conf, hv0, hv1,
      latchParams_left, latchParams_right, latchParams_conf, latchParams_io0, latchParams_io1]
    exact ⟨⟨memory_write_wf _ _ hl, memory_write_wf _ _ hr⟩,
      ⟨memory_write_wf i v0 h0, memory_write_wf i v1 h1⟩,
      ⟨memory_write_within v0 w0 hi, memory_write_within v1 w1 hi⟩,
      fun _ => ⟨memory_write_within _ wl hwl, memory_write_within _ wr hwr⟩⟩

/-- Settles O53: every write is canonical and at an index inside its space. -/
theorem stepKeepsMemoryCanonical : Obligations.StepKeepsMemoryCanonical :=
  fun _ _ hs h => memoryOk_stepInvariant.step hs h

end Sys2Proof.Machine


/-! SUPPORT. The configuration and the parameter registers (R27 to R36, R44): what CONFIGURE accepts, what
a clamp stores, and that every step keeps both legal; the configured flag (R31); the reset state (R50). -/

namespace Sys2Proof.Machine

/-! ## What CONFIGURE accepts (R120 to R123) -/

theorem positiveFinite_iff (v : F64) :
    positiveFinite binary64 v = true ↔ f64Gt v Config.plusZero = true ∧ f64IsFinite v = true := by
  simp [positiveFinite, binary64]

theorem not_nan_of_finite {x : F64} (h : f64IsFinite x = true) : f64IsNaN x = false := by
  rcases f64Value_cases x with ⟨-, hv⟩ | ⟨hn, -⟩ | ⟨hn, -⟩
  · obtain ⟨u, hu⟩ := (f64IsFinite_iff x).mp h
    rw [hv] at hu
    cases hu
  · exact hn
  · exact hn

theorem configureLength_operands {α : Type} {N : Numerics α} {d : Config.Draw} {sr md : α} {n : Nat}
    (h : configureLength N d sr md = some n) :
    positiveFinite N sr = true ∧ positiveFinite N md = true := by
  unfold configureLength at h
  split_ifs at h with hsr hmd
  exact ⟨by simpa using hsr, by simpa using hmd⟩

/-- The product of finite operands is no invalid operation, so it reads no free value (R203). -/
theorem f64Mul_draw {a b : F64} (ha : f64IsFinite a = true) (hb : f64IsFinite b = true)
    (d d' : Config.Draw) : f64Mul d a b = f64Mul d' a b := by
  obtain ⟨x, hx⟩ := (f64IsFinite_iff a).mp ha
  obtain ⟨y, hy⟩ := (f64IsFinite_iff b).mp hb
  rw [f64Mul_finite d hx hy, f64Mul_finite d' hx hy]

/-- Nor does the rounding of a finite value (R205). -/
theorem f64RoundHalfAway_draw {a : F64} (ha : f64IsFinite a = true) (d d' : Config.Draw) :
    f64RoundHalfAway d a = f64RoundHalfAway d' a := by
  obtain ⟨x, hx⟩ := (f64IsFinite_iff a).mp ha
  unfold f64RoundHalfAway
  rw [hx]

/-- The length is a function of the operands alone (R128): it is the same under every draw. -/
theorem configureLength_draw (d d' : Config.Draw) (sr md : F64) :
    configureLength binary64 d sr md = configureLength binary64 d' sr md := by
  by_cases hsr : positiveFinite binary64 sr = true
  · by_cases hmd : positiveFinite binary64 md = true
    · have hmul : binary64.mul d sr md = binary64.mul d' sr md :=
        f64Mul_draw ((positiveFinite_iff sr).mp hsr).2 ((positiveFinite_iff md).mp hmd).2 d d'
      unfold configureLength
      rw [hmul]
      dsimp only
      by_cases hp : binary64.isFinite (binary64.mul d' sr md) = true
      · have hround : binary64.roundHalfAway d (binary64.mul d' sr md) =
            binary64.roundHalfAway d' (binary64.mul d' sr md) := f64RoundHalfAway_draw hp d d'
        rw [hround]
      · simp [hp]
    · simp [configureLength, hmd]
  · simp [configureLength, hsr]

/-! ## What a clamp stores (R10, R192 to R195) -/

theorem clamp_between {lo hi : F64} (v : F64) (h : f64Le lo hi = true) :
    f64Le lo (clamp binary64 v lo hi) = true ∧ f64Le (clamp binary64 v lo hi) hi = true := by
  obtain ⟨hlo, hhi⟩ := f64Le_not_nan h
  by_cases hv : f64Le lo v = true
  · by_cases hgt : f64Gt v hi = true
    · rw [clamp_of_gt h hgt]
      exact ⟨h, f64Le_refl hhi⟩
    · have hle : f64Le v hi = true := by simpa [f64Gt_eq_not_le (f64Le_not_nan hv).2 hhi] using hgt
      rw [clamp_of_inRange hv hle]
      exact ⟨hv, hle⟩
  · rw [clamp_of_below h (by simpa using hv)]
    exact ⟨f64Le_refl hlo, h⟩

theorem clamp_inRange {lo hi : F64} (v : F64) (h : f64Le lo hi = true) :
    inRange (clamp binary64 v lo hi) lo hi = true := by
  simpa [inRange, f64Ge] using clamp_between v h

theorem drywetOperand_inRange (v : F64) :
    inRange (drywetOperand v) Config.dwMin Config.dwMax = true :=
  clamp_inRange v (by decide +kernel)

theorem feedbackOperand_inRange (v : F64) :
    inRange (feedbackOperand v) Config.fbMin Config.fbMax = true :=
  clamp_inRange v (by decide +kernel)

theorem delayLegal_configured {c : Conf} (hc : c.cfg = true) (v : F64) :
    delayLegal c v = true ↔ f64Le v c.maxd = true ∧ (f64Le Config.dtMin v = true ∨ v = c.maxd) := by
  simp [delayLegal, hc, f64Ge]

/-- What DTL and DTR store is legal, also where `MAXD` lies below `DT_MIN` (R34, R195). -/
theorem delayOperand_legal {c : Conf} (hn : c.cfg = true → f64IsNaN c.maxd = false) (v : F64) :
    delayLegal c (delayOperand c v) = true := by
  cases hc : c.cfg with
  | false =>
    have hinf : f64Le Config.dtMin Config.plusInfinity = true := by decide +kernel
    simpa [delayLegal, delayOperand, delayUpper, hc, f64Ge] using (clamp_between v hinf).1
  | true =>
    have hupper : delayUpper c = c.maxd := by simp [delayUpper, hc]
    rw [delayLegal_configured hc, delayOperand, hupper]
    by_cases hle : f64Le Config.dtMin c.maxd = true
    · exact ⟨(clamp_between v hle).2, .inl (clamp_between v hle).1⟩
    · have hempty : f64Gt Config.dtMin c.maxd = true := by
        simpa [f64Gt_eq_not_le (show f64IsNaN Config.dtMin = false by decide +kernel) (hn hc)]
          using hle
      rw [clamp_of_empty hempty]
      exact ⟨f64Le_refl (hn hc), .inr rfl⟩

/-! ## Legal registers (R27, R28, R29, R44) -/

theorem confOk_iff (s : State) :
    s.confOk = true ↔ (s.conf.cfg = true →
      positiveFinite binary64 s.conf.sr = true ∧ positiveFinite binary64 s.conf.maxd = true ∧
      configureLength binary64 ⟨0, .configure⟩ s.conf.sr s.conf.maxd = some s.conf.len.toNat) := by
  cases hc : s.conf.cfg <;> simp [State.confOk, hc, and_assoc]

theorem paramsOk_iff (s : State) :
    s.paramsOk = true ↔
      inRange s.params.drywet Config.dwMin Config.dwMax = true ∧
      inRange s.params.feedback Config.fbMin Config.fbMax = true ∧
      delayLegal s.conf s.params.dtl = true ∧ delayLegal s.conf s.params.dtr = true := by
  simp [State.paramsOk, and_assoc]

/-- A legal `MAXD` is no NaN (R28). -/
theorem maxd_not_nan {s : State} (h : s.confOk = true) (hc : s.conf.cfg = true) :
    f64IsNaN s.conf.maxd = false := by
  obtain ⟨-, hmd, -⟩ := (confOk_iff s).mp h hc
  exact not_nan_of_finite ((positiveFinite_iff _).mp hmd).2

theorem configureCommit_confOk {sr md : F64} {n : Nat} {d : Config.Draw} (s : State)
    (h : configureLength binary64 d sr md = some n) : (configureCommit sr md n s).confOk = true := by
  obtain ⟨hsr, hmd⟩ := configureLength_operands h
  rw [configureLength_draw d ⟨0, .configure⟩] at h
  simp only [confOk_iff, configureCommit_conf, configureLength_toNat h]
  exact fun _ => ⟨hsr, hmd, h⟩

/-- The configuration registers and the parameter registers are legal. -/
def RegistersLegal (s : State) : Prop := s.confOk = true ∧ s.paramsOk = true

/-- A register write stores a legal value and touches no other register. -/
theorem ParamWrite.registersLegal {s t : State} (hw : ParamWrite s t) (h : RegistersLegal s) :
    RegistersLegal t := by
  obtain ⟨hc, hp⟩ := h
  obtain ⟨hdw, hfb, hl, hr⟩ := (paramsOk_iff s).mp hp
  refine ⟨by rw [hw.eq_with_params]; exact hc, (paramsOk_iff t).mpr ?_⟩
  cases hw with
  | drywet v => exact ⟨drywetOperand_inRange v, hfb, hl, hr⟩
  | feedback v => exact ⟨hdw, feedbackOperand_inRange v, hl, hr⟩
  | dtl v => exact ⟨hdw, hfb, delayOperand_legal (maxd_not_nan hc) v, hr⟩
  | dtr v => exact ⟨hdw, hfb, hl, delayOperand_legal (maxd_not_nan hc) v⟩
  | pingpong u => exact ⟨hdw, hfb, hl, hr⟩

theorem registersLegal_stepInvariant : StepInvariant RegistersLegal where
  ports _ _ _ _ _ _ h := h
  latch _ _ _ h := h
  write _ _ h hw := hw.registersLegal h
  configure s sr md n h hn := by
    obtain ⟨hdw, hfb, -, -⟩ := (paramsOk_iff s).mp h.2
    have hc := configureCommit_confOk s hn
    refine ⟨hc, (paramsOk_iff _).mpr ⟨hdw, hfb, ?_, ?_⟩⟩
    · exact delayOperand_legal (maxd_not_nan hc) s.params.dtl
    · exact delayOperand_legal (maxd_not_nan hc) s.params.dtr
  frame i s _ _ _ _ h := by
    unfold RegistersLegal State.confOk State.paramsOk at h ⊢
    rwa [frameBody_conf, frameBody_params]

/-- Settles O56: every register write stores a clamped value, and CONFIGURE clamps the two delay times
again to its own `MAXD`. -/
theorem stepKeepsParametersLegal : Obligations.StepKeepsParametersLegal :=
  fun _ _ hc hp h => registersLegal_stepInvariant.step ⟨hc, hp⟩ h

/-! ## Who changes the configuration (R31, R52) -/

theorem frames_conf {k i : Nat} {s t : State} (h : frames k i s = .ok t) : t.conf = s.conf :=
  frames_keeps (fun u => u.conf = s.conf) (fun _ _ hu => hu)
    (fun _ _ _ _ hu => by rw [frameBody_conf, latchParams_conf, hu]) h rfl

theorem configured_stepInvariant : StepInvariant (fun s => s.conf.cfg = true) where
  ports _ _ _ _ _ _ h := h
  latch _ _ _ h := h
  write s t h hw := by
    rw [hw.eq_with_params]
    exact h
  configure _ _ _ _ _ _ := rfl
  frame i s _ _ _ _ h := by rwa [frameBody_conf]

/-- Settles O58: of all a command can do, only CONFIGURE's commit writes the configuration. -/
theorem onlyConfigureChangesTheConfiguration : Obligations.OnlyConfigureChangesTheConfiguration := by
  refine ⟨fun s t hc h => configured_stepInvariant.step hc h, fun i s t h hne => ?_⟩
  rcases exec_cases h with ⟨r, rfl⟩ | ⟨u, hu, rfl⟩ | ⟨sr, md, n, hi, -, rfl⟩ | ⟨n, u, -, -, hu, rfl⟩
  · exact absurd (respond_conf _ _ _) hne
  · rw [respond_conf, hu.eq_with_params] at hne
    exact absurd rfl hne
  · exact ⟨sr, md, hi, rfl⟩
  · rw [respond_conf] at hne
    exact absurd (frames_conf hu) hne

/-! ## Reset (R50) -/

/-- Settles O51, by reading `State.reset`. -/
theorem resetLeavesTheSpecValues : Obligations.ResetLeavesTheSpecValues :=
  ⟨rfl, rfl, rfl, rfl, rfl, rfl, rfl, rfl, rfl, rfl, rfl, rfl⟩

theorem reset_registersLegal : RegistersLegal State.reset := by
  refine ⟨rfl, (paramsOk_iff _).mpr ⟨?_, ?_, ?_, ?_⟩⟩ <;> decide +kernel

/-- Settles O52: the memories are empty, the heads equal, `CFG` is 0 and the registers legal. -/
theorem resetMeetsEveryInvariant : Obligations.ResetMeetsEveryInvariant := by
  obtain ⟨hc, hp⟩ := reset_registersLegal
  have hmem : State.reset.memoryOk = true := rfl
  have hheads : State.reset.headsOk = true := rfl
  have hequal : State.reset.headsEqual = true := rfl
  have hsmooth : State.reset.smoothOk = true := rfl
  simp only [Obligations.ResetMeetsEveryInvariant, State.Inv, hmem, hheads, hequal, hc, hp, hsmooth,
    Bool.and_self]

end Sys2Proof.Machine


/-! SUPPORT. What a block of frames writes and what it leaves alone (R52, R143, R149, R171), and the frame
of PROCESS. -/

namespace Sys2Proof.Machine

/-! ## One frame, said for either channel -/

@[simp] theorem latchParams_chan (s : State) (c : Chan) : (latchParams s).chan c = s.chan c := by
  cases c
  · exact latchParams_left s
  · exact latchParams_right s

@[simp] theorem latchParams_io (s : State) (c : Chan) : (latchParams s).io c = s.io c := by
  cases c
  · exact latchParams_io0 s
  · exact latchParams_io1 s

/-- A frame writes one entry of each buffer, at the write head (R143). -/
theorem frameBody_chan_buf (i : Nat) (s : State) (c : Chan) :
    ∃ v, ((frameBody i s).chan c).buf =
      Memory.write Config.plusZero (s.chan c).buf (s.chan c).wh.toNat v := by
  cases c
  · exact ⟨_, frameBody_left_buf i s⟩
  · exact ⟨_, frameBody_right_buf i s⟩

theorem frameBody_chan_wh (i : Nat) (s : State) (c : Chan) :
    ((frameBody i s).chan c).wh = advanceHead (s.chan c).wh s.conf.len.toNat := by
  cases c
  · exact frameBody_left_wh i s
  · exact frameBody_right_wh i s

theorem frameBody_io (i : Nat) (s : State) (c : Chan) :
    ∃ v, (frameBody i s).io c = Memory.write Config.plusZero (s.io c) i v := by
  cases c
  · exact frameBody_io0 i s
  · exact frameBody_io1 i s

theorem headsInRange_iff_chan (s : State) :
    s.headsInRange = true ↔ ∀ c, (s.chan c).wh.toNat < s.conf.len.toNat := by
  rw [headsInRange_iff]
  exact ⟨fun h c => by cases c; exacts [h.1, h.2], fun h => ⟨h .left, h .right⟩⟩

/-- A head that has advanced `j` times modulo the length has, after step 8, advanced `j + 1` times (R149). -/
theorem advanceHead_mod {w len : BitVec Config.lenW} {a j : Nat} (hw : w.toNat < len.toNat)
    (h : w.toNat = (a + j) % len.toNat) :
    (advanceHead w len.toNat).toNat = (a + (j + 1)) % len.toNat := by
  rw [advanceHead_toNat hw, ← Nat.add_assoc, ← Nat.mod_add_mod, ← h]
  split
  · next hwrap => rw [hwrap, Nat.mod_self]
  · exact (Nat.mod_eq_of_lt (by omega)).symm

/-! ## A block of frames -/

/-- Induction over the frames of a block with the number of the frame: what setting `FC` keeps, and every
frame carries from its index to the next, the block carries from its first index to the one after its
last. -/
theorem frames_keeps_indexed (P : Nat → State → Prop)
    (hfc : ∀ j s f, P j s → P j { s with fc := f })
    (hframe : ∀ j s, s.headsInRange = true → P j s → P (j + 1) (frameBody j (latchParams s)))
    {k i : Nat} {s t : State} (h : frames k i s = .ok t) (hs : P i s) : P (i + k) t := by
  induction k generalizing i s with
  | zero =>
    injection h with h
    exact h ▸ hfc i s _ hs
  | succ k ih =>
    obtain ⟨u, hu, hrest⟩ := frames_succ_ok h
    obtain ⟨-, hh, rfl⟩ := frame_ok hu
    rw [show i + (k + 1) = i + 1 + k by omega]
    exact ih hrest (hframe i _ hh (hfc i s _ hs))

/-- What the first `j` frames of a block from `s` have left in `u`: the heads moved `j` places around the
buffer, and nothing written but `j` entries of each block memory and the `j` buffer entries behind the
heads. -/
structure BlockKept (s : State) (j : Nat) (u : State) : Prop where
  conf : u.conf = s.conf
  portA : u.portA = s.portA
  bufWf : ∀ c, Memory.wf Config.plusZero (u.chan c).buf = true
  ioWf : ∀ c, Memory.wf Config.plusZero (u.io c) = true
  heads : u.headsInRange = true →
    ∀ c, (u.chan c).wh.toNat = ((s.chan c).wh.toNat + j) % s.conf.len.toNat
  io : ∀ c i, j ≤ i → u.ioRead c i = s.ioRead c i
  buf : ∀ c i, (∀ m, m < j → i ≠ ((s.chan c).wh.toNat + m) % s.conf.len.toNat) →
    u.bufRead c i = s.bufRead c i

theorem blockKept_zero {s : State} (h : s.memoryOk = true) : BlockKept s 0 s where
  conf := rfl
  portA := rfl
  bufWf c := by
    obtain ⟨⟨hl, hr⟩, -⟩ := (memoryOk_iff s).mp h
    cases c
    exacts [hl, hr]
  ioWf c := by
    obtain ⟨-, ⟨h0, h1⟩, -⟩ := (memoryOk_iff s).mp h
    cases c
    exacts [h0, h1]
  heads hh c := (Nat.mod_eq_of_lt ((headsInRange_iff_chan s).mp hh c)).symm
  io _ _ _ := rfl
  buf _ _ _ := rfl

theorem blockKept_frame {s u : State} {j : Nat} (hh : u.headsInRange = true)
    (h : BlockKept s j u) : BlockKept s (j + 1) (frameBody j (latchParams u)) where
  conf := by rw [frameBody_conf, latchParams_conf, h.conf]
  portA := by rw [frameBody_portA, latchParams_portA, h.portA]
  bufWf c := by
    obtain ⟨v, hv⟩ := frameBody_chan_buf j (latchParams u) c
    rw [hv, latchParams_chan]
    exact memory_write_wf _ v (h.bufWf c)
  ioWf c := by
    obtain ⟨v, hv⟩ := frameBody_io j (latchParams u) c
    rw [hv, latchParams_io]
    exact memory_write_wf _ v (h.ioWf c)
  heads _ c := by
    have hw := (headsInRange_iff_chan u).mp hh c
    have hj := h.heads hh c
    rw [← h.conf] at hj ⊢
    rw [frameBody_chan_wh, latchParams_chan, latchParams_conf]
    exact advanceHead_mod hw hj
  io c i hi := by
    obtain ⟨v, hv⟩ := frameBody_io j (latchParams u) c
    rw [State.ioRead, hv, latchParams_io, memory_read_write_other v (h.ioWf c) (by omega)]
    exact h.io c i (by omega)
  buf c i hi := by
    obtain ⟨v, hv⟩ := frameBody_chan_buf j (latchParams u) c
    have hne : i ≠ (u.chan c).wh.toNat := by
      rw [h.heads hh c]
      exact hi j (Nat.lt_succ_self j)
    rw [State.bufRead, hv, latchParams_chan, memory_read_write_other v (h.bufWf c) hne]
    exact h.buf c i fun m hm => hi m (by omega)

theorem frames_blockKept {n : Nat} {s t : State} (hm : s.memoryOk = true)
    (h : frames n 0 s = .ok t) : BlockKept s n t := by
  have hn := frames_keeps_indexed (BlockKept s)
    (fun j u f hu => ⟨hu.conf, hu.portA, hu.bufWf, hu.ioWf, hu.heads, hu.io, hu.buf⟩)
    (fun j u hh hu => blockKept_frame hh hu) h (blockKept_zero hm)
  rwa [Nat.zero_add] at hn

/-- No frame of a block runs with an empty buffer. -/
theorem frames_len_pos {k i m : Nat} {s t : State} (h : frames k i s = .ok t) (hm : m < k) :
    0 < s.conf.len.toNat := by
  cases k with
  | zero => exact absurd hm (Nat.not_lt_zero m)
  | succ k =>
    obtain ⟨u, hu, -⟩ := frames_succ_ok h
    obtain ⟨-, hh, -⟩ := frame_ok hu
    have hw := (headsInRange_iff_chan _).mp hh .left
    exact Nat.lt_of_le_of_lt (Nat.zero_le _) hw

/-- Without port-B traffic the parameter registers and port B are as the block found them (R176). -/
theorem frames_quiet {k i : Nat} {s t : State} (hq : s.quietB = true) (h : frames k i s = .ok t) :
    t.params = s.params ∧ t.portB = s.portB ∧ t.wireB = s.wireB ∧ t.rspB = s.rspB := by
  obtain ⟨hp, hw⟩ := (quietB_iff s).mp hq
  rw [hp, hw]
  refine frames_keeps
    (fun u => u.params = s.params ∧ u.portB = [] ∧ u.wireB = [] ∧ u.rspB = s.rspB)
    (fun _ _ hu => hu) (fun j u _ _ hu => ?_) h ⟨rfl, hp, hw, rfl⟩
  rw [frameBody_params, frameBody_portB, frameBody_wireB, frameBody_rspB,
    latchParams_quiet hu.2.1 hu.2.2.1]
  exact hu

/-- Settles O27: on an unconfigured engine only the answer is new; on a configured one what the frames
leave alone is `BlockKept`. -/
theorem processFrame : Obligations.ProcessFrame := by
  intro n s t hm h
  rcases execProcess_cases n s with ⟨hc, he⟩ | ⟨hc, u, hu, he⟩ | ⟨-, e, -, he⟩
  · cases he.symm.trans h
    exact ⟨rfl, rfl, fun _ _ _ => rfl, fun _ _ _ => rfl, fun _ _ _ _ _ => rfl,
      fun _ => ⟨rfl, rfl, rfl, rfl⟩, fun _ => rfl⟩
  · cases he.symm.trans h
    have hk := frames_blockKept hm hu
    refine ⟨hk.conf, hk.portA, hk.io, fun c i hi => hk.buf c i fun m hmn => ?_,
      fun _ c i _ hne => hk.buf c i hne, fun hq => frames_quiet (t := u) hq hu,
      fun h0 => by simp [hc] at h0⟩
    have hlt := Nat.mod_lt ((s.chan c).wh.toNat + m) (frames_len_pos hu hmn)
    omega
  · cases he.symm.trans h

end Sys2Proof.Machine


/-! SUPPORT. A slot commutes with whatever it does not read; so the latch is five slots and the registers
read at each (R172), and no step's outcome depends on the hidden state (R23, R38, R40, R51). -/

namespace Sys2Proof.Machine

/-! ## What a slot does not read -/

/-- A map of states that leaves port B alone, and that every packet served on port B commutes with, every
slot commutes with. -/
theorem slot_commutes (f : State → State)
    (hports : ∀ s pb wb, { f s with portB := pb, wireB := wb } = f { s with portB := pb, wireB := wb })
    (hB : ∀ s, (f s).portB = s.portB ∧ (f s).wireB = s.wireB)
    (hwrite : ∀ i s, controlWrite i (f s) = f (controlWrite i s))
    (hraise : ∀ s, raiseError .B .illegalCommand (f s) = f (raiseError .B .illegalCommand s))
    (s : State) : slot (f s) = f (slot s) := by
  have hpacket : ∀ p s, servePacketB p (f s) = f (servePacketB p s) := by
    intro p s
    unfold servePacketB
    split
    · exact hwrite _ s
    · exact hraise s
  have hrest : ∀ s rest, { f s with portB := rest } = f { s with portB := rest } := by
    intro s rest
    rw [← hports s rest s.wireB, ← (hB s).2]
  have hserve : ∀ fuel s, servePortB fuel (f s) = f (servePortB fuel s) := by
    intro fuel
    induction fuel with
    | zero => exact fun _ => rfl
    | succ fuel ih =>
      intro s
      simp only [servePortB, (hB s).1]
      split
      · rw [hrest, hpacket, ih]
      · rfl
      · rfl
  have hreceive : receiveB (f s) = f (receiveB s) := by
    unfold receiveB
    rw [(hB s).1, (hB s).2]
    exact hports s _ _
  unfold slot
  rw [hreceive, (hB _).1, hserve]

theorem slot_withLatch (l : Latches F64) (s : State) :
    slot { s with latch := l } = { slot s with latch := l } :=
  slot_commutes (fun u => { u with latch := l }) (fun _ _ _ => rfl) (fun _ => ⟨rfl, rfl⟩)
    (fun i _ => by cases i <;> rfl) (fun _ => rfl) s

/-! ## The latch as five slots (R172) -/

theorem latchRead_withLatch (f : Params → Latches F64 → Latches F64) (l : Latches F64) (s : State) :
    latchRead f { s with latch := l } = { slot s with latch := f (slot s).params l } := by
  rw [latchRead, slot_withLatch]
  rfl

/-- What the latch reads: each register after one slot more than the register before it. -/
def latchedParams (s : State) : Latches F64 :=
  { ldw := (slot^[1] s).params.drywet
    lfb := (slot^[2] s).params.feedback
    ldt0 := (slot^[3] s).params.dtl
    ldt1 := (slot^[4] s).params.dtr
    lpp := (slot^[5] s).params.pingpong }

/-- The latch is five slots, and depends on no latch's old value. -/
theorem latchParams_eq (s : State) :
    latchParams s = { slot^[5] s with latch := latchedParams s } := by
  have hfirst : latchDrywet s =
      { slot s with latch := { s.latch with ldw := (slot s).params.drywet } } :=
    latchRead_withLatch _ s.latch s
  unfold latchParams
  rw [hfirst, latchFeedback, latchRead_withLatch, latchDtl, latchRead_withLatch, latchDtr,
    latchRead_withLatch, latchPingpong, latchRead_withLatch]
  simp only [latchedParams, Function.iterate_succ_apply, Function.iterate_zero, id]

/-! ## The observable part commutes with answers and register writes -/

@[simp] theorem observable_observable (s : State) : s.observable.observable = s.observable := by
  cases hc : s.conf.cfg <;> simp [State.observable, hc, State.reset]

@[simp] theorem observable_cfg (s : State) : s.observable.conf.cfg = s.conf.cfg := by
  cases hc : s.conf.cfg <;> simp [State.observable, hc, State.reset]

@[simp] theorem observable_params (s : State) : s.observable.params = s.params := rfl

theorem respond_observable (p : Port) (r : Response) (s : State) :
    respond p r s.observable = (respond p r s).observable := by
  cases p <;> rfl

theorem delayOperand_observable (s : State) (v : F64) :
    delayOperand s.observable.conf v = delayOperand s.conf v := by
  cases hc : s.conf.cfg <;> simp [delayOperand, delayUpper, State.observable, hc, State.reset]

theorem writeDtl_observable (v : F64) (s : State) :
    writeDtl v s.observable = (writeDtl v s).observable := by
  rw [writeDtl, delayOperand_observable]
  rfl

theorem writeDtr_observable (v : F64) (s : State) :
    writeDtr v s.observable = (writeDtr v s).observable := by
  rw [writeDtr, delayOperand_observable]
  rfl

theorem controlWrite_observable (i : Instr) (s : State) :
    controlWrite i s.observable = (controlWrite i s).observable := by
  cases i with
  | setparamDtl v => simp only [controlWrite, writeDtl_observable, respond_observable]
  | setparamDtr v => simp only [controlWrite, writeDtr_observable, respond_observable]
  | _ => rfl

theorem slot_observable (s : State) : slot s.observable = (slot s).observable :=
  slot_commutes State.observable (fun _ _ _ => rfl) (fun _ => ⟨rfl, rfl⟩) controlWrite_observable
    (fun _ => rfl) s

theorem iterate_slot_observable (k : Nat) (s : State) :
    slot^[k] s.observable = (slot^[k] s).observable :=
  Function.Commute.iterate_left (f := slot) (g := State.observable) slot_observable k s

theorem latchedParams_observable (s : State) : latchedParams s.observable = latchedParams s := by
  simp only [latchedParams, iterate_slot_observable, observable_params]

/-! ## A configured engine's frames read no read head, no old latch and not `FC` -/

theorem observable_of_configured {s : State} (hc : s.conf.cfg = true) :
    s.observable = { s with
      left := { s.left with rh := Config.plusZero }
      right := { s.right with rh := Config.plusZero }
      latch := State.reset.latch
      fc := State.reset.fc } := by
  simp [State.observable, hc]

/-- A frame's body reads the latches and no read head. -/
theorem frameBody_observable (i : Nat) (l : Latches F64) {s : State} (hc : s.conf.cfg = true) :
    (frameBody i { s.observable with latch := l }).observable =
      (frameBody i { s with latch := l }).observable := by
  have hcl : (frameBody i { s with latch := l }).conf.cfg = true := hc
  have hco : (frameBody i { s.observable with latch := l }).conf.cfg = true := by
    rw [frameBody_conf]
    exact (observable_cfg s).trans hc
  rw [observable_of_configured hcl, observable_of_configured hco, observable_of_configured hc]
  simp only [frameBody, frameCore, processSample, commitFeedback_eq]

theorem latchParams_observable (s : State) :
    latchParams s.observable = { (slot^[5] s).observable with latch := latchedParams s } := by
  rw [latchParams_eq, iterate_slot_observable, latchedParams_observable]

theorem iterate_slot_conf (k : Nat) (s : State) : (slot^[k] s).conf = s.conf := by
  induction k generalizing s with
  | zero => rfl
  | succ k ih => rw [Function.iterate_succ_apply, ih, slot_conf]

theorem frame_observable (i : Nat) {s : State} (hc : s.conf.cfg = true) :
    Except.map State.observable (frame i s.observable) = Except.map State.observable (frame i s) := by
  have hheads : s.observable.headsInRange = s.headsInRange := by
    rw [observable_of_configured hc]
    rfl
  have hbody : (frameBody i (latchParams s.observable)).observable =
      (frameBody i (latchParams s)).observable := by
    rw [latchParams_observable, latchParams_eq]
    exact frameBody_observable i _ (by rw [iterate_slot_conf, hc])
  unfold frame
  rw [hheads]
  split
  · rfl
  · split
    · rfl
    · simp only [Except.map, hbody]

/-- Two results that agree under `f` are two states that do, or the same error. -/
theorem except_map_cases {f : State → State} {r r' : Except Fault State}
    (h : Except.map f r = Except.map f r') :
    (∃ u u', r = .ok u ∧ r' = .ok u' ∧ f u = f u') ∨ ∃ e, r = .error e ∧ r' = .error e := by
  cases r with
  | ok u =>
    cases r' with
    | ok u' => exact .inl ⟨u, u', rfl, rfl, Except.ok.inj h⟩
    | error e => cases h
  | error e =>
    cases r' with
    | ok u' => cases h
    | error e' => exact .inr ⟨e, rfl, by rw [Except.error.inj h]⟩

/-- States that show the same have frames that show the same. -/
theorem frame_congr (i : Nat) {s s' : State} (hc : s.conf.cfg = true)
    (h : s.observable = s'.observable) :
    Except.map State.observable (frame i s) = Except.map State.observable (frame i s') := by
  have hc' : s'.conf.cfg = true := by rw [← observable_cfg, ← h, observable_cfg, hc]
  rw [← frame_observable i hc, h, frame_observable i hc']

theorem frames_congr (k i : Nat) {s s' : State} (hc : s.conf.cfg = true)
    (h : s.observable = s'.observable) :
    Except.map State.observable (frames k i s) = Except.map State.observable (frames k i s') := by
  induction k generalizing i s s' with
  | zero =>
    simp only [frames_zero, Except.map, Except.ok.injEq]
    exact h
  | succ k ih =>
    have hframe := frame_congr i (s := { s with fc := BitVec.ofNat Config.cntW i })
      (s' := { s' with fc := BitVec.ofNat Config.cntW i }) hc h
    simp only [frames]
    rcases except_map_cases hframe with ⟨u, u', hu, hu', heq⟩ | ⟨e, he, he'⟩
    · obtain ⟨-, -, rfl⟩ := frame_ok hu
      rw [hu, hu']
      exact ih (i + 1) (by rw [frameBody_conf, latchParams_conf]; exact hc) heq
    · rw [he, he']

/-! ## No command and no step depends on the hidden state (R51) -/

theorem execConfigure_observable (sr md : F64) (s : State) :
    mapNext State.observable (execConfigure sr md s.observable) =
      mapNext State.observable (execConfigure sr md s) := by
  have hdraws : s.observable.draws = s.draws := rfl
  unfold execConfigure
  rw [hdraws]
  cases configureLength binary64 ⟨s.draws, .configure⟩ sr md with
  | none =>
    simp only [mapNext, raiseError_eq, respond_observable, observable_observable]
  | some n =>
    simp only [mapNext]
    rfl

theorem execProcess_observable (n : Nat) (s : State) :
    mapNext State.observable (execProcess n s.observable) =
      mapNext State.observable (execProcess n s) := by
  unfold execProcess State.configured
  rw [observable_cfg]
  cases hc : s.conf.cfg with
  | false =>
    simp [mapNext, raiseError_eq, respond_observable]
  | true =>
    have h := frames_congr n 0 ((observable_cfg s).trans hc) (observable_observable s)
    rcases except_map_cases h with ⟨u, u', hu, hu', heq⟩ | ⟨e, he, he'⟩
    · simp [hu, hu', mapNext, ← respond_observable, heq]
    · simp [he, he']

/-- No command depends on what is hidden: the register writes and the answers commute with hiding. -/
theorem exec_observable (i : Instr) (s : State) :
    mapNext State.observable (exec i s.observable) = mapNext State.observable (exec i s) := by
  have write : ∀ w : State → State, w s.observable = (w s).observable →
      mapNext State.observable (.next (respond .A .ok (w s.observable))) =
        mapNext State.observable (.next (respond .A .ok (w s))) := by
    intro w hw
    simp only [mapNext, hw, respond_observable, observable_observable]
  cases i with
  | configure sr md => exact execConfigure_observable sr md s
  | setparamDrywet v => exact write (writeDrywet v) rfl
  | setparamFeedback v => exact write (writeFeedback v) rfl
  | setparamDtl v => exact write (writeDtl v) (writeDtl_observable v s)
  | setparamDtr v => exact write (writeDtr v) (writeDtr_observable v s)
  | setparamPingpong u => exact write (writePingpong u) rfl
  | process n => exact execProcess_observable n s

theorem servePortA_observable (s : State) :
    mapNext State.observable (servePortA s.observable) = mapNext State.observable (servePortA s) := by
  have hA : s.observable.portA = s.portA := rfl
  cases hf : takePacket s.portA with
  | waiting =>
    rw [servePortA_waiting hf, servePortA_waiting (hA ▸ hf)]
    simp only [mapNext, observable_observable]
  | malformed => rw [servePortA_malformed hf, servePortA_malformed (hA ▸ hf)]
  | packet p rest =>
    have hrest : { s.observable with portA := rest } = { s with portA := rest }.observable := rfl
    rw [servePortA_packet hf, servePortA_packet (hA ▸ hf), hrest]
    unfold runPacketA
    split
    · exact exec_observable _ _
    · simp only [mapNext, raiseError_eq, respond_observable, observable_observable]

/-- A step from what a state shows gives what its step shows. -/
theorem step_observable (s : State) :
    mapNext State.observable (step s.observable) = mapNext State.observable (step s) := by
  have hB : (slot s).observable.portB = (slot s).portB := rfl
  unfold step
  rw [slot_observable, hB]
  split
  · rfl
  · exact servePortA_observable (slot s)

/-- Settles O59: two states that show the same have the one step of what they show. -/
theorem hiddenStateIsUnobservable : Obligations.HiddenStateIsUnobservable := by
  intro s s' h
  rw [← step_observable s, h, step_observable s']

end Sys2Proof.Machine


/-! SUPPORT. Rounding (R202) on magnitude patterns: the magnitude a pattern stands for, that rounding is
monotone and keeps what a pattern has, and so that a sum or a product between two finite values rounds
between them. -/

namespace Sys2Proof.Machine

/-! ## The magnitude of a pattern -/

/-- The magnitude, in units of 2^-1074, of the pattern `b` of bits 62..0. -/
def patternMag (b : Nat) : Nat :=
  if b / 2 ^ 52 = 0 then b % 2 ^ 52 else (2 ^ 52 + b % 2 ^ 52) * 2 ^ (b / 2 ^ 52 - 1)

/-- A word's magnitude is that of its pattern below the sign. -/
theorem f64Mag_eq_patternMag (x : F64) : f64Mag x = patternMag (x.toNat % 2 ^ 63) := by
  have hexp : x.toNat % 2 ^ 63 / 2 ^ 52 = x.toNat / 2 ^ 52 % 2 ^ 11 := by omega
  have hfrac : x.toNat % 2 ^ 63 % 2 ^ 52 = x.toNat % 2 ^ 52 := by omega
  unfold f64Mag patternMag f64Exp f64Frac
  rw [hexp, hfrac]

/-- A significand of at most 53 bits at exponent step `k`. It is also right for the significand `2^53`,
whose carry goes into the exponent. -/
theorem patternMag_step {k q : Nat} (hk : k = 0 ∨ 2 ^ 52 ≤ q) (hq : q ≤ 2 ^ 53) :
    patternMag (k * 2 ^ 52 + q) = q * 2 ^ k := by
  unfold patternMag
  rcases Nat.lt_or_ge q (2 ^ 52) with hlow | hlow
  · obtain rfl : k = 0 := by omega
    rw [if_pos (by omega)]
    omega
  · rcases Nat.lt_or_ge q (2 ^ 53) with hmid | htop
    · have hexp : (k * 2 ^ 52 + q) / 2 ^ 52 = k + 1 := by omega
      have hfrac : 2 ^ 52 + (k * 2 ^ 52 + q) % 2 ^ 52 = q := by omega
      rw [hexp, hfrac, if_neg (by omega), Nat.add_sub_cancel]
    · obtain rfl : q = 2 ^ 53 := by omega
      have hexp : (k * 2 ^ 52 + 2 ^ 53) / 2 ^ 52 = k + 2 := by omega
      have hfrac : (k * 2 ^ 52 + 2 ^ 53) % 2 ^ 52 = 0 := by omega
      rw [hexp, hfrac, if_neg (by omega), show k + 2 - 1 = k + 1 by omega, Nat.pow_succ 2 k]
      omega

/-- Every pattern is a significand at an exponent step. -/
theorem exists_step (b : Nat) :
    ∃ k q, b = k * 2 ^ 52 + q ∧ (k = 0 ∨ 2 ^ 52 ≤ q) ∧ q < 2 ^ 53 := by
  rcases Nat.lt_or_ge b (2 ^ 53) with h | h
  · exact ⟨0, b, by omega, .inl rfl, h⟩
  · exact ⟨b / 2 ^ 52 - 1, b - (b / 2 ^ 52 - 1) * 2 ^ 52, by omega, .inr (by omega), by omega⟩

theorem patternMag_strictMono : StrictMono patternMag := by
  refine strictMono_nat_of_lt_succ fun b => ?_
  obtain ⟨k, q, rfl, hk, hq⟩ := exists_step b
  rw [patternMag_step hk hq.le, Nat.add_assoc, patternMag_step (by omega) (by omega)]
  exact Nat.mul_lt_mul_of_pos_right (Nat.lt_succ_self q) (Nat.two_pow_pos k)

/-! ## Rounding is monotone and exact -/

theorem roundShift_mono {m m' : Nat} (k : Nat) (h : m ≤ m') : roundShift m k ≤ roundShift m' k := by
  have hdiv : m / 2 ^ k ≤ m' / 2 ^ k := Nat.div_le_div_right h
  rcases Nat.lt_or_eq_of_le hdiv with hlt | heq
  · rcases roundShift_cases m k with h1 | h1 <;> rcases roundShift_cases m' k with h2 | h2 <;> omega
  · have hmod : m % 2 ^ k ≤ m' % 2 ^ k := by
      have h1 := Nat.div_add_mod m (2 ^ k)
      have h2 := Nat.div_add_mod m' (2 ^ k)
      rw [heq] at h1
      omega
    unfold roundShift
    dsimp only
    rw [heq]
    split
    · next hup =>
      rw [if_pos (by omega)]
    · split <;> omega

/-- Rounding to nearest at most doubles: it goes up from at least half a unit only. -/
theorem roundShift_mul_le (m k : Nat) : roundShift m k * 2 ^ k ≤ 2 * m := by
  have hm := Nat.div_add_mod m (2 ^ k)
  unfold roundShift
  dsimp only
  rw [Nat.mul_comm (2 ^ k)] at hm
  split
  · next hup =>
    rw [Nat.add_mul, Nat.one_mul]
    rcases Nat.eq_zero_or_pos (m / 2 ^ k) with h0 | hpos
    · rw [h0] at hm ⊢
      omega
    · have : 1 * 2 ^ k ≤ m / 2 ^ k * 2 ^ k := Nat.mul_le_mul_right _ hpos
      omega
  · omega

/-- How many low bits rounding drops. -/
def roundDrop (m sh : Nat) : Nat := max sh (Nat.log2 m - 52)

theorem roundBits_eq (m sh : Nat) :
    roundBits m sh =
      min ((roundDrop m sh - sh) * 2 ^ 52 + roundShift m (roundDrop m sh)) f64InfBits := rfl

theorem le_roundDrop (m sh : Nat) : sh ≤ roundDrop m sh := Nat.le_max_left _ _

theorem roundDrop_mono {m m' : Nat} (sh : Nat) (h : m ≤ m') : roundDrop m sh ≤ roundDrop m' sh := by
  have hlog : Nat.log2 m ≤ Nat.log2 m' := by
    rw [Nat.log2_eq_log_two, Nat.log2_eq_log_two]
    exact Nat.log_mono_right h
  unfold roundDrop
  omega

/-- What is left after rounding has at most 53 bits, or is the carry out of them. -/
theorem roundShift_drop_le (m sh : Nat) : roundShift m (roundDrop m sh) ≤ 2 ^ 53 := by
  have hm : m < 2 ^ (53 + roundDrop m sh) := by
    refine Nat.lt_of_lt_of_le Nat.lt_log2_self (Nat.pow_le_pow_right (by decide) ?_)
    unfold roundDrop
    omega
  have hq : m / 2 ^ roundDrop m sh < 2 ^ 53 := by
    rwa [Nat.div_lt_iff_lt_mul (Nat.two_pow_pos _), ← Nat.pow_add]
  rcases roundShift_cases m (roundDrop m sh) with h | h <;> omega

/-- Where more is dropped than the format asks for, all 53 bits are used. -/
theorem le_roundShift_drop {m sh : Nat} (h : sh < roundDrop m sh) :
    2 ^ 52 ≤ roundShift m (roundDrop m sh) := by
  have hdrop : roundDrop m sh = Nat.log2 m - 52 := by
    unfold roundDrop at h ⊢
    omega
  have hne : m ≠ 0 := by
    rintro rfl
    simp [roundDrop, Nat.log2_zero] at h
  have hm : 2 ^ 52 * 2 ^ roundDrop m sh ≤ m := by
    rw [← Nat.pow_add, show 52 + roundDrop m sh = Nat.log2 m by omega]
    exact Nat.log2_self_le hne
  have hq : 2 ^ 52 ≤ m / 2 ^ roundDrop m sh := (Nat.le_div_iff_mul_le (Nat.two_pow_pos _)).mpr hm
  rcases roundShift_cases m (roundDrop m sh) with h | h <;> omega

/-- The magnitude that rounding leaves, before it is cut at the infinity. -/
theorem patternMag_roundDrop (m sh : Nat) :
    patternMag ((roundDrop m sh - sh) * 2 ^ 52 + roundShift m (roundDrop m sh)) =
      roundShift m (roundDrop m sh) * 2 ^ (roundDrop m sh - sh) := by
  refine patternMag_step ?_ (roundShift_drop_le m sh)
  rcases Nat.lt_or_ge sh (roundDrop m sh) with h | h
  · exact .inr (le_roundShift_drop h)
  · exact .inl (by omega)

theorem roundBits_mono {m m' : Nat} (sh : Nat) (h : m ≤ m') : roundBits m sh ≤ roundBits m' sh := by
  rw [roundBits_eq, roundBits_eq]
  refine min_le_min_right _ ?_
  have hsh := le_roundDrop m sh
  rcases Nat.lt_or_eq_of_le (roundDrop_mono sh h) with hlt | heq
  · have hlow := roundShift_drop_le m sh
    have hhigh : 2 ^ 52 ≤ roundShift m' (roundDrop m' sh) := le_roundShift_drop (by omega)
    omega
  · rw [heq]
    exact Nat.add_le_add_left (roundShift_mono _ h) _

/-- The magnitude of a significand drops exactly its exponent step. -/
theorem roundDrop_step {k q : Nat} (sh : Nat) (hk : k = 0 ∨ 2 ^ 52 ≤ q) (hq : q < 2 ^ 53) :
    roundDrop (q * 2 ^ k * 2 ^ sh) sh = k + sh := by
  have hm : q * 2 ^ k * 2 ^ sh = q * 2 ^ (k + sh) := by rw [Nat.pow_add, Nat.mul_assoc]
  unfold roundDrop
  rcases Nat.eq_zero_or_pos q with rfl | hpos
  · obtain rfl : k = 0 := by omega
    simp [Nat.log2_zero]
  · have hne : q * 2 ^ (k + sh) ≠ 0 := by positivity
    have hup : Nat.log2 (q * 2 ^ (k + sh)) < 53 + (k + sh) := by
      rw [Nat.log2_lt hne, Nat.pow_add 2 53]
      exact Nat.mul_lt_mul_of_pos_right hq (Nat.two_pow_pos _)
    rw [hm]
    rcases hk with rfl | hk
    · omega
    · have hlow : 52 + (k + sh) ≤ Nat.log2 (q * 2 ^ (k + sh)) := by
        rw [Nat.le_log2 hne, Nat.pow_add 2 52]
        exact Nat.mul_le_mul_right _ hk
      omega

/-- A magnitude that a pattern has is kept (R202). -/
theorem roundBits_patternMag (b sh : Nat) :
    roundBits (patternMag b * 2 ^ sh) sh = min b f64InfBits := by
  obtain ⟨k, q, rfl, hk, hq⟩ := exists_step b
  rw [patternMag_step hk hq.le, roundBits_eq, roundDrop_step sh hk hq, Nat.add_sub_cancel,
    Nat.mul_assoc, ← Nat.pow_add, roundShift_exact]

theorem roundBits_le_of_le {m sh b : Nat} (h : m ≤ patternMag b * 2 ^ sh) : roundBits m sh ≤ b := by
  have hmono := roundBits_mono sh h
  rw [roundBits_patternMag] at hmono
  exact hmono.trans (Nat.min_le_left _ _)

theorem le_roundBits_of_le {m sh b : Nat} (hb : b ≤ f64InfBits) (h : patternMag b * 2 ^ sh ≤ m) :
    b ≤ roundBits m sh := by
  have hmono := roundBits_mono sh h
  rwa [roundBits_patternMag, Nat.min_eq_left hb] at hmono

/-- Rounding once at most doubles a magnitude. -/
theorem patternMag_roundBits_mul_le (m sh : Nat) :
    patternMag (roundBits m sh) * 2 ^ sh ≤ 2 * m := by
  have hcut : patternMag (roundBits m sh) ≤
      roundShift m (roundDrop m sh) * 2 ^ (roundDrop m sh - sh) := by
    rw [← patternMag_roundDrop, roundBits_eq]
    exact patternMag_strictMono.monotone (Nat.min_le_left _ _)
  calc patternMag (roundBits m sh) * 2 ^ sh
      ≤ roundShift m (roundDrop m sh) * 2 ^ (roundDrop m sh - sh) * 2 ^ sh :=
        Nat.mul_le_mul_right _ hcut
    _ = roundShift m (roundDrop m sh) * 2 ^ roundDrop m sh := by
        rw [Nat.mul_assoc, ← Nat.pow_add, Nat.sub_add_cancel (le_roundDrop m sh)]
    _ ≤ 2 * m := roundShift_mul_le m _

/-! ## Finite words and their values -/

/-- The magnitude of a finite word is that of a pattern below the infinity's. -/
theorem exists_pattern_of_finite {w : F64} {v : Int} (h : f64Value w = .fin v) :
    ∃ p, p < f64InfBits ∧ patternMag p = v.natAbs := by
  rcases f64Value_cases w with ⟨-, hv⟩ | ⟨-, -, hv⟩ | ⟨-, hfin, hv⟩
  · simp [hv] at h
  · simp [hv] at h
  · rw [hv] at h
    injection h with h
    refine ⟨w.toNat % 2 ^ 63, ?_, ?_⟩
    · have hexp : f64Exp w ≠ 2047 := by simpa [f64IsFinite] using hfin
      have hlt := f64Exp_lt w
      unfold f64Exp at hexp hlt
      unfold f64InfBits
      omega
    · rw [← f64Mag_eq_patternMag, ← h]
      split <;> simp

theorem f64Value_pack (neg : Bool) {b : Nat} (h : b < f64InfBits) :
    f64Value (f64Pack neg b) =
      .fin (if neg then -(patternMag b : Int) else (patternMag b : Int)) := by
  unfold f64InfBits at h
  obtain ⟨hexp, hfrac, hsign⟩ := f64Pack_fields neg (bits := b) (by omega)
  have hmag : f64Mag (f64Pack neg b) = patternMag b := by
    unfold f64Mag patternMag
    rw [hexp, hfrac]
  unfold f64Value
  rw [if_neg (by omega), hmag, hsign]

/-- Negation flips the sign bit and keeps the pattern below it. -/
theorem f64Neg_fields (x : F64) :
    f64Exp (f64Neg x) = f64Exp x ∧ f64Frac (f64Neg x) = f64Frac x ∧
      f64Sign (f64Neg x) = !f64Sign x := by
  have hlow : (f64Neg x).toNat % 2 ^ 63 = x.toNat % 2 ^ 63 := by
    have hmask : (0x8000000000000000#64).toNat % 2 ^ 63 = 0 := by decide
    rw [f64Neg, BitVec.toNat_xor, Nat.xor_mod_two_pow, hmask, Nat.xor_zero]
  refine ⟨?_, ?_, ?_⟩
  · unfold f64Exp
    omega
  · unfold f64Frac
    omega
  · have hmask : (0x8000000000000000#64).getLsbD 63 = true := by decide
    rw [f64Sign, f64Neg, BitVec.getLsbD_xor, hmask, Bool.xor_true, f64Sign]

/-- On finite values negation is the negation. -/
theorem f64Value_neg {w : F64} {v : Int} (h : f64Value w = .fin v) :
    f64Value (f64Neg w) = .fin (-v) := by
  obtain ⟨hexp, hfrac, hsign⟩ := f64Neg_fields w
  have hmag : f64Mag (f64Neg w) = f64Mag w := by
    unfold f64Mag
    rw [hexp, hfrac]
  unfold f64Value at h ⊢
  rw [hexp, hfrac, hmag, hsign]
  split at h
  · split at h <;> cases h
  · next hfin =>
    injection h with h
    rw [if_neg hfin, ← h]
    cases f64Sign w <;> simp

/-! ## Rounding between two finite values -/

/-- A magnitude between two finite values rounds to a finite pattern, and to a magnitude between them. -/
theorem roundBits_between {m sh : Nat} {lo hi : F64} {l h : Int} (hlo : f64Value lo = .fin l)
    (hhi : f64Value hi = .fin h) (hl : l * 2 ^ sh ≤ (m : Int)) (hh : (m : Int) ≤ h * 2 ^ sh) :
    roundBits m sh < f64InfBits ∧ l ≤ (patternMag (roundBits m sh) : Int) ∧
      (patternMag (roundBits m sh) : Int) ≤ h := by
  obtain ⟨p, hp, hpl⟩ := exists_pattern_of_finite hlo
  obtain ⟨q, hq, hqh⟩ := exists_pattern_of_finite hhi
  have hh0 : 0 ≤ h := nonneg_of_mul_nonneg_left ((Int.natCast_nonneg m).trans hh) (by positivity)
  have hqh' : (patternMag q : Int) = h := by rw [hqh, Int.natAbs_of_nonneg hh0]
  have hle : roundBits m sh ≤ q := roundBits_le_of_le (by rw [← hqh'] at hh; exact_mod_cast hh)
  refine ⟨hle.trans_lt hq, ?_, hqh' ▸ Int.ofNat_le.mpr (patternMag_strictMono.monotone hle)⟩
  rcases le_total l 0 with hl0 | hl0
  · exact hl0.trans (Int.natCast_nonneg _)
  · have hpl' : (patternMag p : Int) = l := by rw [hpl, Int.natAbs_of_nonneg hl0]
    have hge : p ≤ roundBits m sh :=
      le_roundBits_of_le hp.le (by rw [← hpl'] at hl; exact_mod_cast hl)
    exact hpl' ▸ Int.ofNat_le.mpr (patternMag_strictMono.monotone hge)

/-- An exact result between two finite values rounds to a finite value between them, and at most doubles.
The sign of a zero result is free. -/
theorem round_between {z : Int} {sh : Nat} {neg : Bool} {lo hi : F64} {l h : Int}
    (hneg : z ≠ 0 → neg = decide (z < 0)) (hlo : f64Value lo = .fin l) (hhi : f64Value hi = .fin h)
    (hl : l * 2 ^ sh ≤ z) (hh : z ≤ h * 2 ^ sh) :
    ∃ r, f64Value (f64Pack neg (roundBits z.natAbs sh)) = .fin r ∧ l ≤ r ∧ r ≤ h ∧
      |r| * 2 ^ sh ≤ 2 * |z| := by
  have hdouble : (patternMag (roundBits z.natAbs sh) : Int) * 2 ^ sh ≤ 2 * |z| := by
    rw [Int.abs_eq_natAbs]
    exact_mod_cast patternMag_roundBits_mul_le z.natAbs sh
  rcases lt_trichotomy z 0 with hz | rfl | hz
  · obtain ⟨hfin, hge, hle⟩ := roundBits_between (m := z.natAbs) (sh := sh)
      (f64Value_neg hhi) (f64Value_neg hlo) (by rw [neg_mul]; omega) (by rw [neg_mul]; omega)
    refine ⟨-patternMag (roundBits z.natAbs sh), ?_, by omega, by omega, by simpa using hdouble⟩
    rw [f64Value_pack neg hfin]
    simp [hneg hz.ne, hz]
  · obtain ⟨hfin, hge, hle⟩ := roundBits_between (m := Int.natAbs 0) hlo hhi hl hh
    have hzero : patternMag (roundBits (Int.natAbs 0) sh) = 0 := by
      simpa using patternMag_roundBits_mul_le 0 sh
    refine ⟨0, ?_, by omega, by omega, by simp⟩
    rw [f64Value_pack neg hfin, hzero]
    simp
  · obtain ⟨hfin, hge, hle⟩ := roundBits_between (m := z.natAbs) (sh := sh) hlo hhi
      (by omega) (by omega)
    refine ⟨patternMag (roundBits z.natAbs sh), ?_, hge, hle, by simpa using hdouble⟩
    rw [f64Value_pack neg hfin]
    simp [hneg hz.ne', hz.le]

/-- A sum between two finite values is finite and between them (R202). -/
theorem f64Add_between (d : Config.Draw) {a b lo hi : F64} {x y l h : Int} (ha : f64Value a = .fin x)
    (hb : f64Value b = .fin y) (hlo : f64Value lo = .fin l) (hhi : f64Value hi = .fin h)
    (hl : l ≤ x + y) (hh : x + y ≤ h) :
    ∃ r, f64Value (f64Add d a b) = .fin r ∧ l ≤ r ∧ r ≤ h ∧ |r| ≤ 2 * |x + y| := by
  rw [f64Add_finite d ha hb]
  split
  · next h0 =>
    refine ⟨0, ?_, by omega, by omega, by simp⟩
    rw [f64Zero, f64Value_pack _ (by decide)]
    simp [patternMag]
  · next h0 =>
    simpa using round_between (sh := 0) (z := x + y) (fun _ => rfl) hlo hhi (by simpa using hl)
      (by simpa using hh)

/-- So is a difference. -/
theorem f64Sub_between (d : Config.Draw) {a b lo hi : F64} {x y l h : Int} (ha : f64Value a = .fin x)
    (hb : f64Value b = .fin y) (hlo : f64Value lo = .fin l) (hhi : f64Value hi = .fin h)
    (hl : l ≤ x - y) (hh : x - y ≤ h) :
    ∃ r, f64Value (f64Sub d a b) = .fin r ∧ l ≤ r ∧ r ≤ h ∧ |r| ≤ 2 * |x - y| := by
  rw [sub_eq_add_neg] at hl hh ⊢
  exact f64Add_between d ha (f64Value_neg hb) hlo hhi hl hh

/-- The sign bit of a finite value that is not zero is its sign. -/
theorem f64Sign_of_ne_zero {w : F64} {v : Int} (h : f64Value w = .fin v) (h0 : v ≠ 0) :
    f64Sign w = decide (v < 0) := by
  rcases f64Value_cases w with ⟨-, hv⟩ | ⟨-, -, hv⟩ | ⟨-, -, hv⟩
  · simp [hv] at h
  · simp [hv] at h
  · rw [hv] at h
    injection h with h
    cases hs : f64Sign w <;> simp only [hs, if_true, Bool.false_eq_true, if_false] at h <;>
      simp <;> omega

/-- A product of finite values, in units of 2^-2148, between two finite values is finite and between
them (R202). -/
theorem f64Mul_between (d : Config.Draw) {a b lo hi : F64} {x y l h : Int} (ha : f64Value a = .fin x)
    (hb : f64Value b = .fin y) (hlo : f64Value lo = .fin l) (hhi : f64Value hi = .fin h)
    (hl : l * 2 ^ 1074 ≤ x * y) (hh : x * y ≤ h * 2 ^ 1074) :
    ∃ r, f64Value (f64Mul d a b) = .fin r ∧ l ≤ r ∧ r ≤ h ∧ |r| * 2 ^ 1074 ≤ 2 * |x * y| := by
  rw [f64Mul_finite d ha hb, ← Int.natAbs_mul]
  refine round_between (fun hne => ?_) hlo hhi hl hh
  obtain ⟨hx, hy⟩ := mul_ne_zero_iff.mp hne
  rw [f64Sign_of_ne_zero ha hx, f64Sign_of_ne_zero hb hy]
  rcases lt_or_gt_of_ne hx with hx | hx <;> rcases lt_or_gt_of_ne hy with hy | hy
  · simp [hx, hy, (mul_pos_of_neg_of_neg hx hy).not_gt]
  · simp [hx, hy.not_gt, mul_neg_of_neg_of_pos hx hy]
  · simp [hx.not_gt, hy, mul_neg_of_pos_of_neg hx hy]
  · simp [hx.not_gt, hy.not_gt, (mul_pos hx hy).not_gt]

end Sys2Proof.Machine


/-! SUPPORT. The smoother under binary64 (R45, R141, R158): one step goes from the old value towards the
target and not past it, so every step keeps `SM` between `min(DT_MIN, MAXD)` and `MAXD`. -/

namespace Sys2Proof.Machine

/-! ## One smoothing step -/

/-- `SMOOTH_COEF` is not negative and below a quarter (R201). -/
theorem f64Value_smoothCoef :
    ∃ k : Int, f64Value Config.smoothCoef = .fin k ∧ 0 ≤ k ∧ 4 * k ≤ 2 ^ 1074 :=
  ⟨f64Mag Config.smoothCoef, by decide +kernel, Int.natCast_nonneg _, by decide +kernel⟩

theorem f64Value_plusZero : f64Value Config.plusZero = .fin 0 := by decide +kernel

/-- Two roundings double a magnitude twice at most, which a coefficient up to a quarter makes good. -/
theorem abs_le_of_quarter {unit k diff gap e : Int} (hunit : 0 < unit) (hk : 0 ≤ k)
    (hquarter : 4 * k ≤ unit) (hdiff : |diff| ≤ 2 * |gap|) (he : |e| * unit ≤ 2 * |k * diff|) :
    |e| ≤ |gap| := by
  rw [abs_mul, abs_of_nonneg hk] at he
  refine le_of_mul_le_mul_right ?_ hunit
  calc |e| * unit ≤ 2 * (k * |diff|) := he
    _ ≤ 2 * (k * (2 * |gap|)) := by gcongr
    _ = 4 * k * |gap| := by ring
    _ ≤ unit * |gap| := by gcongr
    _ = |gap| * unit := mul_comm _ _

/-- What step 1 adds lies between 0 and the exact distance to the target (R141), although the distance is
itself rounded before it is scaled. -/
theorem smoothIncrement_between (d1 d2 : Config.Draw) {s target : F64} {x y : Int}
    (hs : f64Value s = .fin x) (ht : f64Value target = .fin y) (hx : 0 ≤ x) (hy : 0 ≤ y) :
    ∃ e, f64Value (f64Mul d2 Config.smoothCoef (f64Sub d1 target s)) = .fin e ∧
      ((0 ≤ e ∧ e ≤ y - x) ∨ (y - x ≤ e ∧ e ≤ 0)) := by
  obtain ⟨k, hk, hk0, hquarter⟩ := f64Value_smoothCoef
  have hunit : (0 : Int) < 2 ^ 1074 := by positivity
  generalize hU : (2 : Int) ^ 1074 = unit at hquarter hunit
  have hle : k ≤ unit := by linarith
  rcases le_total x y with hxy | hxy
  · obtain ⟨diff, hd, hd0, -, hdiff⟩ := f64Sub_between d1 ht hs f64Value_plusZero ht
      (by linarith) (by linarith)
    obtain ⟨e, he, he0, -, hmul⟩ := f64Mul_between d2 hk hd f64Value_plusZero hd
      (by rw [zero_mul]; positivity) (by rw [hU, mul_comm diff]; gcongr)
    rw [hU] at hmul
    have habs := abs_le_of_quarter hunit hk0 hquarter hdiff hmul
    rw [abs_of_nonneg he0, abs_of_nonneg (by linarith)] at habs
    exact ⟨e, he, .inl ⟨he0, habs⟩⟩
  · obtain ⟨diff, hd, -, hd0, hdiff⟩ := f64Sub_between d1 ht hs (f64Value_neg hs) f64Value_plusZero
      (by linarith) (by linarith)
    obtain ⟨e, he, -, he0, hmul⟩ := f64Mul_between d2 hk hd hd f64Value_plusZero
      (by rw [hU, mul_comm diff]; exact mul_le_mul_of_nonpos_right hle hd0)
      (by rw [zero_mul]; exact mul_nonpos_of_nonneg_of_nonpos hk0 hd0)
    rw [hU] at hmul
    have habs := abs_le_of_quarter hunit hk0 hquarter hdiff hmul
    rw [abs_of_nonpos he0, abs_of_nonpos (by linarith)] at habs
    exact ⟨e, he, .inr ⟨by linarith, he0⟩⟩

/-- One smoothing step between finite values that are not negative stays between them. -/
theorem smoothStep_between (k : Nat) (c : Chan) {s target : F64} {x y : Int}
    (hs : f64Value s = .fin x) (ht : f64Value target = .fin y) (hx : 0 ≤ x) (hy : 0 ≤ y) :
    ∃ r, f64Value (smoothStep binary64 k c s target) = .fin r ∧ min x y ≤ r ∧ r ≤ max x y := by
  obtain ⟨e, he, hbetween⟩ :=
    smoothIncrement_between (sampleDraw k c .t1) (sampleDraw k c .t2) hs ht hx hy
  rcases hbetween with ⟨he0, hgap⟩ | ⟨hgap, he0⟩
  · obtain ⟨r, hr, hlo, hhi, -⟩ := f64Add_between (sampleDraw k c .smooth) hs he hs ht
      (by linarith) (by linarith)
    exact ⟨r, hr, (min_le_left x y).trans hlo, hhi.trans (le_max_right x y)⟩
  · obtain ⟨r, hr, hlo, hhi, -⟩ := f64Add_between (sampleDraw k c .smooth) hs he ht hs
      (by linarith) (by linarith)
    exact ⟨r, hr, (min_le_right x y).trans hlo, hhi.trans (le_max_left x y)⟩

/-! ## Ranges of finite values -/

theorem f64Le_fin {a b : F64} {x y : Int} (ha : f64Value a = .fin x) (hb : f64Value b = .fin y) :
    f64Le a b = true ↔ x ≤ y := by
  simp [f64Le, ha, hb, valueLe]

/-- A value between two finite ones is finite. -/
theorem exists_fin_of_inRange {v lo hi : F64} {l h : Int} (hlo : f64Value lo = .fin l)
    (hhi : f64Value hi = .fin h) (hv : inRange v lo hi = true) :
    ∃ x, f64Value v = .fin x ∧ l ≤ x ∧ x ≤ h := by
  simp only [inRange, f64Ge, f64Le, hlo, hhi, Bool.and_eq_true] at hv
  cases hval : f64Value v with
  | nan => simp [hval, valueLe] at hv
  | inf neg => cases neg <;> simp [hval, valueLe] at hv
  | fin x => exact ⟨x, rfl, by simpa [hval, valueLe] using hv⟩

/-- A smoothing step towards a target keeps any finite range above zero that both are in. -/
theorem smoothStep_inRange (k : Nat) (c : Chan) {s target lo hi : F64} {l h : Int}
    (hlo : f64Value lo = .fin l) (hhi : f64Value hi = .fin h) (hl : 0 ≤ l)
    (hs : inRange s lo hi = true) (ht : inRange target lo hi = true) :
    inRange (smoothStep binary64 k c s target) lo hi = true := by
  obtain ⟨x, hx, hlx, hxh⟩ := exists_fin_of_inRange hlo hhi hs
  obtain ⟨y, hy, hly, hyh⟩ := exists_fin_of_inRange hlo hhi ht
  obtain ⟨r, hr, hmin, hmax⟩ := smoothStep_between k c hx hy (by linarith) (by linarith)
  rw [inRange, f64Ge, Bool.and_eq_true, f64Le_fin hlo hr, f64Le_fin hr hhi]
  exact ⟨(le_min hlx hly).trans hmin, hmax.trans (max_le hxh hyh)⟩

/-! ## The bounds of a legal configuration (R28, R34, R45) -/

theorem maxd_positive {s : State} (h : s.confOk = true) (hc : s.conf.cfg = true) :
    ∃ m : Int, f64Value s.conf.maxd = .fin m ∧ 0 < m := by
  obtain ⟨-, hmd, -⟩ := (confOk_iff s).mp h hc
  obtain ⟨hgt, hfin⟩ := (positiveFinite_iff _).mp hmd
  obtain ⟨m, hm⟩ := (f64IsFinite_iff _).mp hfin
  refine ⟨m, hm, ?_⟩
  simpa [f64Gt, f64Lt, f64Value_plusZero, hm, valueLt] using hgt

theorem delayFloor_nonneg {s : State} (h : s.confOk = true) (hc : s.conf.cfg = true) :
    ∃ l : Int, f64Value (delayFloor s.conf) = .fin l ∧ 0 ≤ l := by
  obtain ⟨m, hm, hpos⟩ := maxd_positive h hc
  unfold delayFloor
  split
  · exact ⟨m, hm, hpos.le⟩
  · exact ⟨f64Mag Config.dtMin, by decide +kernel, Int.natCast_nonneg _⟩

/-- A legal delay time of a configured engine lies in the smoother's range. -/
theorem inRange_of_delayLegal {c : Conf} {v : F64} (hc : c.cfg = true)
    (hv : delayLegal c v = true) : inRange v (delayFloor c) c.maxd = true := by
  obtain ⟨hle, hlow⟩ := (delayLegal_configured hc v).mp hv
  have hmaxd : f64IsNaN c.maxd = false := (f64Le_not_nan hle).2
  rw [inRange, f64Ge, hle, Bool.and_true]
  unfold delayFloor
  split
  · next hlt =>
    rcases hlow with hge | rfl
    · exact f64Le_trans (f64Le_of_lt hlt) hge
    · exact f64Le_refl hmaxd
  · next hnlt =>
    rcases hlow with hge | rfl
    · exact hge
    · simpa [f64Lt_eq_not_le hmaxd (show f64IsNaN Config.dtMin = false by decide +kernel)]
        using hnlt

/-- The two latched delay times come from registers as some slot left them, so they are legal (R172). -/
theorem latchParams_delayLegal {s : State} (h : RegistersLegal s) :
    delayLegal s.conf (latchParams s).latch.ldt0 = true ∧
      delayLegal s.conf (latchParams s).latch.ldt1 = true := by
  have hslots : ∀ k, RegistersLegal (slot^[k] s) := fun k => by
    induction k with
    | zero => exact h
    | succ k ih =>
      rw [Function.iterate_succ_apply']
      exact registersLegal_stepInvariant.slot ih
  obtain ⟨-, -, hdtl, -⟩ := (paramsOk_iff _).mp (hslots 3).2
  obtain ⟨-, -, -, hdtr⟩ := (paramsOk_iff _).mp (hslots 4).2
  rw [iterate_slot_conf] at hdtl hdtr
  rw [latchParams_eq]
  exact ⟨hdtl, hdtr⟩

/-! ## The smoothed delay times (R45) -/

theorem smoothOk_iff (s : State) :
    s.smoothOk = true ↔ (s.conf.cfg = true →
      inRange s.left.sm (delayFloor s.conf) s.conf.maxd = true ∧
      inRange s.right.sm (delayFloor s.conf) s.conf.maxd = true) := by
  cases hc : s.conf.cfg <;> simp [State.smoothOk, hc]

/-- The registers are legal and the smoothed delay times in their range. -/
def SmoothLegal (s : State) : Prop := RegistersLegal s ∧ s.smoothOk = true

theorem frameBody_smoothOk (i : Nat) {s : State} (hc : s.conf.cfg = true) (h : SmoothLegal s) :
    (frameBody i (latchParams s)).smoothOk = true := by
  obtain ⟨hregs, hsm⟩ := h
  obtain ⟨hl, hr⟩ := (smoothOk_iff s).mp hsm hc
  obtain ⟨ht0, ht1⟩ := latchParams_delayLegal hregs
  obtain ⟨m, hm, -⟩ := maxd_positive hregs.1 hc
  obtain ⟨l, hfloor, hl0⟩ := delayFloor_nonneg hregs.1 hc
  rw [smoothOk_iff]
  simp only [frameBody_conf, frameBody_left_sm, frameBody_right_sm, latchParams_conf,
    latchParams_left, latchParams_right]
  exact fun _ =>
    ⟨smoothStep_inRange _ _ hfloor hm hl0 hl (inRange_of_delayLegal hc ht0),
      smoothStep_inRange _ _ hfloor hm hl0 hr (inRange_of_delayLegal hc ht1)⟩

theorem smoothLegal_stepInvariant : StepInvariant SmoothLegal where
  ports _ _ _ _ _ _ h := h
  latch _ _ _ h := h
  write s t h hw := by
    refine ⟨registersLegal_stepInvariant.write s t h.1 hw, ?_⟩
    rw [hw.eq_with_params]
    exact h.2
  configure s sr md n h hn := by
    have hregs := registersLegal_stepInvariant.configure s sr md n h.1 hn
    obtain ⟨-, -, hdtl, hdtr⟩ := (paramsOk_iff _).mp hregs.2
    exact ⟨hregs, (smoothOk_iff _).mpr fun hc =>
      ⟨inRange_of_delayLegal hc hdtl, inRange_of_delayLegal hc hdtr⟩⟩
  frame i s hi hc hh h hlatch :=
    ⟨registersLegal_stepInvariant.frame i s hi hc hh h.1 hlatch.1, frameBody_smoothOk i hc h⟩

/-- Settles O57: each frame smooths towards a legal target and does not overshoot it; CONFIGURE starts the
smoothers at the delay times it has just clamped. -/
theorem stepKeepsSmoothedDelayBounded : Obligations.StepKeepsSmoothedDelayBounded :=
  fun _ _ hc hp hsm h => (smoothLegal_stepInvariant.step ⟨⟨hc, hp⟩, hsm⟩ h).2

end Sys2Proof.Machine


/-! SUPPORT. A packet scheduled on port B: while it is not due a slot brings it one read point nearer, and the
slot at which it is due serves it (R70, log entry 5). So the latch of R172 sees the packet exactly in the
registers it reads from then on. -/

namespace Sys2Proof

/-- A packet taken from a stream stood at its head. -/
theorem takePacket_words {ws rest : List PortWord} {p : Packet}
    (h : takePacket ws = .packet p rest) : ws = packetWords p ++ rest := by
  cases ws with
  | nil => cases h
  | cons w ws =>
    cases w with
    | opd w => cases h
    | cmd cw =>
      simp only [takePacket] at h
      cases ht : takeOperands (operandCount cw) ws with
      | short => simp [ht] at h
      | malformed => simp [ht] at h
      | words ops rest' =>
        simp only [ht, Fetched.packet.injEq] at h
        obtain ⟨rfl, rfl⟩ := h
        obtain ⟨-, hws⟩ := takeOperands_words ht
        simp [packetWords, hws]

/-- Port B accepts every SETPARAM: its `OPC` is 2 (R97, R103). -/
theorem decode_portB_encodePacket {i : Instr} (h : opcField (encodePacket i).cw = 0x2#4) :
    decode .B (encodePacket i) = .ok i := by
  have hports : decode .B (encodePacket i) = decode .A (encodePacket i) := by simp [decode, h]
  have hw : WellFormed i = true := by
    cases i with
    | process n =>
      rw [encodePacket, opcField_commandWord] at h
      exact absurd h (by decide)
    | _ => rfl
  rw [hports, decode_encodePacket hw]

end Sys2Proof

namespace Sys2Proof.Machine

/-! ## Serving port B (R71, R72) -/

theorem controlWrite_portB (i : Instr) (s : State) : (controlWrite i s).portB = s.portB := by
  cases i <;> rfl

/-- A command served on port B reads no port. -/
theorem controlWrite_withPortB (i : Instr) (s : State) (pb : List PortWord) (wb : List Arrival) :
    controlWrite i { s with portB := pb, wireB := wb } =
      { controlWrite i s with portB := pb, wireB := wb } := by
  cases i <;> rfl

theorem servePacketB_ok {p : Packet} {i : Instr} (h : decode .B p = .ok i) (s : State) :
    servePacketB p s = controlWrite i s := by
  simp [servePacketB, h]

theorem servePacketB_portB (p : Packet) (s : State) : (servePacketB p s).portB = s.portB := by
  unfold servePacketB
  split
  · exact controlWrite_portB _ s
  · rfl

theorem servePortB_packet {s : State} {p : Packet} {rest : List PortWord}
    (h : takePacket s.portB = .packet p rest) (fuel : Nat) :
    servePortB (fuel + 1) s = servePortB fuel (servePacketB p { s with portB := rest }) := by
  simp [servePortB, h]

theorem servePortB_nil {s : State} (h : s.portB = []) (fuel : Nat) : servePortB fuel s = s := by
  cases fuel <;> simp [servePortB, h, takePacket]

/-- Fuel beyond the number of waiting words changes nothing: each packet takes at least one. -/
theorem servePortB_fuel {m n : Nat} {s : State} (hm : s.portB.length ≤ m)
    (hn : s.portB.length ≤ n) : servePortB m s = servePortB n s := by
  induction m generalizing n s with
  | zero =>
    have hnil : s.portB = [] := List.length_eq_zero_iff.mp (Nat.le_zero.mp hm)
    rw [servePortB_nil hnil, servePortB_nil hnil]
  | succ m ih =>
    cases n with
    | zero =>
      have hnil : s.portB = [] := List.length_eq_zero_iff.mp (Nat.le_zero.mp hn)
      rw [servePortB_nil hnil, servePortB_nil hnil]
    | succ n =>
      simp only [servePortB]
      split
      · next p rest h =>
        have hlen : s.portB.length = p.ops.length + rest.length + 1 := by
          simp [takePacket_words h, packetWords]
        apply ih <;> rw [servePacketB_portB] <;> dsimp only <;> omega
      · rfl
      · rfl

/-! ## When a scheduled packet arrives (R70) -/

theorem encode_ne_nil (i : Instr) : encode i ≠ [] := List.cons_ne_nil _ _

theorem arrive_together (ws : List PortWord) (as : List Arrival) :
    arrive (ws.map (fun x => ⟨0, x⟩) ++ as) = (ws ++ (arrive as).1, (arrive as).2) := by
  induction ws with
  | nil => rfl
  | cons w ws ih => simp [arrive, ih]

/-- Words that are due arrive together, before what is due after them. -/
theorem arrive_arrivals_zero (ws : List PortWord) (as : List Arrival) :
    arrive (arrivals 0 ws ++ as) = (ws ++ (arrive as).1, (arrive as).2) := by
  cases ws with
  | nil => rfl
  | cons w ws => exact arrive_together (w :: ws) as

/-- Words that are not due come one read point nearer, and hold up what follows them. -/
theorem arrive_arrivals_succ (w : Nat) {ws : List PortWord} (h : ws ≠ []) (as : List Arrival) :
    arrive (arrivals (w + 1) ws ++ as) = ([], arrivals w ws ++ as) := by
  cases ws with
  | nil => exact absurd rfl h
  | cons x ws => simp [arrivals, arrive]

/-! ## The slots before a packet is due, and the slot at which it is -/

section
variable {s : State} (hp : s.portB = [])
include hp

theorem slot_notDue (w : Nat) (i : Instr) (as : List Arrival) :
    slot { s with wireB := arrivals (w + 1) (encode i) ++ as } =
      { s with wireB := arrivals w (encode i) ++ as } := by
  have hreceive : receiveB { s with wireB := arrivals (w + 1) (encode i) ++ as } =
      { s with wireB := arrivals w (encode i) ++ as } := by
    simp [receiveB, arrive_arrivals_succ w (encode_ne_nil i), ← hp]
  rw [slot, hreceive]
  apply servePortB_nil
  exact hp

theorem iterate_slot_notDue (k w : Nat) (i : Instr) (as : List Arrival) :
    slot^[k] { s with wireB := arrivals (w + k) (encode i) ++ as } =
      { s with wireB := arrivals w (encode i) ++ as } := by
  induction k with
  | zero => rfl
  | succ k ih => rw [Function.iterate_succ_apply, ← Nat.add_assoc, slot_notDue hp, ih]

/-- The slot at which a packet is due serves it and goes on with what is still to come. -/
theorem slot_due {i : Instr} (hi : opcField (encodePacket i).cw = 0x2#4) (as : List Arrival) :
    slot { s with wireB := arrivals 0 (encode i) ++ as } =
      slot { controlWrite i s with wireB := as } := by
  have htake : takePacket (encode i ++ (arrive as).1) = .packet (encodePacket i) (arrive as).1 :=
    takePacket_encode i _
  have hreceive : receiveB { s with wireB := arrivals 0 (encode i) ++ as } =
      { s with portB := encode i ++ (arrive as).1, wireB := (arrive as).2 } := by
    simp [receiveB, arrive_arrivals_zero, hp]
  have hrest : receiveB { controlWrite i s with wireB := as } =
      controlWrite i { s with portB := (arrive as).1, wireB := (arrive as).2 } := by
    simp [receiveB, controlWrite_withPortB, controlWrite_portB, hp]
  have hlen : (encode i ++ (arrive as).1).length =
      (encodePacket i).ops.length + (arrive as).1.length + 1 := by
    simp [encode, packetWords]
  rw [slot, hreceive, hlen, servePortB_packet htake,
    servePacketB_ok (decode_portB_encodePacket hi), slot, hrest]
  apply servePortB_fuel <;> simp [controlWrite_portB]

/-- The slots on a packet that comes after `w` read points: from point `w` on it has been served, and the
slots since then are those on what follows it. -/
theorem iterate_slot_arrivals_append {i : Instr} (hi : opcField (encodePacket i).cw = 0x2#4)
    (k w : Nat) (as : List Arrival) :
    (slot^[k + 1] { s with wireB := arrivals w (encode i) ++ as }).params =
      if w ≤ k then (slot^[k - w + 1] { controlWrite i s with wireB := as }).params
      else s.params := by
  split
  · next h =>
    obtain ⟨d, rfl⟩ := Nat.exists_eq_add_of_le h
    have hwait : slot^[w] { s with wireB := arrivals w (encode i) ++ as } =
        { s with wireB := arrivals 0 (encode i) ++ as } := by
      simpa using iterate_slot_notDue hp w 0 i as
    rw [show w + d + 1 = d + 1 + w by omega, Function.iterate_add_apply, hwait,
      Function.iterate_succ_apply, slot_due hp hi, Nat.add_sub_cancel_left,
      Function.iterate_succ_apply]
  · next h =>
    obtain ⟨d, rfl⟩ := Nat.exists_eq_add_of_lt (Nat.lt_of_not_le h)
    rw [show k + d + 1 = d + (k + 1) by omega, iterate_slot_notDue hp]

/-! ## The registers at each read of the latch -/

/-- One packet: the registers read at point `k` have it exactly when it came at `k` or before. -/
theorem iterate_slot_arrivals {i : Instr} (hi : opcField (encodePacket i).cw = 0x2#4) (k w : Nat) :
    (slot^[k + 1] { s with wireB := arrivals w (encode i) }).params =
      if w ≤ k then (controlWrite i s).params else s.params := by
  have hquiet : slot { controlWrite i s with wireB := [] } = { controlWrite i s with wireB := [] } :=
    slot_quiet ((controlWrite_portB i s).trans hp) rfl
  have h := iterate_slot_arrivals_append hp hi k w []
  rwa [List.append_nil, Function.iterate_fixed hquiet] at h

/-- Two packets, the second `g` read points after the first. -/
theorem iterate_slot_arrivals_arrivals {i j : Instr} (hi : opcField (encodePacket i).cw = 0x2#4)
    (hj : opcField (encodePacket j).cw = 0x2#4) (k w g : Nat) :
    (slot^[k + 1] { s with wireB := arrivals w (encode i) ++ arrivals g (encode j) }).params =
      if w + g ≤ k then (controlWrite j (controlWrite i s)).params
      else if w ≤ k then (controlWrite i s).params else s.params := by
  rw [iterate_slot_arrivals_append hp hi,
    iterate_slot_arrivals ((controlWrite_portB i s).trans hp) hj]
  by_cases hw : w ≤ k
  · rw [if_pos hw, if_pos hw]
    simp only [show g ≤ k - w ↔ w + g ≤ k by omega]
  · rw [if_neg hw, if_neg (show ¬ w + g ≤ k by omega), if_neg hw]

end

/-- The latch takes each register at its own read (R172). -/
theorem latchParams_latch_of_reads {s : State} {reads : Nat → Params}
    (h : ∀ k, (slot^[k + 1] s).params = reads k) :
    (latchParams s).latch =
      ⟨(reads 0).drywet, (reads 1).feedback, (reads 2).dtl, (reads 3).dtr, (reads 4).pingpong⟩ := by
  simp only [latchParams_eq, latchedParams, h]

/-- The latch with one packet on its way to port B. -/
theorem latch_arrivals {s : State} (hp : s.portB = []) {i : Instr}
    (hi : opcField (encodePacket i).cw = 0x2#4) (w : Nat) :
    (latchParams { s with wireB := arrivals w (encode i) }).latch =
      (let q := (controlWrite i s).params
       let p := s.params
       ⟨if w ≤ 0 then q.drywet else p.drywet, if w ≤ 1 then q.feedback else p.feedback,
        if w ≤ 2 then q.dtl else p.dtl, if w ≤ 3 then q.dtr else p.dtr,
        if w ≤ 4 then q.pingpong else p.pingpong⟩) := by
  rw [latchParams_latch_of_reads fun k => iterate_slot_arrivals hp hi k w]
  simp only [apply_ite Params.drywet, apply_ite Params.feedback, apply_ite Params.dtl,
    apply_ite Params.dtr, apply_ite Params.pingpong]

/-- Settles O31: the registers that a packet does not write stand whether it has been served or not, so only
the latch of its own register depends on when it came. -/
theorem portBWriteBeforeTheReadIsLatched : Obligations.PortBWriteBeforeTheReadIsLatched := by
  intro s v v' u w g hp
  have hdtl : opcField (encodePacket (.setparamDtl v)).cw = 0x2#4 := opcField_commandWord _ _ _
  have hdtr : opcField (encodePacket (.setparamDtr v')).cw = 0x2#4 := opcField_commandWord _ _ _
  dsimp only
  refine ⟨?drywet, ?feedback, ?dtl, ?dtr, ?pingpong, ?dtlThenDtr⟩
  case dtlThenDtr =>
    rw [latchParams_latch_of_reads fun k => iterate_slot_arrivals_arrivals hp hdtl hdtr k w g]
    -- The second packet never comes before the first.
    have hnever : w + g ≤ 2 → 2 < w → delayOperand s.conf v = s.params.dtl := by omega
    simpa [controlWrite, apply_ite Params.drywet, apply_ite Params.feedback, apply_ite Params.dtl,
      apply_ite Params.dtr, apply_ite Params.pingpong] using hnever
  all_goals simp [latch_arrivals hp, encodePacket, opcField_commandWord, controlWrite]

end Sys2Proof.Machine


/-! SUPPORT. The decoder by `OPC` (R96 to R104), that a packet which decodes is the encoding of its command,
what a command does to port A beside its answer (R101, R102, R236), and the obligations about them. -/

namespace Sys2Proof

/-! ## Operand words (R101) -/

theorem operandCount_of_configure {cw : CmdWord} (h : opcField cw = 1#4) : operandCount cw = 2 := by
  simp [operandCount, h]

theorem operandCount_of_setparam {cw : CmdWord} (h : opcField cw = 2#4) : operandCount cw = 1 := by
  simp [operandCount, h]

theorem operandCount_of_process {cw : CmdWord} (h : opcField cw = 3#4) : operandCount cw = 0 := by
  simp [operandCount, h]

/-- A packet taken from a stream has the operand words its `OPC` asks for. -/
theorem takePacket_ops_length {ws rest : List PortWord} {p : Packet}
    (h : takePacket ws = .packet p rest) : p.ops.length = operandCount p.cw := by
  obtain ⟨cw, ops⟩ := p
  rw [takePacket_words h, packetWords, List.cons_append, takePacket] at h
  split at h
  · cases h
  · cases h
  · next ht =>
    cases h
    exact (takeOperands_words ht).1

/-! ## The decoder by `OPC` (R104) -/

/-- `OPC` is one of the three commands' or a reserved one (R100). -/
theorem opcode_cases (opc : BitVec 4) :
    opc = 1#4 ∨ opc = 2#4 ∨ opc = 3#4 ∨ (opc = 0#4 ∨ 4 ≤ opc.toNat) := by
  bv_omega

theorem decode_A_configure {p : Packet} (h : opcField p.cw = 1#4) :
    decode .A p = if selField p.cw = 0#4 ∧ cntField p.cw = 0#24 then
      .ok (.configure (p.ops.getD 0 0#64) (p.ops.getD 1 0#64)) else .error .configureFields := by
  simp [decode, h]

theorem decode_A_setparam {p : Packet} (h : opcField p.cw = 2#4) :
    decode .A p = if cntField p.cw = 0#24 then decodeSetparam (selField p.cw) (p.ops.getD 0 0#64)
      else .error .setparamCount := by
  simp [decode, h]

theorem decode_A_process {p : Packet} (h : opcField p.cw = 3#4) :
    decode .A p = if selField p.cw = 0#4 then .ok (.process (cntField p.cw).toNat)
      else .error .processSel := by
  simp [decode, h]

theorem decode_A_reserved {p : Packet} (h : opcField p.cw = 0#4 ∨ 4 ≤ (opcField p.cw).toNat) :
    decode .A p = .error .reservedOpcode := by
  have h1 : opcField p.cw ≠ 1#4 := by bv_omega
  have h2 : opcField p.cw ≠ 2#4 := by bv_omega
  have h3 : opcField p.cw ≠ 3#4 := by bv_omega
  simp [decode, h1, h2, h3]

/-- Port B refuses whatever is no SETPARAM before it looks at another field (R103). -/
theorem decode_B_notSetparam {p : Packet} (h : opcField p.cw ≠ 2#4) :
    decode .B p = .error .notOnPortB := by
  simp [decode, h]

/-- On a SETPARAM the two ports agree (R103). -/
theorem decode_B_setparam {p : Packet} (h : opcField p.cw = 2#4) : decode .B p = decode .A p := by
  simp [decode, h]

/-! ## What decodes is an encoding (R96 to R98) -/

/-- A command word is settled by its three fields (R92). -/
theorem eq_commandWord {cw : CmdWord} {opc sel : BitVec 4} {cnt : BitVec 24}
    (ho : opcField cw = opc) (hs : selField cw = sel) (hc : cntField cw = cnt) :
    cw = commandWord opc sel cnt := by
  rw [← ho, ← hs, ← hc, commandWord_fields]

/-- A SETPARAM's encoding carries the selector and the operand it was decoded from (R97). -/
theorem encodePacket_of_decodeSetparam {sel : BitVec 4} {v : OpWord} {i : Instr}
    (h : decodeSetparam sel v = .ok i) : encodePacket i = ⟨commandWord 2#4 sel 0#24, [v]⟩ := by
  unfold decodeSetparam at h
  split_ifs at h with hs hs hs hs hs <;> cases h <;> rw [hs] <;> rfl

theorem packet_eq_mk {p : Packet} {cw : CmdWord} {ops : List OpWord} (hcw : p.cw = cw)
    (hops : p.ops = ops) : p = ⟨cw, ops⟩ := by
  rw [← hcw, ← hops]

/-- A packet with its operand words complete that decodes is its command's encoding. -/
theorem eq_encodePacket_of_decode {p : Packet} {i : Instr}
    (hlen : p.ops.length = operandCount p.cw) (h : decode .A p = .ok i) : p = encodePacket i := by
  rcases opcode_cases (opcField p.cw) with ho | ho | ho | ho
  · obtain ⟨sr, md, hops⟩ := List.length_eq_two.mp (hlen.trans (operandCount_of_configure ho))
    rw [decode_A_configure ho, hops] at h
    split at h
    · next hf =>
      cases h
      exact packet_eq_mk (eq_commandWord ho hf.1 hf.2) hops
    · cases h
  · obtain ⟨v, hops⟩ := List.length_eq_one_iff.mp (hlen.trans (operandCount_of_setparam ho))
    rw [decode_A_setparam ho, hops] at h
    split at h
    · next hc =>
      rw [encodePacket_of_decodeSetparam h]
      exact packet_eq_mk (eq_commandWord ho rfl hc) hops
    · cases h
  · have hops := List.length_eq_zero_iff.mp (hlen.trans (operandCount_of_process ho))
    rw [decode_A_process ho] at h
    split at h
    · next hs =>
      cases h
      exact packet_eq_mk (eq_commandWord ho hs (by simp)) hops
    · cases h
  · rw [decode_A_reserved ho] at h
    cases h

/-- Settles O1: the words are taken as the packet they were laid out from. -/
theorem decodeOfEncodeIsTheCommand : Obligations.DecodeOfEncodeIsTheCommand :=
  fun i rest hw => ⟨encodePacket i, takePacket_encode i rest, decode_encodePacket hw⟩

/-- Settles O2: the words are the packet's, and the packet is its command's encoding. -/
theorem encodeOfDecodeIsTheWords : Obligations.EncodeOfDecodeIsTheWords := by
  intro ws rest p i ht hd
  have hp : p = encodePacket i := eq_encodePacket_of_decode (takePacket_ops_length ht) hd
  refine ⟨?_, decode_wellFormed hd⟩
  rw [takePacket_words ht, hp, encode]

/-- Settles O3: twelve closed packets, each run through the decoder. -/
theorem specWordsDecodeAsListed : Obligations.SpecWordsDecodeAsListed := by
  unfold Obligations.SpecWordsDecodeAsListed
  decide

/-! ## Illegal packets (R100) -/

theorem decodeSetparam_refuses_iff (sel : BitVec 4) (v : OpWord) :
    (∃ e, decodeSetparam sel v = .error e) ↔ 5 ≤ sel.toNat := by
  unfold decodeSetparam
  split_ifs <;> simp <;> bv_omega

/-- The conditions of R100 on the command word alone. -/
def IllegalCommandWord (cw : CmdWord) : Prop :=
  (opcField cw = 0#4 ∨ 4 ≤ (opcField cw).toNat) ∨
  (opcField cw = 1#4 ∧ (selField cw ≠ 0#4 ∨ cntField cw ≠ 0#24)) ∨
  (opcField cw = 2#4 ∧ (5 ≤ (selField cw).toNat ∨ cntField cw ≠ 0#24)) ∨
  (opcField cw = 3#4 ∧ selField cw ≠ 0#4)

theorem decode_A_refuses_iff (p : Packet) :
    (∃ e, decode .A p = .error e) ↔ IllegalCommandWord p.cw := by
  unfold IllegalCommandWord
  rcases opcode_cases (opcField p.cw) with ho | ho | ho | ho
  · rw [decode_A_configure ho]
    split
    · next hf => simp [ho, hf]
    · next hf => simpa [ho, imp_iff_not_or] using hf
  · rw [decode_A_setparam ho]
    split
    · next hc => simp [decodeSetparam_refuses_iff, ho, hc]
    · next hc => simp [ho, hc]
  · rw [decode_A_process ho]
    split
    · next hs => simp [ho, hs]
    · next hs => simp [ho, hs]
  · simp [decode_A_reserved ho, ho]

/-- Port B adds one condition: whatever is no SETPARAM is illegal there (R103). -/
theorem decode_B_refuses_iff (p : Packet) :
    (∃ e, decode .B p = .error e) ↔ IllegalCommandWord p.cw ∨ opcField p.cw ≠ 2#4 := by
  by_cases ho : opcField p.cw = 2#4
  · rw [decode_B_setparam ho, decode_A_refuses_iff]
    simp [ho]
  · simp [decode_B_notSetparam ho, ho]

end Sys2Proof

namespace Sys2Proof.Machine

theorem servePacketB_error {p : Packet} {e : Reject} (h : decode .B p = .error e) (s : State) :
    servePacketB p s = raiseError .B .illegalCommand s := by
  simp [servePacketB, h]

/-- Settles O4: R100's conditions are the decoder's branches, and taking the error is only an answer. -/
theorem illegalPacketsAreExactlyThose : Obligations.IllegalPacketsAreExactlyThose := by
  refine ⟨fun port p => ?_, fun p s e h => runPacketA_error h s, fun p s e h => servePacketB_error h s,
    fun ops => ⟨_, decode_A_reserved (.inl (show opcField 0#32 = 0#4 by decide))⟩⟩
  cases port
  · rw [decode_A_refuses_iff, IllegalCommandWord]
    simp
  · rw [decode_B_refuses_iff, IllegalCommandWord]
    simp [or_assoc]

/-! ## Answers on port A (R101, R102, R236) -/

/-- No frame takes a word from port A or answers on it. -/
theorem frames_portA_rspA {k i : Nat} {s t : State} (h : frames k i s = .ok t) :
    t.portA = s.portA ∧ t.rspA = s.rspA :=
  frames_keeps (fun u => u.portA = s.portA ∧ u.rspA = s.rspA) (fun _ _ hu => hu)
    (fun _ _ _ _ hu => by simpa using hu) h ⟨rfl, rfl⟩

/-- A command that answers a next state answers once, after all else it does, which leaves port A alone; and
before an error it does nothing. -/
theorem exec_answer {i : Instr} {s t : State} (h : exec i s = .next t) :
    ∃ r u, t = respond .A r u ∧ u.portA = s.portA ∧ u.rspA = s.rspA ∧ (r ≠ .ok → u = s) := by
  rcases exec_cases h with ⟨r, rfl⟩ | ⟨u, hu, rfl⟩ | ⟨sr, md, n, -, -, rfl⟩ | ⟨n, u, -, -, hu, rfl⟩
  · exact ⟨r, s, rfl, rfl, rfl, fun _ => rfl⟩
  · refine ⟨.ok, u, rfl, ?_, ?_, fun hr => absurd rfl hr⟩ <;> rw [hu.eq_with_params]
  · exact ⟨.ok, _, rfl, rfl, rfl, fun hr => absurd rfl hr⟩
  · obtain ⟨hport, hrsp⟩ := frames_portA_rspA hu
    exact ⟨.ok, u, rfl, hport, hrsp, fun hr => absurd rfl hr⟩

theorem responseWord_cases (r : Response) :
    responseWord r = 0#32 ∨ responseWord r = 1#32 ∨ responseWord r = 2#32 ∨ responseWord r = 3#32 := by
  cases r <;> decide

/-- Settles O10: `exec_answer`, with the answer read as its word. -/
theorem errorsChangeNothingElse : Obligations.ErrorsChangeNothingElse := by
  intro i s t h
  obtain ⟨r, u, rfl, -, hrsp, herr⟩ := exec_answer h
  refine ⟨responseWord r, by rw [respond_A_rspA, hrsp], responseWord_cases r, fun hw => ?_⟩
  have hok : r ≠ .ok := by
    rintro rfl
    exact hw rfl
  rw [herr hok]
  rfl

/-- A packet of port A, legal or not, is answered once, and takes no word beside its own. -/
theorem runPacketA_answer {p : Packet} {s t : State} (h : runPacketA p s = .next t) :
    t.portA = s.portA ∧ ∃ r, t.rspA = s.rspA ++ [responseWord r] := by
  cases hd : decode .A p with
  | ok i =>
    rw [runPacketA_ok hd] at h
    obtain ⟨r, u, rfl, hport, hrsp, -⟩ := exec_answer h
    exact ⟨by rw [respond_portA, hport], r, by rw [respond_A_rspA, hrsp]⟩
  | error e =>
    rw [runPacketA_error hd] at h
    cases h
    exact ⟨rfl, _, rfl⟩

theorem step_answer {s t : State} {p : Packet} {rest : List PortWord}
    (hA : takePacket s.portA = .packet p rest) (h : step s = .next t) :
    t.portA = rest ∧ ∃ r, t.rspA = s.rspA ++ [responseWord r] := by
  have hB : takePacket (slot s).portB ≠ .malformed := by
    intro hB
    rw [step_malformedB hB] at h
    cases h
  rw [step_eq_servePortA hB, servePortA_packet (by rw [slot_portA]; exact hA)] at h
  simpa using runPacketA_answer h

/-! ## Answers on port B (R101, R103) -/

theorem controlWrite_rspB (i : Instr) (s : State) :
    ∃ r, (controlWrite i s).rspB = s.rspB ++ [responseWord r] := by
  rcases controlWrite_cases i s with ⟨u, hu, he⟩ | he
  · exact ⟨.ok, by rw [he, respond_B_rspB, hu.eq_with_params]⟩
  · exact ⟨.illegalCommand, by rw [he, raiseError_eq, respond_B_rspB]⟩

/-- A packet of port B, legal or not, is answered once. -/
theorem servePacketB_rspB (p : Packet) (s : State) :
    ∃ r, (servePacketB p s).rspB = s.rspB ++ [responseWord r] := by
  cases hd : decode .B p with
  | ok i =>
    rw [servePacketB_ok hd]
    exact controlWrite_rspB i s
  | error e =>
    rw [servePacketB_error hd]
    exact ⟨_, rfl⟩

theorem servePortB_one {s : State} {p : Packet} {rest : List PortWord}
    (h : takePacket s.portB = .packet p rest) :
    servePortB 1 s = servePacketB p { s with portB := rest } := servePortB_packet h 0

/-- Settles O5: each port takes the packet whole and answers it once. -/
theorem operandWordsConsumedByOpcode : Obligations.OperandWordsConsumedByOpcode := by
  refine ⟨fun cw ops rest hlen => ?_, fun s t p rest hA h => step_answer hA h, fun s p rest hB => ?_⟩
  · exact takePacket_packetWords (p := ⟨cw, ops⟩) rest hlen
  · rw [servePortB_one hB]
    exact ⟨servePacketB_portB p _, servePacketB_rspB p _⟩

/-- Settles O6: port B's decoder refuses the packet, and the error is only an answer. -/
theorem portBRefusesAllButSetparam : Obligations.PortBRefusesAllButSetparam := by
  intro s p rest hB ho
  rw [servePortB_one hB, servePacketB_error (decode_B_notSetparam ho)]
  rfl

end Sys2Proof.Machine


/-! SUPPORT. CONFIGURE (40_configure.md): which operands it refuses and which length it accepts, what its one
step does in either case, and that a second commit with the same operands changes nothing (R120 to R132). -/

namespace Sys2Proof.Machine

/-! ## Which operands are refused, and which length is accepted (R120 to R123) -/

theorem positiveFinite_eq_false_iff (v : F64) :
    positiveFinite binary64 v = false ↔ f64Gt v Config.plusZero = false ∨ f64IsFinite v = false := by
  rw [← Bool.not_eq_true, positiveFinite_iff, not_and_or, Bool.not_eq_true, Bool.not_eq_true]

/-- The operands that R121 and R122 name: a NaN, an infinity, a zero or a negative value. -/
def BadOperand (v : F64) : Prop :=
  f64IsNaN v = true ∨ f64IsFinite v = false ∨ f64IsZero v = true ∨ f64Sign v = true

theorem BadOperand.positiveFinite {v : F64} (h : BadOperand v) : positiveFinite binary64 v = false := by
  rw [positiveFinite_eq_false_iff]
  rcases h with hnan | hinf | hzero | hsign
  · right
    rw [← Bool.not_eq_true]
    intro hfin
    simp [not_nan_of_finite hfin] at hnan
  · exact .inr hinf
  · left
    have hv : f64Value v = .fin 0 := by simpa [f64IsZero] using hzero
    simp [f64Gt, f64Lt, f64Value_plusZero, hv, valueLt]
  · rcases f64Value_cases v with ⟨-, hv⟩ | ⟨-, hinf, -⟩ | ⟨-, -, hv⟩
    · left
      simp [f64Gt, f64Lt, f64Value_plusZero, hv, valueLt]
    · exact .inr hinf
    · left
      simp [f64Gt, f64Lt, f64Value_plusZero, hv, hsign, valueLt]

/-- InvalidConfiguration's conditions (R121, R122). -/
theorem configureLength_eq_none_iff (d : Config.Draw) (sr md : F64) :
    configureLength binary64 d sr md = none ↔
      positiveFinite binary64 sr = false ∨ positiveFinite binary64 md = false ∨
      f64IsFinite (f64Mul d sr md) = false ∨ f64RoundHalfAway d (f64Mul d sr md) < 1 ∨
      (Config.lenMax : Int) < f64RoundHalfAway d (f64Mul d sr md) := by
  have hmul : binary64.mul d sr md = f64Mul d sr md := rfl
  have hfin : binary64.isFinite (f64Mul d sr md) = f64IsFinite (f64Mul d sr md) := rfl
  have hround : binary64.roundHalfAway d (f64Mul d sr md) = f64RoundHalfAway d (f64Mul d sr md) := rfl
  unfold configureLength
  simp only [hmul, hfin, hround]
  split_ifs with hsr hmd hp hrange
  · exact iff_of_true rfl (.inl (by simpa using hsr))
  · exact iff_of_true rfl (.inr (.inl (by simpa using hmd)))
  · exact iff_of_true rfl (.inr (.inr (.inl (by simpa using hp))))
  · exact iff_of_true rfl (.inr (.inr (.inr hrange)))
  · simp_all

/-- A bad operand in either place is enough (R121, R122). -/
theorem BadOperand.configureLength_eq_none {v : F64} (h : BadOperand v) (d : Config.Draw) (other : F64) :
    configureLength binary64 d v other = none ∧ configureLength binary64 d other v = none := by
  simp only [configureLength_eq_none_iff, h.positiveFinite, true_or, or_true, and_self]

/-- Valid operands are accepted with the length their product rounds to (R120, R123). -/
theorem configureLength_of_valid {d : Config.Draw} {sr md : F64} {n : Nat}
    (hsr : positiveFinite binary64 sr = true) (hmd : positiveFinite binary64 md = true)
    (hp : f64IsFinite (f64Mul d sr md) = true)
    (hround : f64RoundHalfAway d (f64Mul d sr md) = (n : Int)) (h1 : 1 ≤ n) (hmax : n ≤ Config.lenMax) :
    configureLength binary64 d sr md = some n := by
  have hp' : binary64.isFinite (binary64.mul d sr md) = true := hp
  have hround' : binary64.roundHalfAway d (binary64.mul d sr md) = (n : Int) := hround
  have hpos : n ≠ 0 := by omega
  simp [configureLength, hsr, hmd, hp', hround', hpos, hmax]

/-! ## The one step of CONFIGURE (R120, R130) -/

theorem exec_configure_of_none {sr md : F64} {s : State}
    (h : configureLength binary64 ⟨s.draws, .configure⟩ sr md = none) :
    exec (.configure sr md) s = .next (respond .A .invalidConfiguration s) := by
  show execConfigure sr md s = _
  rw [execConfigure, h, raiseError_eq]

theorem exec_configure_of_some {sr md : F64} {n : Nat} {s : State}
    (h : configureLength binary64 ⟨s.draws, .configure⟩ sr md = some n) :
    exec (.configure sr md) s = .next (respond .A .ok (configureCommit sr md n s)) := by
  show execConfigure sr md s = _
  rw [execConfigure, h]

/-- What CONFIGURE has done where it answers `t`. -/
theorem exec_configure_cases {sr md : F64} {s t : State} (h : exec (.configure sr md) s = .next t) :
    (configureLength binary64 ⟨s.draws, .configure⟩ sr md = none ∧
      t = respond .A .invalidConfiguration s) ∨
    ∃ n, configureLength binary64 ⟨s.draws, .configure⟩ sr md = some n ∧
      t = respond .A .ok (configureCommit sr md n s) := by
  cases hlen : configureLength binary64 ⟨s.draws, .configure⟩ sr md with
  | none =>
    rw [exec_configure_of_none hlen] at h
    cases h
    exact .inl ⟨rfl, rfl⟩
  | some n =>
    rw [exec_configure_of_some hlen] at h
    cases h
    exact .inr ⟨n, rfl, rfl⟩

/-- An answer OK tells that CONFIGURE has committed. -/
theorem exec_configure_committed {sr md : F64} {s t : State} (h : exec (.configure sr md) s = .next t)
    (hok : t.rspA = s.rspA ++ [0#32]) :
    ∃ n, configureLength binary64 ⟨s.draws, .configure⟩ sr md = some n ∧
      t = respond .A .ok (configureCommit sr md n s) := by
  rcases exec_configure_cases h with ⟨-, rfl⟩ | hcommit
  · simp [responseWord] at hok
  · exact hcommit

/-- Settles O13: each condition makes the length `none`, and taking the error is only an answer. -/
theorem configureRejectsWhenInvalid : Obligations.ConfigureRejectsWhenInvalid := by
  refine ⟨fun s sr md h => exec_configure_of_none ?_, fun s bad other h => ?_⟩
  · rw [configureLength_eq_none_iff, positiveFinite_eq_false_iff, positiveFinite_eq_false_iff,
      or_assoc, or_assoc]
    exact h
  · obtain ⟨hfirst, hsecond⟩ := BadOperand.configureLength_eq_none h ⟨s.draws, .configure⟩ other
    exact ⟨exec_configure_of_none hfirst, exec_configure_of_none hsecond⟩

/-- Settles O12: the operands give the length `n`, and the commit writes the listed registers. -/
theorem configureCommitsWhenValid : Obligations.ConfigureCommitsWhenValid := by
  intro s sr md n hsr hsrFin hmd hmdFin ⟨hp, hround⟩ h1 hmax
  exact exec_configure_of_some (configureLength_of_valid ((positiveFinite_iff sr).mpr ⟨hsr, hsrFin⟩)
    ((positiveFinite_iff md).mpr ⟨hmd, hmdFin⟩) hp hround h1 hmax)

/-! ## A second CONFIGURE with the same operands (R129) -/

/-- A clamped value is not moved by the same clamp, also on an empty range. -/
theorem clamp_idempotent {lo hi : F64} (v : F64) (hlo : f64IsNaN lo = false)
    (hhi : f64IsNaN hi = false) :
    clamp binary64 (clamp binary64 v lo hi) lo hi = clamp binary64 v lo hi := by
  by_cases hle : f64Le lo hi = true
  · obtain ⟨hge, hbelow⟩ := clamp_between v hle
    exact clamp_of_inRange hge hbelow
  · have hempty : f64Gt lo hi = true := by simpa [f64Gt_eq_not_le hlo hhi] using hle
    rw [clamp_of_empty hempty, clamp_of_empty hempty]

/-- The commit writes from its operands and the two delay-time registers, which it leaves clamped. -/
theorem configureCommit_idempotent {sr md : F64} (hmd : f64IsNaN md = false) (n : Nat) (s : State) :
    configureCommit sr md n (configureCommit sr md n s) = configureCommit sr md n s := by
  have hclamp (v : F64) : clamp binary64 (clamp binary64 v Config.dtMin md) Config.dtMin md =
      clamp binary64 v Config.dtMin md :=
    clamp_idempotent v (by decide +kernel) hmd
  simp only [configureCommit, hclamp]

theorem configureCommit_respond (sr md : F64) (n : Nat) (p : Port) (r : Response) (s : State) :
    configureCommit sr md n (respond p r s) = respond p r (configureCommit sr md n s) := by
  cases p <;> rfl

/-- Settles O14: the second CONFIGURE finds the same length, and its commit has nothing left to change. -/
theorem configureIsIdempotent : Obligations.ConfigureIsIdempotent := by
  intro s t u sr md hst htu
  rcases exec_configure_cases hst with ⟨hlen, rfl⟩ | ⟨n, hlen, rfl⟩
  · rw [exec_configure_of_none (by rw [respond_draws, hlen])] at htu
    cases htu
    exact ⟨_, rfl, rfl⟩
  · have hmd : f64IsNaN md = false :=
      not_nan_of_finite ((positiveFinite_iff md).mp (configureLength_operands hlen).2).2
    rw [exec_configure_of_some (n := n) (by rw [respond_draws, configureCommit_draws, hlen]),
      configureCommit_respond, configureCommit_idempotent hmd] at htu
    cases htu
    exact ⟨_, rfl, rfl⟩

/-! ## What CONFIGURE reads and what it leaves alone (R124, R128, R132) -/

/-- Settles O15: the length is the same under every draw, and the commit reads the parameter registers only. -/
theorem configureForgetsTheDelayLine : Obligations.ConfigureForgetsTheDelayLine := by
  intro s s' t t' sr md hparams hst hst' hok
  obtain ⟨n, hlen, rfl⟩ := exec_configure_committed hst hok
  have hlen' : configureLength binary64 ⟨s'.draws, .configure⟩ sr md = some n :=
    (configureLength_draw _ _ sr md).trans hlen
  rw [exec_configure_of_some hlen'] at hst'
  cases hst'
  have hcommit : (configureCommit sr md n s).params = (configureCommit sr md n s').params := by
    simp only [configureCommit, hparams]
  refine ⟨rfl, rfl, ?_, ?_, hcommit⟩ <;> simp [hparams]

/-- A committed buffer is cleared, so it reads `+0` everywhere (R124). -/
theorem configureCommit_bufRead (sr md : F64) (n : Nat) (s : State) (c : Chan) (i : Nat) :
    (configureCommit sr md n s).bufRead c i = Config.plusZero := by
  cases c <;> exact memory_cleared_read i

theorem configureCommit_ioRead (sr md : F64) (n : Nat) (s : State) (c : Chan) (i : Nat) :
    (configureCommit sr md n s).ioRead c i = s.ioRead c i := by
  cases c <;> rfl

theorem respond_ioRead (p : Port) (r : Response) (s : State) (c : Chan) (i : Nat) :
    (respond p r s).ioRead c i = s.ioRead c i := by
  cases p <;> cases c <;> rfl

/-- Settles O16: an error is only an answer; the commit clears the buffers and keeps the frame of R132. -/
theorem configureFrame : Obligations.ConfigureFrame := by
  intro s t sr md hst
  refine ⟨fun hok c i => ?_, ?_⟩
  · obtain ⟨n, -, rfl⟩ := exec_configure_committed hst hok
    exact configureCommit_bufRead sr md n s c i
  · rcases exec_configure_cases hst with ⟨-, rfl⟩ | ⟨n, -, rfl⟩
    · simp [respond_ioRead]
    · simp [respond_ioRead, configureCommit_ioRead]

end Sys2Proof.Machine


/-! SUPPORT. PROCESS_SAMPLE (41_process_sample.md): the two tap indices, the nine steps, and the write head
over a block of frames (R140 to R150, R157, R209). -/

namespace Sys2Proof.Machine

/-! ## The tap indices (R146, R157) -/

theorem tapIndex_lt (xi : Int) {len : Nat} (hlen : 1 ≤ len) : tapIndex xi len < len := emod_lt xi hlen

theorem tapIndex1_lt (xi : Int) {len : Nat} (hlen : 1 ≤ len) : tapIndex1 xi len < len :=
  emod_lt _ hlen

/-- An index inside the buffer is its own reduction. -/
theorem tapIndex_of_inRange {xi : Int} {len : Nat} (h0 : 0 ≤ xi) (hlt : xi < (len : Int)) :
    (tapIndex xi len : Int) = xi := by
  rw [tapIndex, emod_cast xi (by omega), Int.emod_eq_of_lt h0 hlt]

/-- The companion index is the next entry, or 0 at the wrap. -/
theorem tapIndex1_eq (xi : Int) {len : Nat} (hlen : 1 ≤ len) :
    tapIndex1 xi len = if tapIndex xi len + 1 = len then 0 else tapIndex xi len + 1 := by
  have hlt := tapIndex_lt xi hlen
  have hnext : ((tapIndex xi len : Int) + 1) = ((tapIndex xi len + 1 : Nat) : Int) := by push_cast; rfl
  rw [tapIndex1, emod, hnext, ← Int.natCast_mod, Int.toNat_natCast]
  split
  · next hwrap => rw [hwrap, Nat.mod_self]
  · exact Nat.mod_eq_of_lt (by omega)

/-- Settles O34: both indices are remainders, and an index in range is its own remainder. -/
theorem tapIndicesStayInTheBuffer : Obligations.TapIndicesStayInTheBuffer := by
  intro xi len hlen
  refine ⟨tapIndex_lt xi hlen, tapIndex1_lt xi hlen, fun h0 hlt => ?_⟩
  have hx := tapIndex_of_inRange h0 hlt
  refine ⟨hx, ?_⟩
  rw [tapIndex1_eq xi hlen]
  split_ifs <;> omega

/-! ## The nine steps (R140 to R150) -/

/-- Step 8 for a length given as a number that a length register holds (R149). -/
theorem advanceHead_toNat_of_le {w : BitVec Config.lenW} {len : Nat} (hw : w.toNat < len)
    (hmax : len ≤ Config.lenMax) :
    (advanceHead w len).toNat = if w.toNat + 1 = len then 0 else w.toNat + 1 := by
  have hlen : (BitVec.ofNat Config.lenW len).toNat = len :=
    toNat_ofNat_lenW (Nat.lt_of_le_of_lt hmax (by decide))
  have h := advanceHead_toNat (w := w) (len := BitVec.ofNat Config.lenW len) (by rwa [hlen])
  rwa [hlen] at h

section
variable {α : Type} [DecidableEq α] (N : Numerics α) (k : Nat) (c : Chan) (sr : α) (len : Nat)
  (target fbc xin : α) (ch : Channel α)

/-- Steps 2 and 4 start from the smoothed delay time of step 1 (R142, R144). -/
theorem processSample_rh :
    (processSample N k c sr len target fbc xin ch).chan.rh =
      readPosition N k c ch.wh.toNat len
        (delaySamples N k c sr (processSample N k c sr len target fbc xin ch).chan.sm) := rfl

/-- Steps 5 and 6 read the buffer that step 3 has written (R145 to R147, R151). -/
theorem processSample_out :
    (processSample N k c sr len target fbc xin ch).out =
      (let ch' := (processSample N k c sr len target fbc xin ch).chan
       let xi := baseIndex N k c ch'.rh
       interpolate N k c (fraction N k c ch'.rh xi) (Memory.read N.zero ch'.buf (tapIndex xi len))
         (Memory.read N.zero ch'.buf (tapIndex1 xi len))) := rfl

/-- Step 7 scales the output (R148). -/
theorem processSample_fnew :
    (processSample N k c sr len target fbc xin ch).fnew =
      feedbackValue N k c (processSample N k c sr len target fbc xin ch).out fbc := rfl

end

/-! The operations of `binary64` by their names. -/

theorem binary64_zero : binary64.zero = Config.plusZero := rfl
theorem binary64_one : binary64.one = Config.one := rfl
theorem binary64_smoothCoef : binary64.smoothCoef = Config.smoothCoef := rfl
theorem binary64_add : binary64.add = f64Add := rfl
theorem binary64_sub : binary64.sub = f64Sub := rfl
theorem binary64_mul : binary64.mul = f64Mul := rfl
theorem binary64_lt : binary64.lt = f64Lt := rfl
theorem binary64_floorInt : binary64.floorInt = f64FloorInt := rfl
theorem binary64_intToNum : binary64.intToNum = f64OfInt := rfl

/-- Settles O23: each step is its definition at binary64; the buffer is said through its entries, the
companion tap through its wrap, and the head as a number. -/
theorem processSampleFollowsTheNineSteps : Obligations.ProcessSampleFollowsTheNineSteps := by
  intro k c sr len target fbc xin ch hw hmax hwf
  refine ⟨?_, processSample_fb ..⟩
  constructor
  case smooth =>
    rw [processSample_sm, smoothStep, binary64_add, binary64_mul, binary64_sub, binary64_smoothCoef]
  case written =>
    intro i
    rw [processSample_buf, writeValue, binary64_add, binary64_zero, memory_read_write _ _ _ hwf]
  case position =>
    rw [processSample_rh, readPosition, delaySamples, binary64_add, binary64_mul, binary64_sub,
      binary64_lt, binary64_zero, binary64_intToNum]
  case interpolated =>
    have hx1 := tapIndex1_eq (len := len) (baseIndex binary64 k c
      (processSample binary64 k c sr len target fbc xin ch).chan.rh) (by omega)
    rw [processSample_out]
    dsimp only
    rw [hx1, interpolate, fraction, baseIndex, tapIndex, emod, binary64_add, binary64_mul,
      binary64_sub, binary64_zero, binary64_one, binary64_floorInt, binary64_intToNum]
  case fresh => rw [processSample_fnew, feedbackValue, binary64_mul]
  case advanced =>
    rw [processSample_wh]
    exact advanceHead_toNat_of_le hw hmax

/-! ## The write head over a block (R149, R209) -/

/-- The heads of `u` stand `j` places around the buffer from those of `s`. -/
def HeadsMoved (s : State) (j : Nat) (u : State) : Prop :=
  u.conf = s.conf ∧ ∀ c, (u.chan c).wh.toNat = ((s.chan c).wh.toNat + j) % s.conf.len.toNat

theorem headsMoved_zero {s : State} (h : s.headsInRange = true) : HeadsMoved s 0 s :=
  ⟨rfl, fun c => (Nat.mod_eq_of_lt ((headsInRange_iff_chan s).mp h c)).symm⟩

theorem headsMoved_frame {s u : State} {j : Nat} (hh : u.headsInRange = true)
    (h : HeadsMoved s j u) : HeadsMoved s (j + 1) (frameBody j (latchParams u)) := by
  obtain ⟨hconf, hheads⟩ := h
  refine ⟨by rw [frameBody_conf, latchParams_conf, hconf], fun c => ?_⟩
  have hw := (headsInRange_iff_chan u).mp hh c
  have hj := hheads c
  rw [frameBody_chan_wh, latchParams_chan, latchParams_conf]
  rw [← hconf] at hj ⊢
  exact advanceHead_mod hw hj

theorem frames_headsMoved {n : Nat} {s t : State} (hs : s.headsInRange = true)
    (h : frames n 0 s = .ok t) : HeadsMoved s n t := by
  have hn := frames_keeps_indexed (HeadsMoved s) (fun _ _ _ hu => hu)
    (fun _ _ hh hu => headsMoved_frame hh hu) h (headsMoved_zero hs)
  rwa [Nat.zero_add] at hn

/-- Settles O28: each frame moves both heads one place around the buffer. -/
theorem writeHeadAdvancesModuloLength : Obligations.WriteHeadAdvancesModuloLength := by
  intro n s t hc hh h c
  replace h : execProcess n s = .next t := h
  rcases execProcess_cases n s with ⟨h0, -⟩ | ⟨-, u, hu, he⟩ | ⟨-, e, -, he⟩
  · simp [hc] at h0
  · cases he.symm.trans h
    obtain ⟨-, hheads⟩ := frames_headsMoved (headsInRange_of_headsOk hh hc) hu
    exact hheads c
  · cases he.symm.trans h

end Sys2Proof.Machine


/-! SUPPORT. PROCESS_SAMPLE under binary64: integers in the range of the heads and lengths
are kept by every sum and difference (R206), a delay of exactly `LEN` reads at the write head (R153), and a
smoother does not pass its target (R158). -/

namespace Sys2Proof.Machine

/-! ## Integers as words (R206) -/

theorem f64Unit_pos : (0 : Int) < f64Unit := by
  rw [f64Unit]
  positivity

/-- An integer of at most 53 bits is the magnitude of a finite pattern. -/
theorem exists_pattern_of_nat {m : Nat} (h : m < 2 ^ 53) :
    ∃ b, b < f64InfBits ∧ patternMag b = m * f64Unit := by
  rcases Nat.eq_zero_or_pos m with rfl | hpos
  · exact ⟨0, by decide, by simp [patternMag]⟩
  have hlow : 2 ^ Nat.log2 m ≤ m := Nat.log2_self_le hpos.ne'
  have hhigh : m < 2 ^ (Nat.log2 m + 1) := Nat.lt_log2_self
  have hlog : Nat.log2 m < 53 := (Nat.log2_lt hpos.ne').mpr h
  generalize Nat.log2 m = l at hlow hhigh hlog
  have hq : 2 ^ 52 ≤ m * 2 ^ (52 - l) := by
    calc 2 ^ 52 = 2 ^ l * 2 ^ (52 - l) := by rw [← Nat.pow_add]; congr 1; omega
      _ ≤ m * 2 ^ (52 - l) := Nat.mul_le_mul_right _ hlow
  have hq' : m * 2 ^ (52 - l) ≤ 2 ^ 53 := by
    calc m * 2 ^ (52 - l) ≤ 2 ^ (l + 1) * 2 ^ (52 - l) := Nat.mul_le_mul_right _ hhigh.le
      _ = 2 ^ 53 := by rw [← Nat.pow_add]; congr 1; omega
  refine ⟨(1022 + l) * 2 ^ 52 + m * 2 ^ (52 - l), ?_, ?_⟩
  · unfold f64InfBits
    omega
  · rw [patternMag_step (.inr hq) hq', Nat.mul_assoc, ← Nat.pow_add, f64Unit]
    congr 2
    omega

/-- An integer of at most 53 bits is converted exactly (R206). -/
theorem f64Value_ofInt {k : Int} (h : k.natAbs < 2 ^ 53) :
    f64Value (f64OfInt k) = .fin (k * f64Unit) := by
  obtain ⟨b, hb, hmag⟩ := exists_pattern_of_nat h
  have hround : roundBits (k.natAbs * f64Unit) 0 = b := by
    have hexact := roundBits_patternMag b 0
    rwa [Nat.pow_zero, Nat.mul_one, Nat.min_eq_left hb.le, hmag] at hexact
  have hvalue : (if k < 0 then -((k.natAbs * f64Unit : Nat) : Int) else (k.natAbs * f64Unit : Nat)) =
      k * f64Unit := by
    rw [Int.natCast_mul, ← neg_mul, ← ite_mul]
    split
    · next hk => rw [Int.ofNat_natAbs_of_nonpos hk.le, neg_neg]
    · next hk => rw [Int.natAbs_of_nonneg (by omega)]
  rw [f64OfInt, hround, f64Value_pack _ hb, hmag, ← hvalue]
  simp only [decide_eq_true_eq]

theorem f64Sign_ofInt (k : Int) : f64Sign (f64OfInt k) = decide (k < 0) :=
  (f64Pack_fields _ ((roundBits_le _ _).trans_lt (by decide))).2.2

/-- A sum of two integer values, not both of a negative sign bit, is the word of the exact sum; a zero sum is
`+0` (R202). -/
theorem f64Add_integers (d : Config.Draw) {a b : F64} {k m : Int}
    (ha : f64Value a = .fin (k * f64Unit)) (hb : f64Value b = .fin (m * f64Unit))
    (hsign : (f64Sign a && f64Sign b) = false) : f64Add d a b = f64OfInt (k + m) := by
  have hpos := f64Unit_pos
  rw [f64Add_finite d ha hb, ← add_mul, hsign]
  generalize k + m = n
  rcases eq_or_ne n 0 with rfl | hn
  · rw [zero_mul, if_pos rfl]
    simp [f64Zero, f64OfInt, roundBits, roundShift, Nat.log2_zero]
  · rw [if_neg (mul_ne_zero hn hpos.ne'), f64OfInt, Int.natAbs_mul, Int.natAbs_natCast]
    simp only [mul_neg_iff, hpos, hpos.not_gt, and_true, and_false, false_or]

/-- The sum with an integer that is not negative is the word of the exact sum. -/
theorem f64Add_ofInt (d : Config.Draw) {k m : Int} (hk : k.natAbs < 2 ^ 53) (hm : m.natAbs < 2 ^ 53)
    (hm0 : 0 ≤ m) : f64Add d (f64OfInt k) (f64OfInt m) = f64OfInt (k + m) := by
  refine f64Add_integers d (f64Value_ofInt hk) (f64Value_ofInt hm) ?_
  rw [f64Sign_ofInt m, decide_eq_false hm0.not_gt, Bool.and_false]

/-- The difference from an integer that is not negative is the word of the exact difference. -/
theorem f64Sub_ofInt (d : Config.Draw) {k m : Int} (hk : k.natAbs < 2 ^ 53) (hm : m.natAbs < 2 ^ 53)
    (hk0 : 0 ≤ k) : f64Sub d (f64OfInt k) (f64OfInt m) = f64OfInt (k - m) := by
  have hneg : f64Value (f64Neg (f64OfInt m)) = .fin (-m * f64Unit) := by
    rw [neg_mul]
    exact f64Value_neg (f64Value_ofInt hm)
  refine f64Add_integers d (f64Value_ofInt hk) hneg ?_
  rw [f64Sign_ofInt k, decide_eq_false hk0.not_gt, Bool.false_and]

theorem f64FloorInt_ofInt (d : Config.Draw) {k : Int} (hk : k.natAbs < 2 ^ 53) :
    f64FloorInt d (f64OfInt k) = k := by
  rw [f64FloorInt, f64Value_ofInt hk]
  exact Int.mul_ediv_cancel k f64Unit_pos.ne'

theorem f64Lt_ofInt_zero {k : Int} (hk : k.natAbs < 2 ^ 53) (hneg : k < 0) :
    f64Lt (f64OfInt k) Config.plusZero = true := by
  rw [f64Lt, f64Value_ofInt hk, f64Value_plusZero]
  exact decide_eq_true (mul_neg_of_neg_of_pos hneg f64Unit_pos)

/-! ## A delay of exactly `LEN` samples (R153) -/

/-- Settles O35: the difference `w - LEN` is negative, so the length is added back and the head is left. -/
theorem fullLengthDelayAliasesToZero : Obligations.FullLengthDelayAliasesToZero := by
  intro k c w len hw hmax
  have hback (d : Config.Draw) : f64Sub d (f64OfInt w) (f64OfInt len) = f64OfInt (w - len) :=
    f64Sub_ofInt d (by omega) (by omega) (by omega)
  have hwrap (d : Config.Draw) : f64Add d (f64OfInt (w - len)) (f64OfInt len) = f64OfInt w := by
    rw [f64Add_ofInt d (by omega) (by omega) (by omega), sub_add_cancel]
  have hrh : readPosition binary64 k c w len (f64OfInt len) = f64OfInt w := by
    rw [readPosition, binary64_sub, binary64_add, binary64_lt, binary64_zero, binary64_intToNum,
      hback, hwrap, if_pos (f64Lt_ofInt_zero (by omega) (by omega))]
  have hfrac : fraction binary64 k c (f64OfInt w) w = 0#64 := by
    rw [fraction, binary64_sub, binary64_intToNum, f64Sub_ofInt _ (by omega) (by omega) (by omega),
      sub_self]
    decide +kernel
  have hbase : baseIndex binary64 k c (f64OfInt w) = w := by
    rw [baseIndex, binary64_floorInt, f64FloorInt_ofInt _ (by omega)]
  have htap : (tapIndex w len : Int) = w := tapIndex_of_inRange (by omega) (by omega)
  dsimp only
  rw [hrh]
  exact ⟨rfl, hbase, hfrac, Int.ofNat.inj htap⟩

/-! ## The smoother (R141, R158) -/

/-- A finite word is its sign and its own magnitude rounded. -/
theorem f64Pack_roundBits {w : F64} {v : Int} (h : f64Value w = .fin v) :
    f64Pack (f64Sign w) (roundBits v.natAbs 0) = w := by
  obtain ⟨p, hp, hmag⟩ := exists_pattern_of_finite h
  have hw : patternMag (w.toNat % 2 ^ 63) = v.natAbs := by
    rcases f64Value_cases w with ⟨-, hv⟩ | ⟨-, -, hv⟩ | ⟨-, -, hv⟩
    · simp [hv] at h
    · simp [hv] at h
    · rw [hv] at h
      injection h with h
      rw [← f64Mag_eq_patternMag, ← h]
      split <;> simp
  have hpw : p = w.toNat % 2 ^ 63 := patternMag_strictMono.injective (hmag.trans hw.symm)
  have hround := roundBits_patternMag p 0
  rw [Nat.pow_zero, Nat.mul_one, Nat.min_eq_left hp.le, hmag] at hround
  rw [hround, hpw, f64Pack_self]

/-- A finite value less itself is `+0` (R202). -/
theorem f64Sub_self {w : F64} {v : Int} (d : Config.Draw) (h : f64Value w = .fin v) :
    f64Sub d w w = Config.plusZero := by
  rw [f64Sub, f64Add_finite d h (f64Value_neg h), if_pos (add_neg_cancel v), (f64Neg_fields w).2.2,
    Bool.and_not_self]
  rfl

/-- Adding `+0` keeps every finite value but `-0` (R202). -/
theorem f64Add_plusZero {w : F64} {v : Int} (d : Config.Draw) (h : f64Value w = .fin v)
    (hw : w ≠ 0x8000000000000000#64) : f64Add d w Config.plusZero = w := by
  have hself := f64Pack_roundBits h
  rw [f64Add_finite d h f64Value_plusZero, add_zero]
  split
  · next h0 =>
    rw [h0] at hself
    cases hs : f64Sign w with
    | false => rw [hs] at hself; exact hself
    | true => rw [hs] at hself; exact absurd hself.symm hw
  · next h0 => rwa [← f64Sign_of_ne_zero h h0]

/-- At its target the smoother adds `+0` (R141). -/
theorem smoothStep_fixed (k : Nat) (c : Chan) {s : F64} (hs : f64IsFinite s = true)
    (hne : s ≠ 0x8000000000000000#64) : smoothStep binary64 k c s s = s := by
  obtain ⟨x, hx⟩ := (f64IsFinite_iff s).mp hs
  have hzero (d : Config.Draw) : f64Mul d Config.smoothCoef Config.plusZero = Config.plusZero := by
    obtain ⟨y, hy, -⟩ := f64Value_smoothCoef
    rw [f64Mul_finite d hy f64Value_plusZero, Int.natAbs_zero, Nat.mul_zero]
    decide +kernel
  rw [smoothStep, binary64_sub, binary64_mul, binary64_add, binary64_smoothCoef, f64Sub_self _ hx,
    hzero, f64Add_plusZero _ hx hne]

/-- Settles O37: a step stays between the old value and the target, and adds `+0` where they are equal. -/
theorem smootherNeverOvershoots : Obligations.SmootherNeverOvershoots := by
  refine ⟨fun k c s target hs ht hs0 ht0 => ?_, fun k c _ => smoothStep_fixed k c⟩
  obtain ⟨x, hx⟩ := (f64IsFinite_iff s).mp hs
  obtain ⟨y, hy⟩ := (f64IsFinite_iff target).mp ht
  have hx0 : 0 ≤ x := (f64Le_fin f64Value_plusZero hx).mp hs0
  have hy0 : 0 ≤ y := (f64Le_fin f64Value_plusZero hy).mp ht0
  obtain ⟨r, hr, hmin, hmax⟩ := smoothStep_between k c hx hy hx0 hy0
  simp only [f64Le_fin hx hy, f64Le_fin hy hx, f64Le_fin hx hr, f64Le_fin hr hy, f64Le_fin hy hr,
    f64Le_fin hr hx]
  omega

end Sys2Proof.Machine


/-! SUPPORT. The smoother and the read position under ideal arithmetic (R154, R158, R212). -/

namespace Sys2Proof.Machine

/-! ## The smoother (R158) -/

/-- Under ideal arithmetic one frame leaves 0.999 of the distance to the target. -/
theorem smoothStep_ideal (k : Nat) (c : Chan) (s target : Rat) :
    smoothStep ideal k c s target = target + (s - target) * (999 / 1000) := by
  simp only [smoothStep, ideal]
  ring

/-- Settles O49, by induction on the frames. -/
theorem smoothingIsExponentialWhenIdeal : Obligations.SmoothingIsExponentialWhenIdeal := by
  intro target s0 k
  induction k with
  | zero => simp [idealSmooth]
  | succ k ih =>
    rw [idealSmooth, smoothStep_ideal, ih]
    ring

/-! ## The read position (R154) -/

theorem readPosition_ideal (k : Nat) (c : Chan) (w len : Nat) (dts : Rat) :
    readPosition ideal k c w len dts =
      if (w : Rat) - dts < 0 then (w : Rat) - dts + len else (w : Rat) - dts := by
  simp [readPosition, ideal]

theorem readPosition_ideal_inRange (k : Nat) (c : Chan) {w len : Nat} {dts : Rat} (hw : w < len)
    (hpos : 0 < dts) (hlen : dts ≤ (len : Rat)) :
    0 ≤ readPosition ideal k c w len dts ∧ readPosition ideal k c w len dts < (len : Rat) := by
  have hw0 : (0 : Rat) ≤ w := Nat.cast_nonneg w
  have hwlen : (w : Rat) < len := Nat.cast_lt.mpr hw
  rw [readPosition_ideal]
  split <;> constructor <;> linarith

/-- Settles O50: the floor of a position in `[0, LEN)` is an index in `[0, LEN)`. -/
theorem idealReadPositionIsInRange : Obligations.IdealReadPositionIsInRange := by
  intro k c w len dts hw hpos hlen
  obtain ⟨h0, hlt⟩ := readPosition_ideal_inRange k c hw hpos hlen
  dsimp only
  generalize readPosition ideal k c w len dts = rh at h0 hlt ⊢
  have hxi0 : 0 ≤ baseIndex ideal k c rh := Int.floor_nonneg.mpr h0
  have hxi : baseIndex ideal k c rh < (len : Int) := Int.floor_lt.mpr (by exact_mod_cast hlt)
  refine ⟨h0, hlt, ?_, tapIndex_of_inRange hxi0 hxi⟩
  simp [idxCorrected, hxi0, hxi]

end Sys2Proof.Machine


/-! SUPPORT. A frame said once for either channel (R140, R171, R173, R174): each channel is its own
PROCESS_SAMPLE and takes the fresh feedback value of one of the two; and the obligations about one frame
and about blocks of frames. -/

namespace Sys2Proof

/-- The left or the right one of a pair. -/
def Chan.pick {β : Type} (c : Chan) (l r : β) : β :=
  match c with
  | .left => l
  | .right => r

/-- The other channel. -/
def Chan.other (c : Chan) : Chan := c.pick .right .left

end Sys2Proof

namespace Sys2Proof.Machine

/-! ## One frame, channel by channel -/

/-- `LDT[c]`, the target of channel `c`. -/
def Latches.target {α : Type} (lt : Latches α) (c : Chan) : α := c.pick lt.ldt0 lt.ldt1

/-- PROCESS_SAMPLE of channel `c` as frame `i` calls it once the latches are set (R171). -/
def State.sampled (s : State) (i : Nat) (c : Chan) : Sampled F64 :=
  processSample binary64 s.draws c s.conf.sr s.conf.len.toNat (s.latch.target c) s.latch.lfb
    (s.ioRead c i) (s.chan c)

/-- A frame leaves each channel as its PROCESS_SAMPLE does, but for the feedback, which the commit takes from
the channel itself or, when ping-pong is latched, from the other (R173). -/
theorem frameBody_chan (i : Nat) (s : State) (c : Chan) :
    (frameBody i s).chan c =
      { (s.sampled i c).chan with
        fb := if s.latch.lpp then (s.sampled i c.other).fnew else (s.sampled i c).fnew } := by
  cases c <;>
    simp [frameBody, frameCore, commitFeedback_eq, State.chan, State.sampled, Latches.target, Chan.other,
      Chan.pick, State.ioRead, State.io]

/-- A frame writes to `IO[c][i]` the mix of the channel's own dry and wet values. -/
theorem frameBody_io_eq (i : Nat) (s : State) (c : Chan) :
    (frameBody i s).io c = Memory.write Config.plusZero (s.io c) i
      (mix binary64 s.draws c (s.ioRead c i) (s.sampled i c).out s.latch.ldw) := by
  cases c <;> rfl

/-- What the frame's body reads is all that its samples depend on. -/
theorem sampled_congr {s t : State} {i j : Nat} {c : Chan} (hdraws : s.draws = t.draws)
    (hconf : s.conf = t.conf) (hlatch : s.latch = t.latch) (hchan : s.chan c = t.chan c)
    (hio : s.ioRead c i = t.ioRead c j) : s.sampled i c = t.sampled j c := by
  rw [State.sampled, hdraws, hconf, hlatch, hchan, hio]
  rfl

/-- Settles O32: each channel's sample is computed from its own channel and input, and only the commit looks
at the other's fresh value. -/
theorem channelsAreIndependentWithinAFrame : Obligations.ChannelsAreIndependentWithinAFrame := by
  intro k sr len lt l r l' r' d0 d1 d0' d1'
  simp only [frameCore, commitFeedback_eq, true_and]
  constructor
  · intro hp
    simp [hp]
  · intro hp
    simp [hp]

/-! ## PROCESS on a configured engine (R170, R186, R235) -/

/-- Settles O26: the refusal is the first thing PROCESS does. -/
theorem processRefusesWhenUnconfigured : Obligations.ProcessRefusesWhenUnconfigured := by
  intro n s hc
  show execProcess n s = _
  rcases execProcess_cases n s with ⟨-, he⟩ | ⟨h1, -⟩ | ⟨h1, -⟩
  · exact he
  · simp [hc] at h1
  · simp [hc] at h1

/-- PROCESS answers NotConfigured, or has run its frames. -/
theorem exec_process_cases {n : Nat} {s t : State} (h : exec (.process n) s = .next t) :
    (s.conf.cfg = false ∧ t = respond .A .notConfigured s) ∨
    (s.conf.cfg = true ∧ ∃ u, frames n 0 s = .ok u ∧ t = respond .A .ok u) := by
  replace h : execProcess n s = .next t := h
  rcases execProcess_cases n s with ⟨hc, he⟩ | ⟨hc, u, hu, he⟩ | ⟨-, e, -, he⟩
  · cases he.symm.trans h
    exact .inl ⟨hc, rfl⟩
  · cases he.symm.trans h
    exact .inr ⟨hc, u, hu, rfl⟩
  · cases he.symm.trans h

/-- Frames that answer a state are answered OK. -/
theorem exec_process_of_frames {n : Nat} {s t : State} (hc : s.conf.cfg = true)
    (h : frames n 0 s = .ok t) : exec (.process n) s = .next (respond .A .ok t) := by
  show execProcess n s = _
  simp [execProcess, State.configured, hc, h]

/-- `FC` ends at the index after the last frame (R40). -/
theorem frames_fc {k i : Nat} {s t : State} (h : frames k i s = .ok t) :
    t.fc = BitVec.ofNat Config.cntW (i + k) := by
  induction k generalizing i s with
  | zero =>
    cases h
    rfl
  | succ k ih =>
    obtain ⟨u, -, hrest⟩ := frames_succ_ok h
    rw [ih hrest, show i + 1 + k = i + (k + 1) by omega]

/-- Settles O25: no frame stops while the heads are in range, and none answers on port A. -/
theorem processCompletesWhenConfigured : Obligations.ProcessCompletesWhenConfigured := by
  intro n s hn hc hh
  obtain ⟨t, ht⟩ := frames_of_inRange (i := 0) (k := n) (by rw [Config.ioLen]; omega)
    (headsInRange_of_headsOk hh hc)
  refine ⟨_, exec_process_of_frames hc ht, ?_, ?_⟩
  · rw [respond_A_rspA, (frames_portA_rspA ht).2]
    rfl
  · rw [respond_fc, frames_fc ht, Nat.zero_add, toNat_ofNat_cntW hn]

/-! ## One frame without port-B traffic (R170 to R174) -/

/-- The state in which a quiet frame's body runs: `FC` set, then the latches (R172). -/
def State.latchedAt (s : State) (i : Nat) : State :=
  { s with
    fc := BitVec.ofNat Config.cntW i
    latch := ⟨s.params.drywet, s.params.feedback, s.params.dtl, s.params.dtr, s.params.pingpong⟩ }

theorem latchParams_withFc {s : State} (hp : s.portB = []) (hw : s.wireB = []) (i : Nat) :
    latchParams { s with fc := BitVec.ofNat Config.cntW i } = s.latchedAt i :=
  latchParams_quiet (s := { s with fc := BitVec.ofNat Config.cntW i }) hp hw

@[simp] theorem latchedAt_chan (s : State) (i : Nat) (c : Chan) : (s.latchedAt i).chan c = s.chan c := by
  cases c <;> rfl

@[simp] theorem latchedAt_io (s : State) (i : Nat) (c : Chan) : (s.latchedAt i).io c = s.io c := by
  cases c <;> rfl

@[simp] theorem latchedAt_ioRead (s : State) (i : Nat) (c : Chan) (j : Nat) :
    (s.latchedAt i).ioRead c j = s.ioRead c j := by
  rw [State.ioRead, latchedAt_io, State.ioRead]

@[simp] theorem latchedAt_conf (s : State) (i : Nat) : (s.latchedAt i).conf = s.conf := rfl

@[simp] theorem latchedAt_draws (s : State) (i : Nat) : (s.latchedAt i).draws = s.draws := rfl

@[simp] theorem latchedAt_latch (s : State) (i : Nat) : (s.latchedAt i).latch =
    ⟨s.params.drywet, s.params.feedback, s.params.dtl, s.params.dtr, s.params.pingpong⟩ := rfl

theorem frames_one_quiet {s : State} (hh : s.headsInRange = true) (hp : s.portB = []) (hw : s.wireB = []) :
    frames 1 0 s = .ok { frameBody 0 (s.latchedAt 0) with fc := 1#Config.cntW } := by
  have hframe : frame 0 { s with fc := BitVec.ofNat Config.cntW 0 } = .ok (frameBody 0 (s.latchedAt 0)) := by
    rw [frame_of_inRange (s := { s with fc := BitVec.ofNat Config.cntW 0 }) (by decide) hh,
      latchParams_withFc hp hw]
  rw [frames, hframe]
  rfl

/-- Each channel of a frame follows its nine steps (R140). -/
theorem sampled_sampleRule (i : Nat) {s : State} (c : Chan) (hh : s.headsInRange = true)
    (hlen : s.conf.len.toNat ≤ Config.lenMax) (hwf : Memory.wf Config.plusZero (s.chan c).buf = true) :
    SampleRule s.draws c s.conf.sr s.conf.len.toNat (s.latch.target c) s.latch.lfb (s.ioRead c i)
      (s.chan c) (s.sampled i c).chan (s.sampled i c).out (s.sampled i c).fnew :=
  (processSampleFollowsTheNineSteps s.draws c s.conf.sr s.conf.len.toNat (s.latch.target c) s.latch.lfb
    (s.ioRead c i) (s.chan c) ((headsInRange_iff_chan s).mp hh c) hlen hwf).1

theorem frameBody_ioRead (i : Nat) {s : State} (c : Chan) (hwf : Memory.wf Config.plusZero (s.io c) = true)
    (j : Nat) : (frameBody i s).ioRead c j =
      if j = i then mix binary64 s.draws c (s.ioRead c i) (s.sampled i c).out s.latch.ldw
      else s.ioRead c j := by
  rw [State.ioRead, frameBody_io_eq, memory_read_write _ _ _ hwf]
  rfl

theorem latchParams_ioRead (s : State) (c : Chan) (i : Nat) :
    (latchParams s).ioRead c i = s.ioRead c i := by
  rw [State.ioRead, latchParams_io, State.ioRead]

theorem mix_binary64 (k : Nat) (c : Chan) (dry wet dw : F64) :
    mix binary64 k c dry wet dw = mixRule k c dry wet dw := by
  rw [mix, mixRule, binary64_add, binary64_mul, binary64_sub, binary64_one]

theorem len_le_lenMax {s : State} (hc : s.conf.cfg = true) (h : s.headsOk = true) :
    s.conf.len.toNat ≤ Config.lenMax := by
  simp only [State.headsOk, hc, Bool.not_true, Bool.false_or, Bool.and_eq_true, decide_eq_true_eq] at h
  exact h.1.2

/-- Settles O24: the frame's body on the latched state, channel by channel. -/
theorem processOneFrame : Obligations.ProcessOneFrame := by
  intro s hc hh hm hq
  obtain ⟨hp, hw⟩ := (quietB_iff s).mp hq
  have hheads := headsInRange_of_headsOk hh hc
  have hwf := blockKept_zero hm
  have hrule (c : Chan) := sampled_sampleRule 0 (s := s.latchedAt 0) c hheads (len_le_lenMax hc hh)
    (by rw [latchedAt_chan]; exact hwf.bufWf c)
  have hio (c : Chan) := frameBody_ioRead 0 (s := s.latchedAt 0) c
    (by rw [latchedAt_io]; exact hwf.ioWf c)
  have hchan (c : Chan) := frameBody_chan 0 (s.latchedAt 0) c
  simp only [latchedAt_chan, latchedAt_ioRead, latchedAt_conf, latchedAt_draws, latchedAt_latch,
    Latches.target, mix_binary64] at hrule hio hchan
  exact ⟨_, _, _, _, _, _, _, exec_process_of_frames hc (frames_one_quiet hheads hp hw), hrule .left,
    hrule .right, hchan .left, hchan .right, rfl, hio .left, hio .right, rfl, rfl, rfl,
    rfl⟩

/-! ## Blocks in a row (R177) -/

/-- Two quiet states at which the same frames follow: `u` reads at index `j` of the block memory what `v`
reads at `a + j`, for `b` entries, and the rest of what a frame reads is the same. -/
structure SameBlock (a b : Nat) (u v : State) : Prop where
  chan : ∀ c, u.chan c = v.chan c
  conf : u.conf = v.conf
  params : u.params = v.params
  draws : u.draws = v.draws
  quietU : u.portB = [] ∧ u.wireB = []
  quietV : v.portB = [] ∧ v.wireB = []
  wfU : ∀ c, Memory.wf Config.plusZero (u.io c) = true
  wfV : ∀ c, Memory.wf Config.plusZero (v.io c) = true
  io : ∀ c j, j < b → u.ioRead c j = v.ioRead c (a + j)

/-- The frame `i` of the one and the frame `a + i` of the other keep them so. -/
theorem sameBlock_frame {a b i : Nat} {u v : State} (h : SameBlock a b u v) (hi : i < b) :
    SameBlock a b (frameBody i (u.latchedAt i)) (frameBody (a + i) (v.latchedAt (a + i))) := by
  have hsampled (c : Chan) : (u.latchedAt i).sampled i c = (v.latchedAt (a + i)).sampled (a + i) c := by
    refine sampled_congr h.draws h.conf ?_ ?_ ?_
    · rw [latchedAt_latch, latchedAt_latch, h.params]
    · rw [latchedAt_chan, latchedAt_chan, h.chan]
    · rw [latchedAt_ioRead, latchedAt_ioRead, h.io c i hi]
  have hwfU (c : Chan) : Memory.wf Config.plusZero ((u.latchedAt i).io c) = true :=
    (latchedAt_io u i c).symm ▸ h.wfU c
  have hwfV (c : Chan) : Memory.wf Config.plusZero ((v.latchedAt (a + i)).io c) = true :=
    (latchedAt_io v (a + i) c).symm ▸ h.wfV c
  constructor
  case chan =>
    intro c
    rw [frameBody_chan, frameBody_chan, hsampled, hsampled, latchedAt_latch, latchedAt_latch, h.params]
  case conf => exact h.conf
  case params => exact h.params
  case draws => rw [frameBody_draws, frameBody_draws, latchedAt_draws, latchedAt_draws, h.draws]
  case quietU => exact h.quietU
  case quietV => exact h.quietV
  case wfU =>
    intro c
    rw [frameBody_io_eq]
    exact memory_write_wf _ _ (hwfU c)
  case wfV =>
    intro c
    rw [frameBody_io_eq]
    exact memory_write_wf _ _ (hwfV c)
  case io =>
    intro c j hj
    rw [frameBody_ioRead i c (hwfU c), frameBody_ioRead (a + i) c (hwfV c), hsampled, latchedAt_draws,
      latchedAt_draws, latchedAt_latch, latchedAt_latch, h.draws, h.params]
    simp only [latchedAt_ioRead, h.io c i hi, h.io c j hj, Nat.add_left_cancel_iff]

/-- A quiet block begins with its first frame's body on the latched state. -/
theorem frames_succ_quiet {k i : Nat} {s t : State} (hp : s.portB = []) (hw : s.wireB = [])
    (h : frames (k + 1) i s = .ok t) : frames k (i + 1) (frameBody i (s.latchedAt i)) = .ok t := by
  obtain ⟨u, hu, hrest⟩ := frames_succ_ok h
  obtain ⟨-, -, rfl⟩ := frame_ok hu
  rwa [latchParams_withFc hp hw] at hrest

theorem sameBlock_frames {a b k i : Nat} {u v t t' : State} (h : SameBlock a b u v) (hk : i + k ≤ b)
    (hu : frames k i u = .ok t) (hv : frames k (a + i) v = .ok t') : SameBlock a b t t' := by
  induction k generalizing i u v with
  | zero =>
    cases hu
    cases hv
    exact ⟨h.chan, h.conf, h.params, h.draws, h.quietU, h.quietV, h.wfU, h.wfV, h.io⟩
  | succ k ih =>
    exact ih (sameBlock_frame h (by omega)) (by omega) (frames_succ_quiet h.quietU.1 h.quietU.2 hu)
      (frames_succ_quiet h.quietV.1 h.quietV.2 hv)

/-- A block leaves the entries before its first index alone. -/
theorem frames_ioRead_below {k i : Nat} {s t : State}
    (hwf : ∀ c, Memory.wf Config.plusZero (s.io c) = true) (h : frames k i s = .ok t) (c : Chan) {j : Nat}
    (hj : j < i) : t.ioRead c j = s.ioRead c j := by
  refine (frames_keeps_indexed (fun m u => i ≤ m ∧ (∀ c, Memory.wf Config.plusZero (u.io c) = true) ∧
    u.ioRead c j = s.ioRead c j) (fun _ _ _ hu => hu) (fun m u _ hu => ?_) h ⟨le_rfl, hwf, rfl⟩).2.2
  obtain ⟨hm, hwfu, hread⟩ := hu
  have hlatched (c : Chan) : Memory.wf Config.plusZero ((latchParams u).io c) = true :=
    (latchParams_io u c).symm ▸ hwfu c
  refine ⟨Nat.le_succ_of_le hm, fun c => ?_, ?_⟩
  · rw [frameBody_io_eq]
    exact memory_write_wf _ _ (hlatched c)
  · rw [frameBody_ioRead m c (hlatched c), if_neg (by omega), latchParams_ioRead, hread]

/-- Nothing but the block memory is new after the host's move. -/
theorem fields_of_eq_withIO {u v : State} (h : u = { v with io0 := u.io0, io1 := u.io1 }) :
    (∀ c, u.chan c = v.chan c) ∧ u.conf = v.conf ∧ u.params = v.params ∧ u.draws = v.draws ∧
      u.portB = v.portB ∧ u.wireB = v.wireB := by
  rw [h]
  exact ⟨fun _ => rfl, rfl, rfl, rfl, rfl, rfl⟩

/-- Two blocks in a row, on a configured engine: the second is the rest of the long one. -/
theorem sameBlock_of_reload {s s2 t1 : State} {a b : Nat} (hq : s.quietB = true) (hm : s.memoryOk = true)
    (hc : s.conf.cfg = true) (ht1 : frames a 0 s = .ok t1) (hm2 : s2.memoryOk = true)
    (hs2 : s2 = { respond .A .ok t1 with io0 := s2.io0, io1 := s2.io1 })
    (hio : ∀ c j, j < b → s2.ioRead c j = t1.ioRead c (a + j)) : SameBlock a b s2 t1 := by
  obtain ⟨-, hp, hw, -⟩ := frames_quiet hq ht1
  obtain ⟨hp0, hw0⟩ := (quietB_iff s).mp hq
  have hquiet : t1.portB = [] ∧ t1.wireB = [] := ⟨hp.trans hp0, hw.trans hw0⟩
  have hm1 : t1.memoryOk = true := memoryOk_stepInvariant.frames hc ht1 hm
  obtain ⟨hchan, hconf, hparams, hdraws, hport, hwire⟩ := fields_of_eq_withIO hs2
  exact
    { chan := fun c => (hchan c).trans (by cases c <;> rfl)
      conf := hconf
      params := hparams
      draws := hdraws
      quietU := ⟨hport.trans hquiet.1, hwire.trans hquiet.2⟩
      quietV := hquiet
      wfU := (blockKept_zero hm2).ioWf
      wfV := (blockKept_zero hm1).ioWf
      io := hio }

/-- Settles O29: on an unconfigured engine nothing moves; on a configured one the second block runs the last
frames of the long block. -/
theorem blocksOfFramesCompose : Obligations.BlocksOfFramesCompose := by
  intro a b s t t1 s2 t2 hq hm _ ht ht1 hm2 hs2 hio ht2
  obtain ⟨hchan2, hconf2, hparams2, -⟩ := fields_of_eq_withIO hs2
  rcases exec_process_cases ht1 with ⟨hc, rfl⟩ | ⟨hc, u1, hu1, rfl⟩
  · rcases exec_process_cases ht with ⟨-, rfl⟩ | ⟨hc', -⟩
    · rcases exec_process_cases ht2 with ⟨-, rfl⟩ | ⟨hc2, -⟩
      · refine ⟨hchan2 .left, hchan2 .right, hconf2, hparams2, fun _ _ _ => rfl, fun c j hj => ?_⟩
        rw [respond_ioRead, hio c j hj]
      · simp [hconf2, hc] at hc2
    · simp [hc] at hc'
  · rcases exec_process_cases ht with ⟨hc', -⟩ | ⟨-, u, hu, rfl⟩
    · simp [hc] at hc'
    · rcases exec_process_cases ht2 with ⟨hc2, -⟩ | ⟨-, u2, hu2, rfl⟩
      · simp [hconf2, frames_conf hu1, hc] at hc2
      · have hrest : frames b (a + 0) u1 = .ok u := by
          rw [frames_add, hu1] at hu
          simpa using hu
        have hsame := sameBlock_of_reload hq hm hc hu1 hm2 hs2
          (fun c j hj => by rw [hio c j hj, respond_ioRead])
        have hend := sameBlock_frames hsame (Nat.zero_add b).le hu2 hrest
        refine ⟨hend.chan .left, hend.chan .right, hend.conf, hend.params, fun c j hj => ?_,
          fun c j hj => ?_⟩
        · rw [respond_ioRead, respond_ioRead]
          exact (frames_ioRead_below hsame.wfV hrest c hj).symm
        · rw [respond_ioRead, respond_ioRead]
          exact hend.io c j hj

end Sys2Proof.Machine


/-! SUPPORT. Silence under binary64 (R182): sums, and products with a finite value, keep zeros of either sign;
in a legal configured state the read position is finite, so the interpolation weights are, and every frame
of a silent engine gives zeros. And the mix at its ends (R183). -/

namespace Sys2Proof.Machine

/-! ## Zeros of either sign (R202) -/

theorem f64IsZero_iff (x : F64) : f64IsZero x = true ↔ f64Value x = .fin 0 := by simp [f64IsZero]

theorem f64IsZero_add (d : Config.Draw) {a b : F64} (ha : f64IsZero a = true)
    (hb : f64IsZero b = true) : f64IsZero (f64Add d a b) = true := by
  rw [f64IsZero_iff] at ha hb ⊢
  obtain ⟨r, hr, hlo, hhi, -⟩ := f64Add_between d ha hb ha ha (by simp) (by simp)
  rw [hr, le_antisymm hhi hlo]

/-- A finite factor keeps a zero a zero. -/
theorem f64IsZero_mul (d : Config.Draw) {a b : F64} {x y : Int} (ha : f64Value a = .fin x)
    (hb : f64Value b = .fin y) (h0 : x * y = 0) : f64IsZero (f64Mul d a b) = true := by
  obtain ⟨r, hr, hlo, hhi, -⟩ := f64Mul_between d ha hb f64Value_plusZero f64Value_plusZero
    (by rw [h0, zero_mul]) (by rw [h0, zero_mul])
  rw [f64IsZero_iff, hr, le_antisymm hhi hlo]

theorem f64IsZero_mul_finite (d : Config.Draw) {a b : F64} (ha : f64IsZero a = true)
    (hb : f64IsFinite b = true) : f64IsZero (f64Mul d a b) = true := by
  obtain ⟨y, hy⟩ := (f64IsFinite_iff b).mp hb
  exact f64IsZero_mul d ((f64IsZero_iff a).mp ha) hy (zero_mul y)

theorem f64IsZero_finite_mul (d : Config.Draw) {a b : F64} (ha : f64IsFinite a = true)
    (hb : f64IsZero b = true) : f64IsZero (f64Mul d a b) = true := by
  obtain ⟨x, hx⟩ := (f64IsFinite_iff a).mp ha
  exact f64IsZero_mul d hx ((f64IsZero_iff b).mp hb) (mul_zero x)

/-! ## Weights in `[0, 1]` -/

theorem f64Value_one : f64Value Config.one = .fin (f64Unit : Int) := by decide +kernel

theorem isFinite_of_inRange {v lo hi : F64} {l h : Int} (hlo : f64Value lo = .fin l)
    (hhi : f64Value hi = .fin h) (hv : inRange v lo hi = true) : f64IsFinite v = true := by
  obtain ⟨x, hx, -⟩ := exists_fin_of_inRange hlo hhi hv
  exact (f64IsFinite_iff v).mpr ⟨x, hx⟩

/-- A weight and its complement are finite. -/
theorem weights_finite {w : F64} (hw : inRange w Config.plusZero Config.one = true)
    (d : Config.Draw) : f64IsFinite w = true ∧ f64IsFinite (f64Sub d Config.one w) = true := by
  obtain ⟨x, hx, h0, h1⟩ := exists_fin_of_inRange f64Value_plusZero f64Value_one hw
  obtain ⟨r, hr, -⟩ := f64Sub_between d f64Value_one hx f64Value_plusZero f64Value_one
    (by omega) (by omega)
  exact ⟨(f64IsFinite_iff w).mpr ⟨x, hx⟩, (f64IsFinite_iff _).mpr ⟨r, hr⟩⟩

/-- Step 6 between two zeros (R147). -/
theorem interpolate_isZero (k : Nat) (c : Chan) {frac a b : F64}
    (hf : inRange frac Config.plusZero Config.one = true) (ha : f64IsZero a = true)
    (hb : f64IsZero b = true) : f64IsZero (interpolate binary64 k c frac a b) = true := by
  obtain ⟨hfin, hcomp⟩ := weights_finite hf (sampleDraw k c .weight)
  exact f64IsZero_add _ (f64IsZero_finite_mul _ hcomp ha) (f64IsZero_finite_mul _ hfin hb)

/-- MIX of two zeros (R174). -/
theorem mix_isZero (k : Nat) (c : Chan) {dry wet dw : F64}
    (hdw : inRange dw Config.plusZero Config.one = true) (hdry : f64IsZero dry = true)
    (hwet : f64IsZero wet = true) : f64IsZero (mix binary64 k c dry wet dw) = true := by
  obtain ⟨hfin, hcomp⟩ := weights_finite hdw (sampleDraw k c .mixWeight)
  exact f64IsZero_add _ (f64IsZero_mul_finite _ hdry hcomp) (f64IsZero_mul_finite _ hwet hfin)

/-! ## The read position of a legal state is finite (R29, R142 to R145) -/

/-- A finite value that rounds to an integer `n` or below is below `n + 1` (R207). -/
theorem lt_of_f64RoundHalfAway_le {d : Config.Draw} {a : F64} {x n : Int} (ha : f64Value a = .fin x)
    (hx : 0 ≤ x) (h : f64RoundHalfAway d a ≤ n) : x < (n + 1) * f64Unit := by
  have hfloor : x / f64Unit ≤ n := by
    refine le_trans ?_ h
    obtain ⟨m, rfl⟩ := Int.eq_ofNat_of_zero_le hx
    simp only [f64RoundHalfAway, ha, hx.not_gt, if_false, Int.natAbs_natCast, roundHalfUp]
    split <;> push_cast <;> omega
  exact (Int.ediv_lt_iff_lt_mul f64Unit_pos).mp (by omega)

/-- Rounding does not take a magnitude below an integer of 53 bits that it has reached. -/
theorem le_patternMag_roundBits {m sh n : Nat} (hn : n < 2 ^ 53) (h : n * f64Unit * 2 ^ sh ≤ m) :
    n * f64Unit ≤ patternMag (roundBits m sh) := by
  obtain ⟨b, hb, hmag⟩ := exists_pattern_of_nat hn
  rw [← hmag] at h ⊢
  exact patternMag_strictMono.monotone (le_roundBits_of_le hb.le h)

/-- A finite product of two positive values is their rounded magnitude. -/
theorem f64Value_mul_of_pos {d : Config.Draw} {a b : F64} {x y : Int} (ha : f64Value a = .fin x)
    (hb : f64Value b = .fin y) (hx : 0 < x) (hy : 0 < y) (hfin : f64IsFinite (f64Mul d a b) = true) :
    f64Value (f64Mul d a b) = .fin (patternMag (roundBits (x.natAbs * y.natAbs) 1074)) := by
  have hsign : (f64Sign a != f64Sign b) = false := by
    rw [f64Sign_of_ne_zero ha hx.ne', f64Sign_of_ne_zero hb hy.ne', decide_eq_false hx.not_gt,
      decide_eq_false hy.not_gt, bne_self_eq_false]
  rw [f64Mul_finite d ha hb, hsign] at hfin ⊢
  have hne : roundBits (x.natAbs * y.natAbs) 1074 ≠ f64InfBits := by
    intro hinf
    rw [hinf] at hfin
    exact absurd hfin (by decide +kernel)
  rw [f64Value_pack false (lt_of_le_of_ne (roundBits_le _ _) hne), if_neg (by decide)]

/-- The exact product of the operands that CONFIGURE accepts is below `LEN_MAX + 1` (R122, R123). -/
theorem configureLength_product_lt {d : Config.Draw} {sr md : F64} {n : Nat} {x y : Int}
    (h : configureLength binary64 d sr md = some n) (hx : f64Value sr = .fin x)
    (hy : f64Value md = .fin y) (hx0 : 0 < x) (hy0 : 0 < y) :
    x * y < (Config.lenMax + 1) * f64Unit * 2 ^ 1074 := by
  have hvalid : configureLength binary64 d sr md ≠ none := by simp [h]
  rw [Ne, configureLength_eq_none_iff] at hvalid
  simp only [not_or, Bool.not_eq_false, not_lt] at hvalid
  obtain ⟨-, -, hfin, -, hround⟩ := hvalid
  have hlt := lt_of_f64RoundHalfAway_le (f64Value_mul_of_pos hx hy hx0 hy0 hfin)
    (Int.natCast_nonneg _) hround
  by_contra hge
  rw [not_lt] at hge
  have hmag : (Config.lenMax + 1) * f64Unit * 2 ^ 1074 ≤ x.natAbs * y.natAbs := by
    rw [← Int.natAbs_of_nonneg hx0.le, ← Int.natAbs_of_nonneg hy0.le] at hge
    exact_mod_cast hge
  have hle := le_patternMag_roundBits (n := Config.lenMax + 1) (by decide) hmag
  exact absurd hlt (not_lt.mpr (by exact_mod_cast hle))

theorem readPosition_binary64 (k : Nat) (c : Chan) (w len : Nat) (dts : F64) :
    readPosition binary64 k c w len dts =
      if f64Lt (f64Sub (sampleDraw k c .back) (f64OfInt w) dts) Config.plusZero then
        f64Add (sampleDraw k c .wrap) (f64Sub (sampleDraw k c .back) (f64OfInt w) dts) (f64OfInt len)
      else f64Sub (sampleDraw k c .back) (f64OfInt w) dts := rfl

theorem neg_of_f64Lt_plusZero {a : F64} {x : Int} (ha : f64Value a = .fin x)
    (h : f64Lt a Config.plusZero = true) : x < 0 := by
  simpa [f64Lt, ha, f64Value_plusZero, valueLt] using h

/-- The read position is finite, and no further from 0 than a bound on the length and the delay (R144). -/
theorem readPosition_finite (k : Nat) (c : Chan) {w len bound : Nat} {dts : F64} {y : Int} (hw : w < len)
    (hlen : len ≤ bound) (hbound : bound < 2 ^ 53) (hdts : f64Value dts = .fin y) (hy0 : 0 ≤ y)
    (hy : y ≤ bound * f64Unit) :
    ∃ x, f64Value (readPosition binary64 k c w len dts) = .fin x ∧ -(bound * f64Unit : Int) ≤ x ∧
      x ≤ bound * f64Unit := by
  have hpos := f64Unit_pos
  have hB : f64Value (f64OfInt bound) = .fin (bound * f64Unit) := f64Value_ofInt (by omega)
  have hW : f64Value (f64OfInt w) = .fin (w * f64Unit) := f64Value_ofInt (by omega)
  have hL : f64Value (f64OfInt len) = .fin (len * f64Unit) := f64Value_ofInt (by omega)
  have hW0 : (0 : Int) ≤ w * f64Unit := mul_nonneg (Int.natCast_nonneg w) hpos.le
  have hL0 : (0 : Int) ≤ len * f64Unit := mul_nonneg (Int.natCast_nonneg len) hpos.le
  have hwB : (w : Int) * f64Unit ≤ bound * f64Unit := mul_le_mul_of_nonneg_right (by omega) hpos.le
  have hlB : (len : Int) * f64Unit ≤ bound * f64Unit := mul_le_mul_of_nonneg_right (by omega) hpos.le
  generalize (bound : Int) * f64Unit = B at *
  generalize (w : Int) * f64Unit = W at *
  generalize (len : Int) * f64Unit = L at *
  obtain ⟨x, hx, hxlo, hxhi, -⟩ := f64Sub_between (sampleDraw k c .back) hW hdts (f64Value_neg hB) hW
    (by omega) (by omega)
  rw [readPosition_binary64]
  split
  · next hneg =>
    have hx0 := neg_of_f64Lt_plusZero hx hneg
    obtain ⟨z, hz, hzlo, hzhi, -⟩ := f64Add_between (sampleDraw k c .wrap) hx hL (f64Value_neg hB) hL
      (by omega) (by omega)
    exact ⟨z, hz, hzlo, hzhi.trans hlB⟩
  · exact ⟨x, hx, hxlo, hxhi.trans hwB⟩

/-- Step 5's fractional part is a weight (R145). -/
theorem fraction_inRange (k : Nat) (c : Chan) {rh : F64} {x : Int} {bound : Nat}
    (hbound : bound < 2 ^ 53) (hrh : f64Value rh = .fin x) (hlo : -(bound * f64Unit : Int) ≤ x)
    (hhi : x ≤ bound * f64Unit) :
    inRange (fraction binary64 k c rh (baseIndex binary64 k c rh)) Config.plusZero Config.one = true := by
  have hpos := f64Unit_pos
  have hbase : baseIndex binary64 k c rh = x / f64Unit := by
    rw [baseIndex, binary64_floorInt, f64FloorInt, hrh]
  have hge : -(bound : Int) ≤ x / f64Unit :=
    (Int.le_ediv_iff_mul_le hpos).mpr ((neg_mul _ _).trans_le hlo)
  have hle : x / f64Unit ≤ bound := by
    rw [← Int.mul_ediv_cancel (bound : Int) hpos.ne']
    exact Int.ediv_le_ediv hpos hhi
  have hint : f64Value (f64OfInt (x / f64Unit)) = .fin (x / f64Unit * f64Unit) :=
    f64Value_ofInt (by omega)
  have hmod : x - x / f64Unit * f64Unit = x % f64Unit := by rw [mul_comm, ← Int.emod_def]
  obtain ⟨r, hr, hr0, hr1, -⟩ := f64Sub_between (sampleDraw k c .frac) hrh hint f64Value_plusZero
    f64Value_one (by rw [hmod]; exact Int.emod_nonneg x hpos.ne')
    (by rw [hmod]; exact (Int.emod_lt_of_pos x hpos).le)
  rw [hbase, fraction, binary64_sub, binary64_intToNum, inRange, f64Ge, Bool.and_eq_true,
    f64Le_fin f64Value_plusZero hr, f64Le_fin hr f64Value_one]
  exact ⟨hr0, hr1⟩

/-- A smoothed delay time in its range gives a delay from 0 to `LEN_MAX + 1` samples (R45, R142). -/
theorem delaySamples_finite (k : Nat) (c : Chan) {s : State} {sm : F64} (hconf : s.confOk = true)
    (hc : s.conf.cfg = true) (hsm : inRange sm (delayFloor s.conf) s.conf.maxd = true) :
    ∃ y, f64Value (delaySamples binary64 k c s.conf.sr sm) = .fin y ∧ 0 ≤ y ∧
      y ≤ (Config.lenMax + 1) * f64Unit := by
  obtain ⟨hsr, -, hlen⟩ := (confOk_iff s).mp hconf hc
  obtain ⟨hgt, hfin⟩ := (positiveFinite_iff _).mp hsr
  obtain ⟨x, hx⟩ := (f64IsFinite_iff _).mp hfin
  have hx0 : 0 < x := by simpa [f64Gt, f64Lt, f64Value_plusZero, hx, valueLt] using hgt
  obtain ⟨m, hm, hm0⟩ := maxd_positive hconf hc
  obtain ⟨l, hl, hl0⟩ := delayFloor_nonneg hconf hc
  obtain ⟨v, hv, hlv, hvm⟩ := exists_fin_of_inRange hl hm hsm
  have hprod := configureLength_product_lt hlen hx hm hx0 hm0
  have hle : x * v ≤ x * m := by gcongr
  have htop : f64Value (f64OfInt (Config.lenMax + 1)) = .fin ((Config.lenMax + 1) * f64Unit) :=
    f64Value_ofInt (by decide)
  obtain ⟨y, hy, hy0, hy1, -⟩ := f64Mul_between (sampleDraw k c .dts) hx hv f64Value_plusZero htop
    (by rw [zero_mul]; exact mul_nonneg hx0.le (hl0.trans hlv)) (hle.trans hprod.le)
  exact ⟨y, hy, hy0, hy1⟩

/-! ## Memories and channels that hold only zeros -/

theorem memory_read_isZero {m : Memory F64} (h : Memory.allZero m = true) (i : Nat) :
    f64IsZero (Memory.read Config.plusZero m i) = true := by
  have hz : f64IsZero Config.plusZero = true := (f64IsZero_iff _).mpr f64Value_plusZero
  induction m with
  | nil => exact hz
  | cons e m ih =>
    simp only [Memory.allZero, List.all_cons, Bool.and_eq_true] at h
    rw [Memory.read]
    split_ifs
    · exact h.1
    · exact hz
    · exact ih h.2

theorem memory_write_allZero {m : Memory F64} (i : Nat) {v : F64} (h : Memory.allZero m = true)
    (hv : f64IsZero v = true) : Memory.allZero (Memory.write Config.plusZero m i v) = true := by
  induction m with
  | nil =>
    rw [Memory.write]
    split_ifs <;> simp [Memory.allZero, hv]
  | cons e m ih =>
    simp only [Memory.allZero, List.all_cons, Bool.and_eq_true] at h ih ⊢
    rw [Memory.write]
    split_ifs <;> simp [h, hv, ih]

/-- A channel whose buffer and feedback register hold only zeros (R182). -/
structure Channel.Silent (ch : Channel F64) : Prop where
  buf : Memory.allZero ch.buf = true
  fb : f64IsZero ch.fb = true

theorem silent_iff (s : State) : s.silent = true ↔ ∀ c, (s.chan c).Silent := by
  simp only [State.silent, Bool.and_eq_true]
  constructor
  · rintro ⟨⟨⟨hl, hr⟩, hfl⟩, hfr⟩ c
    cases c
    exacts [⟨hl, hfl⟩, ⟨hr, hfr⟩]
  · intro h
    exact ⟨⟨⟨(h .left).buf, (h .right).buf⟩, (h .left).fb⟩, (h .right).fb⟩

/-- PROCESS_SAMPLE on a silent channel and a zero input, with a weight for a fractional part: the buffer
keeps its zeros, and both values returned are zeros. -/
theorem processSample_silent (k : Nat) (c : Chan) (sr : F64) (len : Nat) (target : F64) {fbc xin : F64}
    {ch : Channel F64} (hch : ch.Silent) (hfbc : f64IsFinite fbc = true) (hx : f64IsZero xin = true)
    (hfrac : ∀ rh, rh = (processSample binary64 k c sr len target fbc xin ch).chan.rh →
      inRange (fraction binary64 k c rh (baseIndex binary64 k c rh)) Config.plusZero Config.one = true) :
    Memory.allZero (processSample binary64 k c sr len target fbc xin ch).chan.buf = true ∧
      f64IsZero (processSample binary64 k c sr len target fbc xin ch).out = true ∧
      f64IsZero (processSample binary64 k c sr len target fbc xin ch).fnew = true := by
  have hbuf : Memory.allZero (processSample binary64 k c sr len target fbc xin ch).chan.buf = true := by
    rw [processSample_buf, binary64_zero, writeValue, binary64_add]
    exact memory_write_allZero _ hch.buf (f64IsZero_add _ hx hch.fb)
  have hout : f64IsZero (processSample binary64 k c sr len target fbc xin ch).out = true := by
    rw [processSample_out, binary64_zero]
    exact interpolate_isZero k c (hfrac _ rfl) (memory_read_isZero hbuf _) (memory_read_isZero hbuf _)
  refine ⟨hbuf, hout, ?_⟩
  rw [processSample_fnew, feedbackValue, binary64_mul]
  exact f64IsZero_mul_finite _ hout hfbc

/-! ## One silent frame of a legal state -/

/-- The latched mix and feedback coefficients come from registers as some slot left them (R172). -/
theorem latchParams_inRange {s : State} (h : RegistersLegal s) :
    inRange (latchParams s).latch.ldw Config.dwMin Config.dwMax = true ∧
      inRange (latchParams s).latch.lfb Config.fbMin Config.fbMax = true := by
  have hslot : RegistersLegal (slot^[1] s) := registersLegal_stepInvariant.slot h
  have hslots : RegistersLegal (slot^[2] s) := registersLegal_stepInvariant.slot hslot
  obtain ⟨hdw, -⟩ := (paramsOk_iff _).mp hslot.2
  obtain ⟨-, hfb, -⟩ := (paramsOk_iff _).mp hslots.2
  rw [latchParams_eq]
  exact ⟨hdw, hfb⟩

theorem smoothOk_chan {s : State} {c : Chan} (h : s.smoothOk = true) (hc : s.conf.cfg = true) :
    inRange (s.chan c).sm (delayFloor s.conf) s.conf.maxd = true := by
  obtain ⟨hl, hr⟩ := (smoothOk_iff s).mp h hc
  cases c
  exacts [hl, hr]

/-- In a legal state the fractional part of either channel's read position is a weight. -/
theorem sampled_fraction_inRange (i : Nat) {s : State} (c : Chan) (hc : s.conf.cfg = true)
    (hheads : s.headsInRange = true) (h : SmoothLegal s) :
    ∀ rh, rh = ((latchParams s).sampled i c).chan.rh →
      inRange (fraction binary64 s.draws c rh (baseIndex binary64 s.draws c rh))
        Config.plusZero Config.one = true := by
  rintro rh rfl
  have hsm : inRange ((latchParams s).sampled i c).chan.sm (delayFloor s.conf) s.conf.maxd = true := by
    have hok := smoothOk_chan (frameBody_smoothOk i hc h) (c := c)
    rw [frameBody_chan, frameBody_conf, latchParams_conf] at hok
    exact hok hc
  have hw : (s.chan c).wh.toNat < s.conf.len.toNat := (headsInRange_iff_chan s).mp hheads c
  obtain ⟨-, -, hlen⟩ := (confOk_iff s).mp h.1.1 hc
  obtain ⟨y, hy, hy0, hy1⟩ := delaySamples_finite s.draws c h.1.1 hc hsm
  obtain ⟨x, hx, hlo, hhi⟩ := readPosition_finite s.draws c (bound := Config.lenMax + 1) hw
    (Nat.le_succ_of_le (configureLength_bounds hlen).2) (by decide) hy hy0 (by exact_mod_cast hy1)
  have hrh : ((latchParams s).sampled i c).chan.rh =
      readPosition binary64 s.draws c (s.chan c).wh.toNat s.conf.len.toNat
        (delaySamples binary64 s.draws c s.conf.sr ((latchParams s).sampled i c).chan.sm) := by
    rw [State.sampled, processSample_rh, latchParams_draws, latchParams_conf, latchParams_chan]
  rw [← hrh] at hx
  exact fraction_inRange s.draws c (bound := Config.lenMax + 1) (by decide) hx hlo hhi

/-- What every frame of a silent block begins with: a legal configured engine, silent, with zeros at every
index of the block. -/
structure SilentBlock (n : Nat) (s : State) : Prop where
  configured : s.conf.cfg = true
  legal : SmoothLegal s
  memory : s.memoryOk = true
  chan : ∀ c, (s.chan c).Silent
  io : ∀ c i, i < n → f64IsZero (s.ioRead c i) = true

theorem silentBlock_sampled {n i : Nat} {s : State} (c : Chan) (hi : i < n)
    (hheads : s.headsInRange = true) (h : SilentBlock n s) :
    Memory.allZero ((latchParams s).sampled i c).chan.buf = true ∧
      f64IsZero ((latchParams s).sampled i c).out = true ∧
      f64IsZero ((latchParams s).sampled i c).fnew = true := by
  have hfb : f64IsFinite (latchParams s).latch.lfb = true :=
    isFinite_of_inRange (l := f64Mag Config.fbMin) (h := f64Mag Config.fbMax) (by decide +kernel)
      (by decide +kernel) (latchParams_inRange h.legal.1).2
  have hfrac := sampled_fraction_inRange i c h.configured hheads h.legal
  rw [State.sampled, latchParams_draws, latchParams_conf, latchParams_chan, latchParams_ioRead] at hfrac ⊢
  exact processSample_silent s.draws c s.conf.sr s.conf.len.toNat _ (h.chan c) hfb (h.io c i hi) hfrac

/-- A frame of a silent block writes zeros to its buffers, its feedback registers and its outputs. -/
theorem silentBlock_frame {n i : Nat} {s : State} (hi : i < n) (hio : i < Config.ioLen)
    (hheads : s.headsInRange = true) (h : SilentBlock n s) :
    SilentBlock n (frameBody i (latchParams s)) := by
  have hsample (c : Chan) := silentBlock_sampled c hi hheads h
  have hlatched : (latchParams s).memoryOk = true := memoryOk_stepInvariant.latchParams h.memory
  refine ⟨by rw [frameBody_conf, latchParams_conf, h.configured],
    smoothLegal_stepInvariant.frame i s hio h.configured hheads h.legal
      (smoothLegal_stepInvariant.latchParams h.legal),
    memoryOk_stepInvariant.frame i s hio h.configured hheads h.memory hlatched,
    fun c => ?_, fun c j hj => ?_⟩
  · rw [frameBody_chan]
    obtain ⟨hbuf, -⟩ := hsample c
    refine ⟨hbuf, ?_⟩
    dsimp only
    split
    exacts [(hsample c.other).2.2, (hsample c).2.2]
  · rw [frameBody_ioRead i c ((blockKept_zero hlatched).ioWf c), latchParams_ioRead, latchParams_ioRead]
    split
    · exact mix_isZero _ c (latchParams_inRange h.legal.1).1 (h.io c i hi) (hsample c).2.1
    · exact h.io c j hj

/-- A block that answers a state lies inside `IO` (R65). -/
theorem frames_within_io {k i : Nat} {s t : State} (h : frames k i s = .ok t) :
    k = 0 ∨ i + k ≤ Config.ioLen := by
  induction k generalizing i s with
  | zero => exact .inl rfl
  | succ k ih =>
    obtain ⟨u, hu, hrest⟩ := frames_succ_ok h
    obtain ⟨hi, -⟩ := frame_ok hu
    have := ih hrest
    omega

/-- Settles O30: every frame of the block keeps `SilentBlock`. -/
theorem silenceStaysSilent : Obligations.SilenceStaysSilent := by
  intro n s t hinv hc hs hio h
  simp only [State.Inv, Bool.and_eq_true] at hinv
  obtain ⟨⟨⟨⟨⟨hm, hh⟩, -⟩, hconf⟩, hp⟩, hsm⟩ := hinv
  rcases exec_process_cases h with ⟨h0, -⟩ | ⟨-, u, hu, rfl⟩
  · simp [hc] at h0
  have hwithin := frames_within_io hu
  have hblock := frames_keeps_indexed (fun j u => j ≤ n → SilentBlock n u)
    (fun _ _ _ hu hj => ⟨(hu hj).configured, (hu hj).legal, (hu hj).memory, (hu hj).chan, (hu hj).io⟩)
    (fun j u hheads hu hj => silentBlock_frame hj (by omega) hheads (hu (by omega))) hu
    (fun _ => ⟨hc, ⟨⟨hconf, hp⟩, hsm⟩, hm, (silent_iff s).mp hs, hio⟩) (by omega)
  exact ⟨(silent_iff u).mpr hblock.chan, hblock.io⟩

/-! ## The mix at its ends (R183) -/

/-- An infinity is the word of its sign (R93). -/
theorem f64Inf_of_value {a : F64} {neg : Bool} (h : f64Value a = .inf neg) : f64Inf neg = a := by
  unfold f64Value at h
  split_ifs at h with hexp hfrac
  cases h
  have hbits : a.toNat % 2 ^ 63 = f64InfBits := by
    unfold f64Exp at hexp
    unfold f64Frac at hfrac
    unfold f64InfBits
    omega
  rw [f64Inf, ← hbits, f64Pack_self]

/-- A value that a word has is rounded to that word's pattern, at every scale (R202). -/
theorem f64Pack_roundBits_scaled {a : F64} {x : Int} (h : f64Value a = .fin x) (sh : Nat) :
    f64Pack (f64Sign a) (roundBits (x.natAbs * 2 ^ sh) sh) = a := by
  obtain ⟨p, -, hp⟩ := exists_pattern_of_finite h
  have hscale := roundBits_patternMag p 0
  rw [pow_zero, mul_one, ← roundBits_patternMag p sh, hp] at hscale
  rw [← hscale, f64Pack_roundBits h]

theorem f64Mul_one (d : Config.Draw) {a : F64} (ha : f64IsNaN a = false) :
    f64Mul d a Config.one = a := by
  have hsign : (f64Sign a != f64Sign Config.one) = f64Sign a := by
    rw [show f64Sign Config.one = false by decide, Bool.bne_false]
  rcases f64Value_cases a with ⟨hnan, -⟩ | ⟨-, -, hv⟩ | ⟨-, -, hv⟩
  · simp [ha] at hnan
  · have hunit : (f64Unit : Int) ≠ 0 := f64Unit_pos.ne'
    rw [f64Mul, hv, f64Value_one, hsign]
    simp only [hunit, if_false]
    exact f64Inf_of_value hv
  · rw [f64Mul_finite d hv f64Value_one, hsign, Int.natAbs_natCast, f64Unit]
    exact f64Pack_roundBits_scaled hv 1074

theorem f64Add_comm (d : Config.Draw) (a b : F64) : f64Add d a b = f64Add d b a := by
  unfold f64Add
  cases f64Value a with
  | nan => cases f64Value b <;> rfl
  | inf na =>
    cases f64Value b with
    | nan => rfl
    | inf nb => by_cases h : na = nb <;> simp [h, eq_comm]
    | fin y => rfl
  | fin x =>
    cases f64Value b with
    | nan => rfl
    | inf nb => rfl
    | fin y => simp only [add_comm x y, Bool.and_comm]

/-- Adding a zero of either sign keeps every value but `-0` (R202). -/
theorem f64Add_isZero (d : Config.Draw) {a b : F64} (ha : f64IsNaN a = false)
    (hne : a ≠ 0x8000000000000000#64) (hb : f64IsZero b = true) : f64Add d a b = a := by
  rw [f64IsZero_iff] at hb
  rcases f64Value_cases a with ⟨hnan, -⟩ | ⟨-, -, hv⟩ | ⟨-, hfin, -⟩
  · simp [ha] at hnan
  · rw [f64Add, hv, hb]
    exact f64Inf_of_value hv
  · obtain ⟨x, hx⟩ := (f64IsFinite_iff a).mp hfin
    have hplus := f64Add_plusZero d hx hne
    rw [f64Add_finite d hx f64Value_plusZero] at hplus
    rw [f64Add_finite d hx hb]
    split at hplus
    · next h0 =>
      have hpos : f64Sign a = false := by
        rw [← hplus, show f64Sign Config.plusZero = false by decide, Bool.and_false]
        decide
      rw [if_pos h0, hpos, Bool.false_and]
      rwa [hpos, Bool.false_and] at hplus
    · next h0 => rw [if_neg h0, hplus]

/-- Settles O33: one product is the sample itself, the other a zero, and adding a zero keeps the sample. -/
theorem mixAtItsEndsReturnsTheSample : Obligations.MixAtItsEndsReturnsTheSample := by
  intro k c dry wet
  constructor
  · intro hwet hdry hne
    have hweight (d : Config.Draw) : f64Sub d Config.one Config.plusZero = Config.one :=
      f64Add_isZero d (by decide +kernel) (by decide) (by decide +kernel)
    show mix binary64 k c dry wet Config.plusZero = dry
    rw [mix_binary64, mixRule, hweight, f64Mul_one _ hdry]
    exact f64Add_isZero _ hdry hne (f64IsZero_finite_mul _ hwet (by decide +kernel))
  · intro hdry hwet hne
    show mix binary64 k c dry wet Config.one = wet
    rw [mix_binary64, mixRule, f64Sub_self _ f64Value_one, f64Mul_one _ hwet, f64Add_comm]
    exact f64Add_isZero _ hwet hne (f64IsZero_finite_mul _ hdry (by decide +kernel))

end Sys2Proof.Machine


/-! SUPPORT. The delay line under ideal arithmetic (R178 to R181, R212): with constant latches a channel's
buffer holds its last `LEN` written values, so an integer delay reads the value written that many frames
before; the loop equations, and the impulse responses that follow from them. -/

namespace Sys2Proof.Machine

/-! ## Signals some frames back -/

theorem delayed_zero (x : Nat → Rat) (k : Nat) : delayed x 0 k = x k := by simp [delayed]

theorem delayed_succ (x : Nat → Rat) (d k : Nat) : delayed x (d + 1) (k + 1) = delayed x d k := by
  simp [delayed]

theorem delayed_before (x : Nat → Rat) {d k : Nat} (h : k < d) : delayed x d k = 0 := if_neg (by omega)

/-- A signal plus a multiple of another's last value, `d` frames back. -/
theorem delayed_add_mul_delayed (x y : Nat → Rat) (f : Rat) (d k : Nat) :
    delayed (fun j => x j + f * delayed y 1 j) d k = delayed x d k + f * delayed y (d + 1) k := by
  rcases Nat.lt_or_ge k d with hk | hk
  · simp only [delayed_before _ hk, delayed_before _ (Nat.lt_succ_of_lt hk), mul_zero, add_zero]
  · obtain ⟨m, rfl⟩ := Nat.exists_eq_add_of_le hk
    simp [delayed, show d + 1 ≤ d + m ↔ 1 ≤ m by omega, show d + m - (d + 1) = m - 1 by omega]

/-! ## The buffer as the last `LEN` written values -/

theorem emod_natCast (k n : Nat) : emod (k : Int) n = k % n := by
  rw [emod, ← Int.natCast_mod, Int.toNat_natCast]

/-- Two integers that differ by a multiple of the length have one index. -/
theorem emod_congr_of_dvd_sub {a b : Int} {n : Nat} (h : (n : Int) ∣ a - b) : emod a n = emod b n := by
  rw [emod, emod, Int.emod_eq_emod_iff_emod_sub_eq_zero.mpr (Int.emod_eq_zero_of_dvd h)]

/-- A channel before frame `k` of a run with a constant target: the smoother is at the target, the head has
moved once a frame, and the entry `d` frames behind the head holds `x` of `d` frames back, `x` being what
each frame wrote. -/
structure DelayLine (target : Rat) (len : Nat) (x : Nat → Rat) (k : Nat) (ch : Channel Rat) : Prop where
  sm : ch.sm = target
  wh : ch.wh.toNat = k % len
  wf : Memory.wf 0 ch.buf = true
  past : ∀ d, 1 ≤ d → d ≤ len → Memory.read 0 ch.buf (emod ((k : Int) - d) len) = delayed x d k

theorem delayLine_start (target : Rat) (len : Nat) (x : Nat → Rat) :
    DelayLine target len x 0 (idealStart target) where
  sm := rfl
  wh := (Nat.zero_mod len).symm
  wf := memory_cleared_wf
  past _ h1 _ := (memory_cleared_read _).trans (delayed_before x h1).symm

/-- After frame `k`'s write the buffer holds `x` of 0 to `LEN - 1` frames back (R143, R151). -/
theorem DelayLine.read_written {target : Rat} {len k d : Nat} {x : Nat → Rat} {ch : Channel Rat}
    (h : DelayLine target len x k ch) (hd : d < len) :
    Memory.read 0 (Memory.write 0 ch.buf ch.wh.toNat (x k)) (emod ((k : Int) - d) len) =
      delayed x d k := by
  rw [memory_read_write _ _ _ h.wf, h.wh]
  rcases Nat.eq_zero_or_pos d with rfl | hpos
  · rw [if_pos (by simpa using emod_natCast k len), delayed_zero]
  · have hne : emod ((k : Int) - d) len ≠ k % len := by
      intro heq
      have h1 := emod_dvd_sub ((k : Int) - d) (show 1 ≤ len by omega)
      have h2 := emod_dvd_sub (k : Int) (show 1 ≤ len by omega)
      rw [heq] at h1
      rw [emod_natCast] at h2
      have hdvd : (len : Int) ∣ d := by
        have := dvd_sub h2 h1
        rwa [show (k : Int) - (k % len : Nat) - (k - d - (k % len : Nat)) = d by ring] at this
      exact absurd (Nat.le_of_dvd hpos (Int.natCast_dvd_natCast.mp hdvd)) (by omega)
    rw [if_neg hne, h.past d hpos hd.le]

/-- A smoother at its target stays there (R141). -/
theorem DelayLine.smoothed {target : Rat} {len k : Nat} {x : Nat → Rat} {ch : Channel Rat}
    (h : DelayLine target len x k ch) (c : Chan) (sr fbc xin : Rat) :
    (processSample ideal k c sr len target fbc xin ch).chan.sm = target := by
  rw [processSample_sm, smoothStep_ideal, h.sm, sub_self, zero_mul, add_zero]

/-- Each frame carries the delay line on (R141, R143, R149). -/
theorem DelayLine.succ {target : Rat} {len k : Nat} {x : Nat → Rat} {ch : Channel Rat} (c : Chan)
    (sr fbc : Rat) {xin : Rat} (fb : Rat) (h : DelayLine target len x k ch) (hlen : 1 ≤ len)
    (hmax : len ≤ Config.lenMax) (hx : x k = xin + ch.fb) :
    DelayLine target len x (k + 1)
      { (processSample ideal k c sr len target fbc xin ch).chan with fb := fb } where
  sm := h.smoothed c sr fbc xin
  wh := by
    have hlt : ch.wh.toNat < len := h.wh ▸ Nat.mod_lt k hlen
    rw [processSample_wh, advanceHead_toNat_of_le hlt hmax, ← Nat.mod_add_mod, ← h.wh]
    split
    · next hwrap => rw [hwrap, Nat.mod_self]
    · exact (Nat.mod_eq_of_lt (by omega)).symm
  wf := memory_write_wf _ _ h.wf
  past d h1 hd := by
    obtain ⟨e, rfl⟩ := Nat.exists_eq_add_of_le' h1
    rw [delayed_succ, ← h.read_written (show e < len by omega), hx]
    congr 2
    push_cast
    ring

/-- The read position of an integer delay is an integer, at the index that many frames back (R144). -/
theorem readPosition_ideal_natCast (k : Nat) (c : Chan) (w len d : Nat) :
    ∃ xi : Int, readPosition ideal k c w len d = xi ∧ (len : Int) ∣ xi - (w - d) := by
  rw [readPosition_ideal]
  split
  · exact ⟨w - d + len, by push_cast; rfl, by rw [add_sub_cancel_left]⟩
  · exact ⟨w - d, by push_cast; rfl, by rw [sub_self]; exact dvd_zero _⟩

/-- At an integer position the fractional part is 0 and the first tap is the output (R145 to R147). -/
theorem interpolate_ideal_natCast (k : Nat) (c : Chan) (xi : Int) (atX atX1 : Rat) :
    baseIndex ideal k c xi = xi ∧
      interpolate ideal k c (fraction ideal k c xi xi) atX atX1 = atX := by
  constructor
  · exact Int.floor_intCast xi
  · simp only [interpolate, fraction, ideal]
    ring

/-- An integer delay below `LEN` reads the value written that many frames before. -/
theorem DelayLine.out {target sr : Rat} {len k d : Nat} {x : Nat → Rat} {ch : Channel Rat} (c : Chan)
    (fbc : Rat) {xin : Rat} (h : DelayLine target len x k ch) (hd : d < len) (hdelay : sr * target = d)
    (hx : x k = xin + ch.fb) :
    (processSample ideal k c sr len target fbc xin ch).out = delayed x d k := by
  obtain ⟨xi, hxi, hdvd⟩ := readPosition_ideal_natCast k c ch.wh.toNat len d
  have hrh : (processSample ideal k c sr len target fbc xin ch).chan.rh = xi := by
    rw [processSample_rh, h.smoothed, ← hxi, ← hdelay]
    rfl
  have hindex : tapIndex xi len = emod ((k : Int) - d) len := by
    refine emod_congr_of_dvd_sub ?_
    have hk : (len : Int) ∣ (k % len : Nat) - k := by
      rw [Int.natCast_mod]
      exact Int.dvd_emod_sub_self
    rw [h.wh] at hdvd
    have := dvd_add hdvd hk
    rwa [show xi - ((k % len : Nat) - d) + ((k % len : Nat) - k) = xi - (k - d) by ring] at this
  rw [processSample_out]
  dsimp only
  rw [hrh, (interpolate_ideal_natCast k c xi 0 0).1, (interpolate_ideal_natCast k c xi _ _).2, hindex,
    ← h.read_written hd, hx]
  rfl

/-! ## The loop equations (R178, R179) -/

section
variable (sr : Rat) (len : Nat) (lt : Latches Rat) (in0 in1 : Nat → Rat)

/-- Channel `c` before frame `k`. -/
def idealChannel (c : Chan) (k : Nat) : Channel Rat :=
  c.pick (idealChannels sr len lt in0 in1 k).1 (idealChannels sr len lt in0 in1 k).2

/-- The wet signal of channel `c`. -/
def idealWet (c : Chan) : Nat → Rat :=
  c.pick (idealWet0 sr len lt in0 in1) (idealWet1 sr len lt in0 in1)

/-- What frame `k` writes into the buffer of channel `c` (R143). -/
def idealWritten (c : Chan) (k : Nat) : Rat := c.pick in0 in1 k + (idealChannel sr len lt in0 in1 c k).fb

/-- The channel whose fresh value the commit gives to channel `c` (R173). -/
def Latches.source {α : Type} (lt : Latches α) (c : Chan) : Chan := if lt.lpp then c.other else c

theorem idealWet_eq (c : Chan) (k : Nat) : idealWet sr len lt in0 in1 c k =
    (processSample ideal k c sr len (lt.target c) lt.lfb (c.pick in0 in1 k)
      (idealChannel sr len lt in0 in1 c k)).out := by
  cases c <;> rfl

theorem idealChannel_zero (c : Chan) :
    idealChannel sr len lt in0 in1 c 0 = idealStart (lt.target c) := by
  cases c <;> rfl

theorem idealChannel_succ (c : Chan) (k : Nat) : idealChannel sr len lt in0 in1 c (k + 1) =
    { (processSample ideal k c sr len (lt.target c) lt.lfb (c.pick in0 in1 k)
        (idealChannel sr len lt in0 in1 c k)).chan with
      fb := lt.lfb * idealWet sr len lt in0 in1 (lt.source c) k } := by
  cases c <;> cases hp : lt.lpp <;>
    simp [idealChannel, idealChannels, idealFrame, frameCore, commitFeedback_eq, Latches.source,
      Latches.target, idealWet, idealWet0, idealWet1, Chan.other, Chan.pick, hp, processSample_fnew,
      feedbackValue, ideal, mul_comm]

/-- The feedback register holds the scaled wet sample of the frame before (R148, R173). -/
theorem idealChannel_fb (c : Chan) (k : Nat) : (idealChannel sr len lt in0 in1 c k).fb =
    lt.lfb * delayed (idealWet sr len lt in0 in1 (lt.source c)) 1 k := by
  cases k with
  | zero => rw [idealChannel_zero, delayed_before _ Nat.one_pos, mul_zero, idealStart]
  | succ k => rw [idealChannel_succ, delayed_succ, delayed_zero]

theorem idealChannel_delayLine (hlen : 1 ≤ len) (hmax : len ≤ Config.lenMax) (c : Chan) (k : Nat) :
    DelayLine (lt.target c) len (idealWritten sr len lt in0 in1 c) k
      (idealChannel sr len lt in0 in1 c k) := by
  induction k with
  | zero =>
    rw [idealChannel_zero]
    exact delayLine_start _ _ _
  | succ k ih =>
    rw [idealChannel_succ]
    exact ih.succ c sr lt.lfb _ hlen hmax rfl

/-- The loop equation of either channel, with its feedback from the channel the commit names. -/
theorem idealWet_loop (hmax : len ≤ Config.lenMax) (c : Chan) {d : Nat} (hd : d + 1 ≤ len)
    (hdelay : sr * lt.target c = d) (k : Nat) : idealWet sr len lt in0 in1 c k =
      delayed (c.pick in0 in1) d k +
        lt.lfb * delayed (idealWet sr len lt in0 in1 (lt.source c)) (d + 1) k := by
  have hwritten : idealWritten sr len lt in0 in1 c = fun j => c.pick in0 in1 j +
      lt.lfb * delayed (idealWet sr len lt in0 in1 (lt.source c)) 1 j :=
    funext fun j => by rw [idealWritten, idealChannel_fb]
  have hline := idealChannel_delayLine sr len lt in0 in1 (by omega) hmax c k
  rw [idealWet_eq, hline.out c lt.lfb hd hdelay rfl, hwritten, delayed_add_mul_delayed]

end

/-- Settles O45: without ping-pong each channel feeds itself. -/
theorem loopEquationStraight : Obligations.LoopEquationStraight := by
  intro sr len lt in0 in1 d hmax hpp _ hd
  have hsource (c : Chan) : lt.source c = c := by simp [Latches.source, hpp]
  constructor
  · intro hdelay k
    have h := idealWet_loop sr len lt in0 in1 hmax .left hd hdelay k
    rwa [hsource] at h
  · intro hdelay k
    have h := idealWet_loop sr len lt in0 in1 hmax .right hd hdelay k
    rwa [hsource] at h

/-- Settles O46: with ping-pong each channel feeds the other. -/
theorem loopEquationPingPong : Obligations.LoopEquationPingPong := by
  intro sr len lt in0 in1 dL dR hmax hpp _ hL _ hR hdelayL hdelayR k
  have hsource (c : Chan) : lt.source c = c.other := by simp [Latches.source, hpp]
  have h0 := idealWet_loop sr len lt in0 in1 hmax .left hL hdelayL k
  have h1 := idealWet_loop sr len lt in0 in1 hmax .right hR hdelayR k
  rw [hsource] at h0 h1
  exact ⟨h0, h1⟩

/-! ## The impulse responses (R180, R181) -/

/-- The unit impulse in frame 0. -/
def impulse (k : Nat) : Rat := if k = 0 then 1 else 0

theorem delayed_impulse (d k : Nat) : delayed impulse d k = if k = d then 1 else 0 := by
  rcases Nat.lt_or_ge k d with h | h
  · rw [delayed_before _ h, if_neg h.ne]
  · simp only [delayed, impulse, if_pos h, show k - d = 0 ↔ k = d by omega]

/-- A loop of delay `d` and coefficient `f`, driven by the impulse. -/
def ImpulseLoop (f : Rat) (d : Nat) (w : Nat → Rat) : Prop :=
  ∀ k, w k = delayed impulse d k + f * delayed w (d + 1) k

/-- Its echoes are `d + 1` frames apart, each scaled once more. -/
theorem ImpulseLoop.echo {f : Rat} {d : Nat} {w : Nat → Rat} (h : ImpulseLoop f d w) (j : Nat) :
    w (d + j * (d + 1)) = f ^ j := by
  induction j with
  | zero =>
    rw [h, delayed_impulse, if_pos (by omega), delayed_before _ (by omega), mul_zero, add_zero, pow_zero]
  | succ j ih =>
    have hback : delayed w (d + 1) (d + (j + 1) * (d + 1)) = f ^ j := by
      rw [delayed, if_pos (by rw [Nat.add_mul]; omega), ← ih]
      congr 1
      rw [Nat.add_mul]
      omega
    rw [h, delayed_impulse, if_neg (by rw [Nat.add_mul]; omega), hback, zero_add, pow_succ, mul_comm]

/-- It is silent between its echoes. -/
theorem ImpulseLoop.silent {f : Rat} {d : Nat} {w : Nat → Rat} (h : ImpulseLoop f d w) {k : Nat}
    (hk : ∀ j, k ≠ d + j * (d + 1)) : w k = 0 := by
  induction k using Nat.strong_induction_on with
  | _ k ih =>
    have hback : delayed w (d + 1) k = 0 := by
      rcases Nat.lt_or_ge k (d + 1) with hlt | hge
      · exact delayed_before w hlt
      · rw [delayed, if_pos hge]
        refine ih _ (by omega) fun j hj => hk (j + 1) ?_
        rw [Nat.add_mul]
        omega
    rw [h, delayed_impulse, if_neg (by simpa using hk 0), hback, mul_zero, add_zero]

/-- At `dryWet = 1` the mix is the wet sample (R183). -/
theorem mix_ideal_one (k : Nat) (c : Chan) (dry wet : Rat) : mix ideal k c dry wet 1 = wet := by
  simp only [mix, ideal]
  ring

theorem idealOut_of_wetOnly {lt : Latches Rat} (hdw : lt.ldw = 1) (sr : Rat) (len : Nat)
    (in0 in1 : Nat → Rat) (k : Nat) :
    idealOut0 sr len lt in0 in1 k = idealWet0 sr len lt in0 in1 k ∧
      idealOut1 sr len lt in0 in1 k = idealWet1 sr len lt in0 in1 k := by
  simp only [idealOut0, idealOut1, idealFrame, frameCore, hdw, mix_ideal_one]
  exact ⟨rfl, rfl⟩

/-- Settles O47: the straight loop equation, driven by the impulse. -/
theorem impulseResponseStraight : Obligations.ImpulseResponseStraight := by
  intro sr len lt other d hmax hpp hdw h1 hd
  constructor
  · intro hdelay
    have hloop : ImpulseLoop lt.lfb d (idealWet0 sr len lt impulse other) :=
      (loopEquationStraight sr len lt impulse other d hmax hpp h1 hd).1 hdelay
    exact ⟨fun j => (idealOut_of_wetOnly hdw ..).1.trans (hloop.echo j),
      fun k hk => (idealOut_of_wetOnly hdw ..).1.trans (hloop.silent hk)⟩
  · intro hdelay
    have hloop : ImpulseLoop lt.lfb d (idealWet1 sr len lt other impulse) :=
      (loopEquationStraight sr len lt other impulse d hmax hpp h1 hd).2 hdelay
    exact ⟨fun j => (idealOut_of_wetOnly hdw ..).2.trans (hloop.echo j),
      fun k hk => (idealOut_of_wetOnly hdw ..).2.trans (hloop.silent hk)⟩

theorem delayed_add (x y : Nat → Rat) (d k : Nat) :
    delayed (fun j => x j + y j) d k = delayed x d k + delayed y d k := by
  unfold delayed
  split <;> simp

theorem delayed_sub (x y : Nat → Rat) (d k : Nat) :
    delayed (fun j => x j - y j) d k = delayed x d k - delayed y d k := by
  unfold delayed
  split <;> simp

theorem delayed_zeros (d k : Nat) : delayed (fun _ => 0) d k = 0 := by simp [delayed]

/-- Of two crossed loops of one delay, the first driven by the impulse, the sum is a loop with coefficient `f`
and the difference one with `-f`. -/
theorem impulseLoop_of_crossed {f : Rat} {d : Nat} {w0 w1 : Nat → Rat}
    (h0 : ∀ k, w0 k = delayed impulse d k + f * delayed w1 (d + 1) k)
    (h1 : ∀ k, w1 k = f * delayed w0 (d + 1) k) :
    ImpulseLoop f d (fun k => w0 k + w1 k) ∧ ImpulseLoop (-f) d (fun k => w0 k - w1 k) := by
  constructor <;> intro k
  · dsimp only
    rw [delayed_add, h0, h1]
    ring
  · dsimp only
    rw [delayed_sub, h0, h1]
    ring

/-- Settles O48: the sum and the difference of the two channels are straight loops with coefficients `f` and
`-f`, whose powers agree for an even echo and cancel for an odd one. -/
theorem impulseResponsePingPong : Obligations.ImpulseResponsePingPong := by
  intro sr len lt d hmax hpp hdw h1 hd hdelayL hdelayR
  have hloop := loopEquationPingPong sr len lt impulse (fun _ => 0) d d hmax hpp h1 hd h1 hd hdelayL hdelayR
  obtain ⟨hsum, hdiff⟩ := impulseLoop_of_crossed (fun k => (hloop k).1)
    (fun k => by rw [(hloop k).2, delayed_zeros, zero_add])
  have hout := idealOut_of_wetOnly hdw sr len impulse (fun _ => 0)
  constructor
  · intro j
    have hs := hsum.echo j
    have hd := hdiff.echo j
    rcases Nat.even_or_odd j with hj | hj
    · rw [hj.neg_pow] at hd
      rw [if_pos (Nat.even_iff.mp hj), if_pos (Nat.even_iff.mp hj)]
      exact ⟨(hout _).1.trans (by linarith), (hout _).2.trans (by linarith)⟩
    · rw [hj.neg_pow] at hd
      have hodd : j % 2 ≠ 0 := by rw [Nat.odd_iff.mp hj]; decide
      rw [if_neg hodd, if_neg hodd]
      exact ⟨(hout _).1.trans (by linarith), (hout _).2.trans (by linarith)⟩
  · intro k hk
    have hs := hsum.silent hk
    have hd := hdiff.silent hk
    exact ⟨(hout _).1.trans (by linarith), (hout _).2.trans (by linarith)⟩

end Sys2Proof.Machine


/-! SUPPORT. SETPARAM (43_setparam.md): the one register write behind a command from either port (R190, R241),
the values it stores (R192 to R196), what it leaves alone (R197), and the obligations about it. -/

namespace Sys2Proof.Machine

/-! ## A SETPARAM from either port (R97, R190, R241) -/

/-- `i` is one of the five SETPARAMs, with operand word `v`. -/
def IsSetparam (i : Instr) (v : OpWord) : Prop :=
  i = .setparamDrywet v ∨ i = .setparamFeedback v ∨ i = .setparamDtl v ∨ i = .setparamDtr v ∨
    i = .setparamPingpong v

theorem decodeSetparam_isSetparam {sel : BitVec 4} {v : OpWord} {i : Instr}
    (h : decodeSetparam sel v = .ok i) : IsSetparam i v := by
  unfold decodeSetparam at h
  split_ifs at h <;> cases h <;> simp [IsSetparam]

/-- Port B accepts nothing but SETPARAMs, and port A reads them the same (R103). -/
theorem decode_B_ok {p : Packet} {i : Instr} (h : decode .B p = .ok i) :
    decode .A p = .ok i ∧ ∃ v, IsSetparam i v := by
  by_cases ho : opcField p.cw = 2#4
  · rw [decode_B_setparam ho] at h
    refine ⟨h, p.ops.getD 0 0#64, ?_⟩
    rw [decode_A_setparam ho] at h
    split at h
    · exact decodeSetparam_isSetparam h
    · cases h
  · rw [decode_B_notSetparam ho] at h
    cases h

/-- From either port a SETPARAM is the same register write, then OK on the port it came from. -/
theorem IsSetparam.sameWrite {i : Instr} {v : OpWord} (h : IsSetparam i v) (s : State) :
    ∃ u, ParamWrite s u ∧ exec i s = .next (respond .A .ok u) ∧
      controlWrite i s = respond .B .ok u := by
  rcases h with rfl | rfl | rfl | rfl | rfl
  · exact ⟨_, .drywet v, rfl, rfl⟩
  · exact ⟨_, .feedback v, rfl, rfl⟩
  · exact ⟨_, .dtl v, rfl, rfl⟩
  · exact ⟨_, .dtr v, rfl, rfl⟩
  · exact ⟨_, .pingpong v, rfl, rfl⟩

theorem ParamWrite.respond_A_ok {s u : State} (h : ParamWrite s u) :
    respond .A .ok u = { s with params := u.params, rspA := s.rspA ++ [0#32] } := by
  rw [h.eq_with_params]
  rfl

theorem ParamWrite.respond_B_ok {s u : State} (h : ParamWrite s u) :
    respond .B .ok u = { s with params := u.params, rspB := s.rspB ++ [0#32] } := by
  rw [h.eq_with_params]
  rfl

/-- A command on port A that is a register write answered OK changes the parameter registers and port A's
answers. -/
theorem exec_eq_of_paramWrite {i : Instr} {s u : State} (hu : ParamWrite s u)
    (h : exec i s = .next (respond .A .ok u)) :
    exec i s = .next { s with params := u.params, rspA := s.rspA ++ [0#32] } := by
  rw [h, hu.respond_A_ok]

/-- Settles O7: `q` is what the one register write behind both ports leaves in the parameter registers. -/
theorem setparamIsTheSameFromEitherPort : Obligations.SetparamIsTheSameFromEitherPort := by
  intro i p s hB
  obtain ⟨hA, v, hi⟩ := decode_B_ok hB
  obtain ⟨u, hu, hexec, hcontrol⟩ := hi.sameWrite s
  refine ⟨hA, u.params, exec_eq_of_paramWrite hu hexec, ?_⟩
  rw [servePacketB_ok hB, hcontrol, hu.respond_B_ok]

/-! ## The values stored (R192 to R196) -/

/-- On a range that is not empty the upper bound need not be tested again once `lo` is taken (R10). -/
theorem clamp_of_nonempty {lo hi : F64} (v : F64) (h : f64Le lo hi = true) :
    clamp binary64 v lo hi = if f64Ge v lo then (if f64Gt v hi then hi else v) else lo := by
  by_cases hv : f64Le lo v = true
  · rw [clamp_of_ge hv, f64Ge, if_pos hv]
  · rw [clamp_of_below h (by simpa using hv), f64Ge, if_neg hv]

theorem drywetOperand_eq (v : F64) :
    drywetOperand v = if f64Ge v 0x0000000000000000#64 then
        (if f64Gt v 0x3FF0000000000000#64 then 0x3FF0000000000000#64 else v)
      else 0x0000000000000000#64 :=
  clamp_of_nonempty v (by decide +kernel)

theorem feedbackOperand_eq (v : F64) :
    feedbackOperand v = if f64Ge v 0x3F847AE147AE147B#64 then
        (if f64Gt v 0x3FEF5C28F5C28F5C#64 then 0x3FEF5C28F5C28F5C#64 else v)
      else 0x3F847AE147AE147B#64 :=
  clamp_of_nonempty v (by decide +kernel)

theorem pingpongOperand_zero : pingpongOperand 0#64 = false := by decide

theorem pingpongOperand_of_ne_zero {u : OpWord} (h : u ≠ 0#64) : pingpongOperand u = true :=
  decide_eq_true h

/-- Settles O17: the range `[+0, 1]` is not empty. -/
theorem setparamDrywetStoresClamped : Obligations.SetparamDrywetStoresClamped := by
  intro v s
  rw [← drywetOperand_eq]
  exact exec_eq_of_paramWrite (.drywet v) rfl

/-- Settles O18: the range `[FB_MIN, FB_MAX]` is not empty. -/
theorem setparamFeedbackStoresClamped : Obligations.SetparamFeedbackStoresClamped := by
  intro v s
  rw [← feedbackOperand_eq]
  exact exec_eq_of_paramWrite (.feedback v) rfl

/-- Settles O19: the range may be empty (`MAXD` below `DT_MIN`), so R10's two tests stay in their order. -/
theorem setparamDelayTimesStoreClamped : Obligations.SetparamDelayTimesStoreClamped := by
  intro v s
  exact ⟨exec_eq_of_paramWrite (.dtl v) rfl, exec_eq_of_paramWrite (.dtr v) rfl⟩

/-- Settles O20: the flag is the test for the zero word. -/
theorem setparamPingpongStoresTheFlag : Obligations.SetparamPingpongStoresTheFlag := by
  refine ⟨fun s => ?_, fun u s hu => ?_⟩
  · rw [← pingpongOperand_zero]
    exact exec_eq_of_paramWrite (.pingpong 0#64) rfl
  · rw [← pingpongOperand_of_ne_zero hu]
    exact exec_eq_of_paramWrite (.pingpong u) rfl

/-! ## What a SETPARAM leaves alone (R52, R197) -/

/-- A SETPARAM of one register leaves the four others. -/
theorem IsSetparam.otherParams {i : Instr} {v : OpWord} {s t : State} (hi : IsSetparam i v)
    (h : exec i s = .next t) :
    (i ≠ .setparamDrywet v → t.params.drywet = s.params.drywet) ∧
    (i ≠ .setparamFeedback v → t.params.feedback = s.params.feedback) ∧
    (i ≠ .setparamDtl v → t.params.dtl = s.params.dtl) ∧
    (i ≠ .setparamDtr v → t.params.dtr = s.params.dtr) ∧
    (i ≠ .setparamPingpong v → t.params.pingpong = s.params.pingpong) := by
  rcases hi with rfl | rfl | rfl | rfl | rfl
  all_goals
    cases h
    simp

/-- Settles O22: all but the parameter registers and port A's answers is `s`'s own, and of the registers only
the command's is written. -/
theorem setparamFrame : Obligations.SetparamFrame := by
  intro i s t v (hi : IsSetparam i v) h
  have hparams := hi.otherParams h
  obtain ⟨u, hu, hexec, -⟩ := hi.sameWrite s
  rw [exec_eq_of_paramWrite hu hexec] at h
  cases h
  exact ⟨rfl, rfl, rfl, rfl, rfl, fun _ _ => rfl, fun _ _ => rfl, rfl, rfl, rfl, rfl, rfl, hparams⟩

end Sys2Proof.Machine

/-! SUPPORT. The three operations of binary64 on finite values (R202, R203): rounding gives the nearest
pattern, with ties to even, so each operation returns its exact result rounded once. -/

namespace Sys2Proof.Machine

/-! ## The pattern of a rounded magnitude lies half a unit away at most (R202) -/

/-- The rounded quotient is off by at most half a unit, and even where it is off by just half a unit. -/
theorem roundShift_halfway (m k : Nat) :
    2 * (roundShift m k * 2 ^ k) ≤ 2 * m + 2 ^ k ∧ 2 * m ≤ 2 * (roundShift m k * 2 ^ k) + 2 ^ k ∧
      (2 * (roundShift m k * 2 ^ k) = 2 * m + 2 ^ k ∨ 2 * m = 2 * (roundShift m k * 2 ^ k) + 2 ^ k →
        roundShift m k % 2 = 0) := by
  have hm := Nat.div_add_mod' m (2 ^ k)
  have hr : m % 2 ^ k < 2 ^ k := Nat.mod_lt _ (Nat.two_pow_pos k)
  unfold roundShift
  dsimp only
  split
  · next hup =>
    rw [Nat.add_mul, Nat.one_mul]
    omega
  · next hdown => omega

/-- The next pattern is at least one unit above. -/
theorem add_unit_le_patternMag {k q p : Nat} (hk : k = 0 ∨ 2 ^ 52 ≤ q) (hq : q ≤ 2 ^ 53)
    (hp : k * 2 ^ 52 + q < p) : q * 2 ^ k + 2 ^ k ≤ patternMag p := by
  have hmono := patternMag_strictMono.monotone (Nat.succ_le_of_lt hp)
  refine le_trans ?_ hmono
  rcases Nat.lt_or_eq_of_le hq with hlt | rfl
  · rw [Nat.succ_eq_add_one, Nat.add_assoc, patternMag_step (by omega) hlt, Nat.succ_mul]
  · have hcarry : (k * 2 ^ 52 + 2 ^ 53).succ = (k + 1) * 2 ^ 52 + (2 ^ 52 + 1) := by omega
    rw [hcarry, patternMag_step (.inr (by omega)) (by omega), Nat.pow_succ]
    omega

/-- The pattern before is at least one unit below, where it has the same exponent step. -/
theorem patternMag_add_unit_le {k q p : Nat} (hk : k = 0 ∨ 2 ^ 52 < q) (hq : q ≤ 2 ^ 53)
    (hp : p < k * 2 ^ 52 + q) : patternMag p + 2 ^ k ≤ q * 2 ^ k := by
  obtain ⟨q, rfl⟩ : ∃ r, q = r + 1 := ⟨q - 1, by omega⟩
  have hmono : patternMag p ≤ patternMag (k * 2 ^ 52 + q) := patternMag_strictMono.monotone (by omega)
  rw [patternMag_step (by omega) (by omega)] at hmono
  rw [Nat.succ_mul]
  omega

/-- The magnitude of a packed word. -/
theorem f64Mag_pack (neg : Bool) {b : Nat} (h : b < 2 ^ 63) : f64Mag (f64Pack neg b) = patternMag b := by
  obtain ⟨hexp, hfrac, -⟩ := f64Pack_fields neg h
  unfold f64Mag patternMag
  rw [hexp, hfrac]

theorem f64Pack_mod_two (neg : Bool) (b : Nat) : (f64Pack neg b).toNat % 2 = b % 2 := by
  unfold f64Pack
  rw [BitVec.toNat_ofNat]
  split <;> omega

/-- The pattern that `roundBits` cuts at the infinity's: the exponent step and the rounded significand. -/
def roundPattern (m sh : Nat) : Nat :=
  (roundDrop m sh - sh) * 2 ^ 52 + roundShift m (roundDrop m sh)

theorem roundBits_eq_min (m sh : Nat) : roundBits m sh = min (roundPattern m sh) f64InfBits := rfl

theorem patternMag_roundPattern (m sh : Nat) :
    patternMag (roundPattern m sh) * 2 ^ sh = roundShift m (roundDrop m sh) * 2 ^ roundDrop m sh := by
  rw [roundPattern, patternMag_roundDrop, Nat.mul_assoc, Nat.pow_sub_mul_pow 2 (le_roundDrop m sh)]

theorem roundPattern_mod_two (m sh : Nat) :
    roundPattern m sh % 2 = roundShift m (roundDrop m sh) % 2 := by
  unfold roundPattern
  omega

theorem roundPattern_step (m sh : Nat) :
    roundDrop m sh - sh = 0 ∨ 2 ^ 52 ≤ roundShift m (roundDrop m sh) := by
  rcases Nat.lt_or_ge sh (roundDrop m sh) with h | h
  · exact .inr (le_roundShift_drop h)
  · exact .inl (by omega)

/-- A magnitude is not above the midpoint of its pattern and one above it; on the midpoint the pattern is
even. -/
theorem roundPattern_midpoint_above {m sh p : Nat} (h : roundPattern m sh < p) :
    2 * m ≤ patternMag (roundPattern m sh) * 2 ^ sh + patternMag p * 2 ^ sh ∧
      (2 * m = patternMag (roundPattern m sh) * 2 ^ sh + patternMag p * 2 ^ sh →
        roundPattern m sh % 2 = 0) := by
  obtain ⟨-, hhalf, htie⟩ := roundShift_halfway m (roundDrop m sh)
  have hgap := Nat.mul_le_mul_right (2 ^ sh)
    (add_unit_le_patternMag (roundPattern_step m sh) (roundShift_drop_le m sh) h)
  rw [← patternMag_roundDrop, ← roundPattern, Nat.add_mul, patternMag_roundPattern,
    Nat.pow_sub_mul_pow 2 (le_roundDrop m sh)] at hgap
  rw [patternMag_roundPattern, roundPattern_mod_two]
  omega

/-- Where more is dropped than the format asks for, the magnitude itself has 53 bits above what is dropped. -/
theorem le_of_lt_roundDrop {m sh : Nat} (h : sh < roundDrop m sh) : 2 ^ 52 * 2 ^ roundDrop m sh ≤ m := by
  have hdrop : 52 + roundDrop m sh = Nat.log2 m := by
    unfold roundDrop at h ⊢
    omega
  rw [← Nat.pow_add, hdrop]
  refine Nat.log2_self_le ?_
  rintro rfl
  simp at hdrop

/-- Nor is it below the midpoint with one below. At the least significand of its exponent step the pattern
was not rounded up, so all below is further away. -/
theorem roundPattern_midpoint_below {m sh p : Nat} (h : p < roundPattern m sh) :
    patternMag (roundPattern m sh) * 2 ^ sh + patternMag p * 2 ^ sh ≤ 2 * m ∧
      (patternMag (roundPattern m sh) * 2 ^ sh + patternMag p * 2 ^ sh = 2 * m →
        roundPattern m sh % 2 = 0) := by
  obtain ⟨hhalf, -, htie⟩ := roundShift_halfway m (roundDrop m sh)
  by_cases hleast : sh < roundDrop m sh ∧ roundShift m (roundDrop m sh) = 2 ^ 52
  · obtain ⟨hdrop, hq⟩ := hleast
    have hle : patternMag (roundPattern m sh) * 2 ^ sh ≤ m := by
      rw [patternMag_roundPattern, hq]
      exact le_of_lt_roundDrop hdrop
    have hlt : patternMag p * 2 ^ sh < patternMag (roundPattern m sh) * 2 ^ sh :=
      Nat.mul_lt_mul_of_pos_right (patternMag_strictMono h) (Nat.two_pow_pos sh)
    omega
  · have hstep := roundPattern_step m sh
    have hgap := Nat.mul_le_mul_right (2 ^ sh)
      (patternMag_add_unit_le (by omega) (roundShift_drop_le m sh) h)
    rw [← patternMag_roundDrop, ← roundPattern, Nat.add_mul, patternMag_roundPattern,
      Nat.pow_sub_mul_pow 2 (le_roundDrop m sh)] at hgap
    rw [patternMag_roundPattern, roundPattern_mod_two]
    omega

/-- Where every other value lies beyond its midpoint with `g`, none is nearer; as near is one whose midpoint
is the point itself. -/
theorem nearest_of_midpoint {g v m : Int} (hbelow : v < g → g + v ≤ 2 * m)
    (habove : g < v → 2 * m ≤ g + v) :
    |g - m| ≤ |v - m| ∧ (v ≠ g → |g - m| = |v - m| → g + v = 2 * m) := by
  rw [abs_eq_max_neg, abs_eq_max_neg]
  omega

/-- So no pattern is nearer, and where another is as near the pattern is even. -/
theorem roundPattern_nearest (m sh p : Nat) :
    |((patternMag (roundPattern m sh) * 2 ^ sh : Nat) : Int) - m| ≤
        |((patternMag p * 2 ^ sh : Nat) : Int) - m| ∧
      (patternMag p ≠ patternMag (roundPattern m sh) →
        |((patternMag (roundPattern m sh) * 2 ^ sh : Nat) : Int) - m| =
          |((patternMag p * 2 ^ sh : Nat) : Int) - m| →
        roundPattern m sh % 2 = 0) := by
  have hlt {a b : Nat} : patternMag a * 2 ^ sh < patternMag b * 2 ^ sh ↔ a < b := by
    rw [Nat.mul_lt_mul_right (Nat.two_pow_pos sh), patternMag_strictMono.lt_iff_lt]
  have hbelow (h : patternMag p * 2 ^ sh < patternMag (roundPattern m sh) * 2 ^ sh) :=
    roundPattern_midpoint_below (hlt.mp h)
  have habove (h : patternMag (roundPattern m sh) * 2 ^ sh < patternMag p * 2 ^ sh) :=
    roundPattern_midpoint_above (hlt.mp h)
  have hne (h : patternMag p ≠ patternMag (roundPattern m sh)) :
      patternMag p * 2 ^ sh ≠ patternMag (roundPattern m sh) * 2 ^ sh :=
    fun heq => h (Nat.eq_of_mul_eq_mul_right (Nat.two_pow_pos sh) heq)
  generalize patternMag (roundPattern m sh) * 2 ^ sh = g at *
  generalize patternMag p * 2 ^ sh = v at *
  obtain ⟨hnear, htie⟩ := nearest_of_midpoint (g := g) (v := v) (m := m) (by omega) (by omega)
  refine ⟨hnear, fun hmag heq => ?_⟩
  have hmid := htie (by exact_mod_cast hne hmag) heq
  have hdiff := hne hmag
  omega

/-! ## Overflow (R202) -/

/-- The midpoint of the largest finite value and the infinity's pattern. -/
theorem patternMag_overflow (sh : Nat) :
    patternMag (f64InfBits - 1) * 2 ^ sh + patternMag f64InfBits * 2 ^ sh =
      2 * ((2 ^ 54 - 1) * 2 ^ (2044 + sh)) := by
  have hmax : f64InfBits - 1 = 2045 * 2 ^ 52 + (2 ^ 53 - 1) := by decide
  have hinf : f64InfBits = 2045 * 2 ^ 52 + 2 ^ 53 := by decide
  rw [hmax, patternMag_step (.inr (by norm_num)) (by norm_num), hinf,
    patternMag_step (.inr (by norm_num)) le_rfl, ← Nat.add_mul, ← Nat.add_mul, Nat.mul_assoc,
    ← Nat.pow_add, show 2045 + sh = 2044 + sh + 1 by omega, Nat.pow_succ]
  omega

/-- The pattern reaches the infinity's from that midpoint on: the largest finite pattern is odd. -/
theorem f64InfBits_le_roundPattern_iff (m sh : Nat) :
    f64InfBits ≤ roundPattern m sh ↔ (2 ^ 54 - 1) * 2 ^ (2044 + sh) ≤ m := by
  have hover := patternMag_overflow sh
  have hodd : (f64InfBits - 1) % 2 = 1 := by decide
  have hpos : f64InfBits ≠ 0 := by decide
  have hmono {a b : Nat} (hab : a ≤ b) : patternMag a * 2 ^ sh ≤ patternMag b * 2 ^ sh :=
    Nat.mul_le_mul_right _ (patternMag_strictMono.monotone hab)
  generalize (2 ^ 54 - 1) * 2 ^ (2044 + sh) = mid at *
  constructor
  · intro h
    have hge := hmono h
    have hmid := roundPattern_midpoint_below (p := f64InfBits - 1) (m := m) (sh := sh) (by omega)
    omega
  · intro h
    by_contra hlt
    have hle := hmono (show roundPattern m sh ≤ f64InfBits - 1 by omega)
    obtain ⟨hmid, htie⟩ := roundPattern_midpoint_above (not_le.mp hlt)
    have heq : patternMag (roundPattern m sh) * 2 ^ sh = patternMag (f64InfBits - 1) * 2 ^ sh := by omega
    have hpat : roundPattern m sh = f64InfBits - 1 :=
      patternMag_strictMono.injective (Nat.eq_of_mul_eq_mul_right (Nat.two_pow_pos sh) heq)
    omega

theorem roundBits_eq_f64InfBits_iff (m sh : Nat) :
    roundBits m sh = f64InfBits ↔ (2 ^ 54 - 1) * 2 ^ (2044 + sh) ≤ m := by
  rw [roundBits_eq_min, min_eq_right_iff, f64InfBits_le_roundPattern_iff]

theorem roundBits_eq_roundPattern {m sh : Nat} (h : roundBits m sh < f64InfBits) :
    roundBits m sh = roundPattern m sh := by
  rw [roundBits_eq_min] at h ⊢
  omega

/-- A finite rounded magnitude is the nearest, an even one on a tie (R202). -/
theorem roundBits_nearest {m sh : Nat} (h : roundBits m sh < f64InfBits) (p : Nat) :
    |((patternMag (roundBits m sh) * 2 ^ sh : Nat) : Int) - m| ≤
        |((patternMag p * 2 ^ sh : Nat) : Int) - m| ∧
      (patternMag p ≠ patternMag (roundBits m sh) →
        |((patternMag (roundBits m sh) * 2 ^ sh : Nat) : Int) - m| =
          |((patternMag p * 2 ^ sh : Nat) : Int) - m| →
        roundBits m sh % 2 = 0) := by
  rw [roundBits_eq_roundPattern h]
  exact roundPattern_nearest m sh p

/-- Settles O38: the midpoints on both sides bound the magnitude, and the last of them is where it
overflows. -/
theorem roundingIsToNearestEven : Obligations.RoundingIsToNearestEven := by
  refine ⟨fun m sh x _ hfin => ?_, roundBits_eq_f64InfBits_iff⟩
  have hgot : f64Mag (f64Pack false (roundBits m sh)) = patternMag (roundBits m sh) :=
    f64Mag_pack false (hfin.trans (by decide))
  dsimp only
  rw [hgot, f64Mag_eq_patternMag]
  obtain ⟨hnear, htie⟩ := roundBits_nearest hfin (x.toNat % 2 ^ 63)
  exact ⟨hnear, fun hne => htie fun heq => hne (by rw [heq])⟩

/-- The pattern of a finite word is below the infinity's. -/
theorem pattern_lt_of_finite {x : F64} (h : f64IsFinite x = true) : x.toNat % 2 ^ 63 < f64InfBits := by
  have hexp : f64Exp x ≠ 2047 := by simpa [f64IsFinite] using h
  have hlt := f64Exp_lt x
  unfold f64Exp at hexp hlt
  unfold f64InfBits
  omega

/-- Settles O39: rounding a magnitude that a pattern has gives that pattern. -/
theorem roundingIsMonotoneAndExact : Obligations.RoundingIsMonotoneAndExact := by
  refine ⟨fun m m' sh => roundBits_mono sh, fun x sh hfin => ?_⟩
  rw [f64Mag_eq_patternMag, roundBits_patternMag, Nat.min_eq_left (pattern_lt_of_finite hfin).le]

/-! ## The exact result rounded once (R202) -/

/-- What is nearest among the magnitudes is nearest among the values, with the sign of the point `e`: a value
of the other sign is further away than its magnitude is from `|e|`. -/
theorem nearest_with_sign {g v e : Int} {neg : Bool} {even : Prop} (hg : 0 ≤ g) (h0 : e = 0 → g = 0)
    (hneg : e ≠ 0 → neg = decide (e < 0)) (hnear : abs (g - |e|) ≤ abs (|v| - |e|))
    (htie : |v| ≠ g → abs (g - |e|) = abs (|v| - |e|) → even) :
    |(if neg then -g else g) - e| ≤ |v - e| ∧
      (v ≠ (if neg then -g else g) → |(if neg then -g else g) - e| = |v - e| → even) := by
  simp only [abs_eq_max_neg] at hnear htie ⊢
  rcases lt_trichotomy e 0 with he | rfl | he
  · simp only [hneg he.ne, he, decide_true, if_true]
    refine ⟨by omega, fun hne heq => htie (by omega) (by omega)⟩
  · obtain rfl := h0 rfl
    simp only [neg_zero, ite_self]
    refine ⟨by omega, fun hne heq => htie (by omega) (by omega)⟩
  · simp only [hneg he.ne', he.not_gt, decide_false, Bool.false_eq_true, if_false]
    refine ⟨by omega, fun hne heq => htie (by omega) (by omega)⟩

theorem roundBits_zero (sh : Nat) : roundBits 0 sh = 0 := by
  simp [roundBits, roundShift, Nat.log2_zero]

/-- No finite value is nearer to `e` than its rounded magnitude with its sign, and where another is as near
the pattern is even (R202). -/
theorem roundBits_nearest_value {e v : Int} {sh : Nat} {neg : Bool} {w : F64}
    (hneg : e ≠ 0 → neg = decide (e < 0)) (hlt : roundBits e.natAbs sh < f64InfBits)
    (hw : f64Value w = .fin v) :
    let u : Int := if neg then -(patternMag (roundBits e.natAbs sh) : Int)
      else patternMag (roundBits e.natAbs sh)
    |u * 2 ^ sh - e| ≤ |v * 2 ^ sh - e| ∧
      (v ≠ u → |u * 2 ^ sh - e| = |v * 2 ^ sh - e| → roundBits e.natAbs sh % 2 = 0) := by
  intro u
  obtain ⟨p, -, hp⟩ := exists_pattern_of_finite hw
  obtain ⟨hnear, htie⟩ := roundBits_nearest hlt p
  have hpow : (2 ^ sh : Int) ≠ 0 := by positivity
  have hv : |v * 2 ^ sh| = ((patternMag p * 2 ^ sh : Nat) : Int) := by
    rw [hp, abs_mul, Int.abs_eq_natAbs, abs_of_nonneg (by positivity)]
    push_cast
    rfl
  have hu : u * 2 ^ sh = if neg then -((patternMag (roundBits e.natAbs sh) * 2 ^ sh : Nat) : Int)
      else ((patternMag (roundBits e.natAbs sh) * 2 ^ sh : Nat) : Int) := by
    rw [ite_mul, neg_mul]
    push_cast
    rfl
  rw [← Int.abs_eq_natAbs, ← hv] at hnear htie
  rw [Ne, ← mul_left_inj' hpow, hu]
  refine nearest_with_sign (Int.natCast_nonneg _) ?_ hneg hnear fun hne => htie fun heq => hne ?_
  · rintro rfl
    simp [roundBits_zero, patternMag]
  · rw [hv, heq]

/-- An exact result packed with its sign is rounded once; the sign of a zero is free (R202). -/
theorem roundedOnce_pack {e : Int} {sh : Nat} {neg : Bool} (hneg : e ≠ 0 → neg = decide (e < 0)) :
    RoundedOnce e sh (f64Pack neg (roundBits e.natAbs sh)) := by
  have hle := roundBits_le e.natAbs sh
  have hbits : roundBits e.natAbs sh < 2 ^ 63 := hle.trans_lt (by decide)
  refine ⟨fun hover => ?_, fun hfin => ?_, fun h0 => ?_⟩
  · have h0 : e ≠ 0 := by
      rintro rfl
      have : 0 < (2 ^ 54 - 1) * 2 ^ (2044 + sh) := by positivity
      omega
    rw [(roundBits_eq_f64InfBits_iff _ _).mpr hover, hneg h0]
    by_cases h : e < 0 <;> simp only [h, decide_true, decide_false, if_true, if_false] <;> decide
  · have hlt : roundBits e.natAbs sh < f64InfBits := by
      refine lt_of_le_of_ne hle fun heq => ?_
      rw [roundBits_eq_f64InfBits_iff] at heq
      omega
    refine ⟨_, f64Value_pack neg hlt, fun w v hw => ?_⟩
    obtain ⟨hnear, htie⟩ := roundBits_nearest_value hneg hlt hw
    exact ⟨hnear, fun hne heq => by rw [f64Pack_mod_two, htie hne heq]⟩
  · rw [(f64Pack_fields neg hbits).2.2, hneg h0]

theorem f64Sign_bne_of_mul_ne_zero {a b : F64} {x y : Int} (ha : f64Value a = .fin x)
    (hb : f64Value b = .fin y) (h : x * y ≠ 0) : (f64Sign a != f64Sign b) = decide (x * y < 0) := by
  obtain ⟨hx, hy⟩ := mul_ne_zero_iff.mp h
  rw [f64Sign_of_ne_zero ha hx, f64Sign_of_ne_zero hb hy]
  simp only [mul_neg_iff]
  by_cases hx0 : x < 0 <;> by_cases hy0 : y < 0 <;> simp [hx0, hy0] <;> omega

theorem f64Add_roundedOnce (d : Config.Draw) {a b : F64} {x y : Int} (ha : f64Value a = .fin x)
    (hb : f64Value b = .fin y) : RoundedOnce (x + y) 0 (f64Add d a b) := by
  rw [f64Add_finite d ha hb]
  split
  · next h0 =>
    rw [h0, f64Zero, ← roundBits_zero 0]
    exact roundedOnce_pack (e := 0) fun hne => absurd rfl hne
  · next h0 => exact roundedOnce_pack fun _ => rfl

/-- Settles O60: each operation packs its exact result rounded once. -/
theorem operationsRoundTheExactResultOnce : Obligations.OperationsRoundTheExactResultOnce := by
  intro d a b x y ha hb
  refine ⟨f64Add_roundedOnce d ha hb, f64Add_roundedOnce d ha (f64Value_neg hb), ?_, ?_⟩
  · rw [f64Mul_finite d ha hb, ← Int.natAbs_mul]
    exact roundedOnce_pack (f64Sign_bne_of_mul_ne_zero ha hb)
  · rw [f64Mul_finite d ha hb]
    exact (f64Pack_fields _ ((roundBits_le _ _).trans_lt (by decide))).2.2

/-! ## NaN operands, infinities and zeros (R202, R203) -/

/-- A produced NaN is a NaN with the quiet bit set, whatever its free bits (R203). -/
theorem quietNaN_isQuiet (bits : BitVec 52) :
    f64IsNaN (quietNaN bits) = true ∧ (quietNaN bits).getLsbD 51 = true := by
  refine ⟨f64IsNaN_quietNaN bits, ?_⟩
  obtain ⟨-, hquiet⟩ := quietNaN_fields bits
  unfold f64Frac at hquiet
  rw [← BitVec.testBit_toNat, Nat.testBit_eq_decide_div_mod_eq]
  exact decide_eq_true (by omega)

theorem f64Add_of_nan (d : Config.Draw) {a b : F64} (h : f64Value a = .nan ∨ f64Value b = .nan) :
    f64Add d a b = quietNaN (Config.freeNaN d) := by
  unfold f64Add
  rcases h with h | h
  · rw [h]
  · rw [h]
    cases f64Value a <;> rfl

theorem f64Mul_of_nan (d : Config.Draw) {a b : F64} (h : f64Value a = .nan ∨ f64Value b = .nan) :
    f64Mul d a b = quietNaN (Config.freeNaN d) := by
  unfold f64Mul
  rcases h with h | h
  · rw [h]
  · rw [h]
    cases f64Value a <;> rfl

theorem f64Value_neg_nan {a : F64} (h : f64Value a = .nan) : f64Value (f64Neg a) = .nan := by
  obtain ⟨hexp, hfrac, -⟩ := f64Neg_fields a
  rw [← f64IsNaN_iff] at h ⊢
  rwa [f64IsNaN, hexp, hfrac]

theorem f64Value_neg_inf {a : F64} {n : Bool} (h : f64Value a = .inf n) :
    f64Value (f64Neg a) = .inf (!n) := by
  obtain ⟨hexp, hfrac, hsign⟩ := f64Neg_fields a
  unfold f64Value at h ⊢
  split_ifs at h with he hf
  cases h
  rw [hexp, hfrac, hsign, if_pos he, if_pos hf]

theorem f64Add_opposite_inf (d : Config.Draw) {a b : F64} {n : Bool} (ha : f64Value a = .inf n)
    (hb : f64Value b = .inf (!n)) : f64Add d a b = quietNaN (Config.freeNaN d) := by
  unfold f64Add
  rw [ha, hb]
  cases n <;> rfl

theorem f64Mul_comm (d : Config.Draw) (a b : F64) : f64Mul d a b = f64Mul d b a := by
  unfold f64Mul
  rw [bne_comm (a := f64Sign a)]
  cases f64Value a with
  | nan => cases f64Value b <;> rfl
  | inf na => cases f64Value b <;> rfl
  | fin x =>
    cases f64Value b with
    | nan => rfl
    | inf nb => rfl
    | fin y => simp only [Nat.mul_comm x.natAbs]

theorem f64Mul_zero_inf (d : Config.Draw) {a b : F64} {n : Bool} (ha : f64IsZero a = true)
    (hb : f64Value b = .inf n) : f64Mul d a b = quietNaN (Config.freeNaN d) := by
  rw [f64IsZero_iff] at ha
  unfold f64Mul
  rw [ha, hb]
  rfl

/-- The product of a zero and a finite value is the zero of the product of the signs (R202). -/
theorem f64Mul_zero_finite (d : Config.Draw) {a b : F64} (ha : f64IsZero a = true)
    (hb : f64IsFinite b = true) :
    f64Mul d a b = if f64Sign a = f64Sign b then 0x0000000000000000#64 else 0x8000000000000000#64 := by
  obtain ⟨y, hy⟩ := (f64IsFinite_iff b).mp hb
  rw [f64Mul_finite d ((f64IsZero_iff a).mp ha) hy, Int.natAbs_zero, Nat.zero_mul, roundBits_zero]
  cases f64Sign a <;> cases f64Sign b <;> decide

theorem f64Add_zeros (d : Config.Draw) {a b : F64} (ha : f64IsZero a = true) (hb : f64IsZero b = true) :
    f64Add d a b = f64Zero (f64Sign a && f64Sign b) := by
  rw [f64IsZero_iff] at ha hb
  rw [f64Add_finite d ha hb, if_pos (add_zero 0)]

/-- Settles O40, a case of the operations for each clause. -/
theorem specialCasesOfTheOperations : Obligations.SpecialCasesOfTheOperations := by
  intro d a b
  have hquiet := quietNaN_isQuiet (Config.freeNaN d)
  have hminus : f64IsZero 0x8000000000000000#64 = true := by decide +kernel
  have hplus : f64IsZero 0x0000000000000000#64 = true := by decide +kernel
  refine ⟨fun hnan => ?_, fun n ha hb => ?_, fun n ha hb => ?_, fun n ha hb => ?_, fun ha => ?_, ?_, ?_, ?_,
    fun ha hb => ?_⟩
  · simp only [f64IsNaN_iff] at hnan
    rw [f64Sub, f64Add_of_nan d hnan, f64Add_of_nan d (hnan.imp_right f64Value_neg_nan),
      f64Mul_of_nan d hnan]
    exact ⟨hquiet, hquiet, hquiet⟩
  · rwa [f64Add_opposite_inf d ha hb]
  · rwa [f64Sub, f64Add_opposite_inf d ha (f64Value_neg_inf hb)]
  · rw [f64Mul_comm d b a, f64Mul_zero_inf d ha hb]
    exact ⟨hquiet, hquiet⟩
  · obtain ⟨x, hx⟩ := (f64IsFinite_iff a).mp ha
    have hone : f64Mul d a Config.one = a := f64Mul_one d (not_nan_of_finite ha)
    exact ⟨f64Sub_self d hx, f64Add_plusZero d hx, (f64Mul_comm d Config.one a).trans hone, hone⟩
  · rw [f64Add_zeros d hminus hminus]
    decide
  · rw [f64Add_zeros d hplus hminus]
    decide
  · rw [f64Add_zeros d hminus hplus]
    decide
  · dsimp only
    rw [f64Mul_comm d b a, f64Mul_zero_finite d ha hb]
    exact ⟨rfl, rfl⟩

end Sys2Proof.Machine


/-! SUPPORT. Integers and binary64 (R205 to R207, R211): which integers, floors and fractional parts are
words, and so where the conversions are exact; and how far the read index goes. -/

namespace Sys2Proof.Machine

/-! ## Representable values are computed exactly (R202, R206) -/

/-- A difference that is the value of a word is exact. -/
theorem f64Sub_exact (d : Config.Draw) {a b w : F64} {x y : Int} (ha : f64Value a = .fin x)
    (hb : f64Value b = .fin y) (hw : f64Value w = .fin (x - y)) :
    f64Value (f64Sub d a b) = .fin (x - y) := by
  obtain ⟨r, hr, hlo, hhi, -⟩ := f64Sub_between d ha hb hw hw le_rfl le_rfl
  rw [hr, le_antisymm hhi hlo]

/-- An integer that is the value of a word is converted exactly. -/
theorem f64Value_ofInt_exact {k : Int} {w : F64} (hw : f64Value w = .fin (k * f64Unit)) :
    f64Value (f64OfInt k) = .fin (k * f64Unit) := by
  have hneg : k * f64Unit ≠ 0 → decide (k < 0) = decide (k * f64Unit < 0) := fun _ => by
    rw [decide_eq_decide, mul_neg_iff]
    have := f64Unit_pos
    omega
  obtain ⟨r, hr, hlo, hhi, -⟩ := round_between (sh := 0) hneg hw hw (by rw [pow_zero, mul_one])
    (by rw [pow_zero, mul_one])
  rw [Int.natAbs_mul, Int.natAbs_natCast] at hr
  rw [f64OfInt, hr, le_antisymm hhi hlo]

/-- Every significand of 53 bits, at every scale, is the magnitude of a pattern. -/
theorem exists_pattern_of_scaled {q : Nat} (k : Nat) (hq : q < 2 ^ 53) :
    ∃ b, patternMag b = q * 2 ^ k := by
  induction k generalizing q with
  | zero => exact ⟨0 * 2 ^ 52 + q, patternMag_step (.inl rfl) hq.le⟩
  | succ k ih =>
    rcases Nat.lt_or_ge q (2 ^ 52) with hlow | hhigh
    · obtain ⟨b, hb⟩ := ih (q := q * 2) (by omega)
      exact ⟨b, by rw [hb, Nat.mul_assoc, ← Nat.pow_succ']⟩
    · exact ⟨(k + 1) * 2 ^ 52 + q, patternMag_step (.inr hhigh) hq.le⟩

/-- A significand of 53 bits, at a scale that keeps it below some finite value, is a value. -/
theorem exists_word_of_scaled {q k : Nat} {w : F64} {x : Int} (hq : q < 2 ^ 53)
    (hw : f64Value w = .fin x) (hle : ((q * 2 ^ k : Nat) : Int) ≤ x) :
    ∃ v, f64Value v = .fin ((q * 2 ^ k : Nat) : Int) := by
  obtain ⟨b, hb⟩ := exists_pattern_of_scaled k hq
  obtain ⟨p, hp, hpx⟩ := exists_pattern_of_finite hw
  have hbp : b ≤ p := patternMag_strictMono.le_iff_le.mp (by omega)
  refine ⟨f64Pack false b, ?_⟩
  rw [f64Value_pack false (hbp.trans_lt hp), hb, if_neg (by decide)]

/-- A finite value that is not negative is a significand of 53 bits at some scale. -/
theorem exists_scaled_of_nonneg {w : F64} {x : Int} (hw : f64Value w = .fin x) (hx : 0 ≤ x) :
    ∃ q k : Nat, q < 2 ^ 53 ∧ x = ((q * 2 ^ k : Nat) : Int) := by
  obtain ⟨p, -, hp⟩ := exists_pattern_of_finite hw
  obtain ⟨k, q, rfl, hk, hq⟩ := exists_step p
  rw [patternMag_step hk hq.le] at hp
  exact ⟨q, k, hq, by omega⟩

/-! ## The floor and the fractional part (R205, R206) -/

theorem f64FloorInt_finite (d : Config.Draw) {a : F64} {x : Int} (h : f64Value a = .fin x) :
    f64FloorInt d a = x / f64Unit := by
  rw [f64FloorInt, h]

/-- The fractional part of a finite value that is not negative is a value, and so is its floor: the one keeps
the low bits of the significand, the other the high ones. -/
theorem exists_words_of_nonneg {w : F64} {x : Int} (hw : f64Value w = .fin x) (hx : 0 ≤ x) :
    (∃ v, f64Value v = .fin (x / f64Unit * f64Unit)) ∧ ∃ v, f64Value v = .fin (x % f64Unit) := by
  obtain ⟨q, k, hq, rfl⟩ := exists_scaled_of_nonneg hw hx
  obtain ⟨u, hu⟩ : ∃ u, f64Unit = 2 ^ u := ⟨1074, rfl⟩
  rcases Nat.le_total u k with hk | hk
  · have hunit : f64Unit ∣ 2 ^ k := hu ▸ Nat.pow_dvd_pow 2 hk
    have hdvd : (f64Unit : Int) ∣ ((q * 2 ^ k : Nat) : Int) :=
      Int.natCast_dvd_natCast.mpr (hunit.mul_left q)
    rw [Int.ediv_mul_cancel hdvd, Int.emod_eq_zero_of_dvd hdvd]
    exact ⟨⟨w, hw⟩, _, f64Value_plusZero⟩
  · have hunit : f64Unit = 2 ^ (u - k) * 2 ^ k := by rw [← Nat.pow_add, Nat.sub_add_cancel hk, hu]
    have hfloor : q * 2 ^ k / f64Unit = q / 2 ^ (u - k) := by
      rw [hunit, Nat.mul_div_mul_right _ _ (Nat.two_pow_pos k)]
    have hfrac : q * 2 ^ k % f64Unit = q % 2 ^ (u - k) * 2 ^ k := by rw [hunit, Nat.mul_mod_mul_right]
    constructor
    · refine ⟨_, f64Value_ofInt ?_⟩
      rw [← Int.natCast_ediv, hfloor, Int.natAbs_natCast]
      exact (Nat.div_le_self _ _).trans_lt hq
    · rw [← Int.natCast_emod, hfrac]
      refine exists_word_of_scaled ((Nat.mod_le _ _).trans_lt hq) hw ?_
      exact_mod_cast Nat.mul_le_mul_right _ (Nat.mod_le _ _)

theorem f64Unit_eq : (f64Unit : Int) = 2 ^ 1074 := by
  rw [f64Unit, Nat.cast_pow, Nat.cast_ofNat]

/-- `int_to_num` is exact on the integers the hardware converts (R206). -/
theorem f64Value_ofInt_converted (k : Int) (hk : |k| ≤ 2 * 2097152 + 1) :
    f64Value (f64OfInt k) = .fin (k * 2 ^ 1074) := by
  rw [← f64Unit_eq]
  refine f64Value_ofInt ?_
  rw [Int.abs_eq_natAbs] at hk
  omega

/-- Settles O41: the floor and the fractional part are both values, so neither is rounded. -/
theorem fractionIsExactWhenNotNegative : Obligations.FractionIsExactWhenNotNegative := by
  refine ⟨f64Value_ofInt_converted, fun d rh x hrh hx => ?_⟩
  obtain ⟨⟨floor, hfloor⟩, frac, hfrac⟩ := exists_words_of_nonneg hrh hx
  have hmod : x % f64Unit = x - x / f64Unit * f64Unit := by rw [Int.emod_def, mul_comm]
  rw [hmod] at hfrac
  rw [f64FloorInt_finite d hrh, ← f64Unit_eq, hmod]
  exact f64Sub_exact d hrh (f64Value_ofInt_exact hfloor) hfrac

/-- Refutes O42 at `-2^-1074`: the floor is -1, and the exact difference `1 - 2^-1074` rounds to 1. -/
theorem not_fractionIsExactForEveryFiniteValue : ¬ Obligations.FractionIsExactForEveryFiniteValue := by
  rintro ⟨-, hfrac⟩
  have htiny : f64Value 0x8000000000000001#64 = .fin (-1) := by decide +kernel
  have hrounded : f64Value (f64Sub ⟨0, .configure⟩ 0x8000000000000001#64
      (f64OfInt (f64FloorInt ⟨0, .configure⟩ 0x8000000000000001#64))) = .fin f64Unit := by decide +kernel
  obtain ⟨y, hy, -, -, hlt⟩ := hfrac ⟨0, .configure⟩ _ _ htiny
  rw [hrounded] at hy
  injection hy with hy
  rw [← hy, f64Unit_eq] at hlt
  exact lt_irrefl _ hlt

/-! ## `round_half_away` (R207) -/

theorem f64RoundHalfAway_pos (d : Config.Draw) {a : F64} {x : Int} (h : f64Value a = .fin x) (hx : 0 < x) :
    f64RoundHalfAway d a = if 2 * (x % f64Unit) < f64Unit then x / f64Unit else x / f64Unit + 1 := by
  lift x to Nat using hx.le
  simp only [f64RoundHalfAway, h, hx.not_gt, if_false, Int.natAbs_natCast, roundHalfUp, Nat.cast_ite]
  norm_cast

/-- Settles O43: on a positive value the nearest integer is told by the remainder of its units. -/
theorem roundHalfAwayFollowsR207 : Obligations.RoundHalfAwayFollowsR207 := by
  refine ⟨fun d a x ha hx => ?_, fun d => ?_⟩
  · have hmod : x % f64Unit = x - x / f64Unit * f64Unit := by rw [Int.emod_def, mul_comm]
    have hpos := f64Unit_pos
    dsimp only
    rw [f64FloorInt_finite d ha, f64RoundHalfAway_pos d ha hx, hmod, ← f64Unit_eq]
    exact ⟨Int.ediv_mul_le x hpos.ne', Int.lt_ediv_add_one_mul_self x hpos, rfl⟩
  · have hdraw (a : F64) (ha : f64IsFinite a = true) := f64RoundHalfAway_draw ha d ⟨0, .configure⟩
    rw [hdraw 0x3FE0000000000000#64 (by decide), hdraw 0x3FDFFFFFFFFFFFFF#64 (by decide),
      hdraw 0x4004000000000000#64 (by decide), hdraw 0x4011000000000000#64 (by decide)]
    decide +kernel

/-! ## The read index (R211) -/

/-- A product of positive values that rounds to `n` or below is below `n + 1` (R122, R207). -/
theorem product_lt_of_roundHalfAway_le {d : Config.Draw} {a b : F64} {x y : Int} {n : Nat}
    (ha : f64Value a = .fin x) (hb : f64Value b = .fin y) (hx : 0 < x) (hy : 0 < y)
    (hfin : f64IsFinite (f64Mul d a b) = true) (hn : n + 1 < 2 ^ 53)
    (h : f64RoundHalfAway d (f64Mul d a b) ≤ n) : x * y < (n + 1) * f64Unit * 2 ^ 1074 := by
  have hround := lt_of_f64RoundHalfAway_le (f64Value_mul_of_pos ha hb hx hy hfin) (Int.natCast_nonneg _) h
  by_contra hge
  lift x to Nat using hx.le
  lift y to Nat using hy.le
  rw [Int.natAbs_natCast, Int.natAbs_natCast] at hround
  have hmag : (n + 1) * f64Unit * 2 ^ 1074 ≤ x * y := by exact_mod_cast not_lt.mp hge
  have hle := le_patternMag_roundBits hn hmag
  exact absurd hround (not_lt.mpr (by exact_mod_cast hle))

/-- The length that CONFIGURE computes is what the product of its operands rounds to (R120). -/
theorem configureLength_round {d : Config.Draw} {sr md : F64} {n : Nat}
    (h : configureLength binary64 d sr md = some n) :
    f64IsFinite (f64Mul d sr md) = true ∧ f64RoundHalfAway d (f64Mul d sr md) = n := by
  have hvalid : configureLength binary64 d sr md ≠ none := by simp [h]
  rw [Ne, configureLength_eq_none_iff] at hvalid
  simp only [not_or, Bool.not_eq_false, not_lt] at hvalid
  obtain ⟨hsr, hmd, hfin, hmin, hmax⟩ := hvalid
  refine ⟨hfin, ?_⟩
  obtain ⟨m, hm⟩ := Int.eq_ofNat_of_zero_le (zero_le_one.trans hmin)
  have hlen := configureLength_of_valid hsr hmd hfin hm (by omega) (by omega)
  rw [h] at hlen
  injection hlen with hlen
  rw [hm, hlen]

theorem f64Lt_fin {a b : F64} {x y : Int} (ha : f64Value a = .fin x) (hb : f64Value b = .fin y) :
    f64Lt a b = true ↔ x < y := by
  simp [f64Lt, ha, hb, valueLt]

theorem exists_pos_of_positiveFinite {v : F64} (h : positiveFinite binary64 v = true) :
    ∃ x, f64Value v = .fin x ∧ 0 < x := by
  obtain ⟨hgt, hfin⟩ := (positiveFinite_iff v).mp h
  obtain ⟨x, hx⟩ := (f64IsFinite_iff v).mp hfin
  exact ⟨x, hx, (f64Lt_fin f64Value_plusZero hx).mp hgt⟩

/-- A smoothed delay time in its range gives a delay from 0 to `LEN + 1` samples: the exact product is not
above the one whose rounding gave the length. -/
theorem delaySamples_le_length (k : Nat) (c : Chan) {s : State} {sm : F64} (hconf : s.confOk = true)
    (hc : s.conf.cfg = true) (hsm : inRange sm (delayFloor s.conf) s.conf.maxd = true) :
    ∃ y, f64Value (delaySamples binary64 k c s.conf.sr sm) = .fin y ∧ 0 ≤ y ∧
      y ≤ (s.conf.len.toNat + 1) * f64Unit := by
  obtain ⟨hsr, -, hlen⟩ := (confOk_iff s).mp hconf hc
  obtain ⟨x, hx, hx0⟩ := exists_pos_of_positiveFinite hsr
  obtain ⟨m, hm, hm0⟩ := maxd_positive hconf hc
  obtain ⟨l, hl, hl0⟩ := delayFloor_nonneg hconf hc
  obtain ⟨v, hv, hlv, hvm⟩ := exists_fin_of_inRange hl hm hsm
  have hle := lenW_bound s.conf.len
  obtain ⟨hp, hround⟩ := configureLength_round hlen
  have hprod := product_lt_of_roundHalfAway_le hx hm hx0 hm0 hp (by omega) hround.le
  have hmul : x * v ≤ x * m := by gcongr
  have htop : f64Value (f64OfInt (s.conf.len.toNat + 1)) = .fin ((s.conf.len.toNat + 1) * f64Unit) :=
    f64Value_ofInt (by omega)
  obtain ⟨y, hy, hy0, hy1, -⟩ := f64Mul_between (sampleDraw k c .dts) hx hv f64Value_plusZero htop
    (by rw [zero_mul]; exact mul_nonneg hx0.le (hl0.trans hlv)) (hmul.trans hprod.le)
  exact ⟨y, hy, hy0, hy1⟩

/-- With a delay of up to `LEN + 1` samples the read position lies from -1 to `LEN`: adding the length makes
good all but one sample (R144). -/
theorem readPosition_near (k : Nat) (c : Chan) {w len : Nat} {dts : F64} {y : Int} (hw : w < len)
    (hlen : len < 4194304) (hdts : f64Value dts = .fin y) (hy0 : 0 ≤ y)
    (hy : y ≤ (len + 1) * f64Unit) :
    ∃ x, f64Value (readPosition binary64 k c w len dts) = .fin x ∧ -(f64Unit : Int) ≤ x ∧
      x ≤ len * f64Unit := by
  have hpos := f64Unit_pos
  have hlo : f64Value (f64OfInt (-(len + 1))) = .fin (-(len + 1) * f64Unit) :=
    f64Value_ofInt (by omega)
  have hW : f64Value (f64OfInt w) = .fin (w * f64Unit) := f64Value_ofInt (by omega)
  have hL : f64Value (f64OfInt len) = .fin (len * f64Unit) := f64Value_ofInt (by omega)
  have hneg1 : f64Value (f64Neg Config.one) = .fin (-f64Unit) := f64Value_neg f64Value_one
  have hW0 : (0 : Int) ≤ w * f64Unit := mul_nonneg (Int.natCast_nonneg w) hpos.le
  have hWL : (w : Int) * f64Unit ≤ len * f64Unit := mul_le_mul_of_nonneg_right (by omega) hpos.le
  rw [neg_mul, add_one_mul] at hlo
  rw [add_one_mul] at hy
  generalize (w : Int) * f64Unit = W at *
  generalize (len : Int) * f64Unit = L at *
  generalize (f64Unit : Int) = U at *
  obtain ⟨x, hx, hxlo, hxhi, -⟩ := f64Sub_between (sampleDraw k c .back) hW hdts hlo hW
    (by omega) (by omega)
  rw [readPosition_binary64]
  split
  · next hneg =>
    rw [f64Lt_fin hx f64Value_plusZero] at hneg
    obtain ⟨z, hz, hzlo, hzhi, -⟩ := f64Add_between (sampleDraw k c .wrap) hx hL hneg1 hL
      (by omega) (by omega)
    exact ⟨z, hz, hzlo, hzhi⟩
  · next hnonneg =>
    rw [f64Lt_fin hx f64Value_plusZero] at hnonneg
    exact ⟨x, hx, by omega, by omega⟩

/-- Settles O36: the position lies from -1 to `LEN`, and so does its floor. -/
theorem readIndexStaysNearTheBuffer : Obligations.ReadIndexStaysNearTheBuffer := by
  intro s k c hinv hc
  simp only [State.Inv, Bool.and_eq_true] at hinv
  obtain ⟨⟨⟨⟨⟨-, hheads⟩, -⟩, hconf⟩, -⟩, hsm⟩ := hinv
  have hw := (headsInRange_iff_chan s).mp (headsInRange_of_headsOk hheads hc) c
  obtain ⟨y, hy, hy0, hy1⟩ := delaySamples_le_length k c hconf hc (smoothOk_chan hsm hc (c := c))
  obtain ⟨x, hx, hlo, hhi⟩ := readPosition_near k c hw (lenW_bound _) hy hy0 hy1
  dsimp only
  rw [baseIndex, binary64_floorInt, f64FloorInt_finite _ hx]
  refine ⟨(f64IsFinite_iff _).mpr ⟨x, hx⟩, ?_, ?_⟩
  · exact (Int.le_ediv_iff_mul_le f64Unit_pos).mpr ((neg_one_mul (f64Unit : Int)).trans_le hlo)
  · exact Int.ediv_le_of_le_mul f64Unit_pos hhi

end Sys2Proof.Machine


/-! SUPPORT. Which answer each command gives (60_exceptions.md: R230, R231, R233): read off the state before
the command, and each code told from the others by its response word. -/

namespace Sys2Proof.Machine

theorem responseWord_injective : Function.Injective responseWord := by
  intro r r'
  cases r <;> cases r' <;> simp [responseWord]

/-! ## The answer of a command -/

/-- The answer a command gives from `s` where it answers at all: CONFIGURE judges its operands, PROCESS looks at
`CFG`, and a SETPARAM never fails (R230). -/
def answerOf (i : Instr) (s : State) : Response :=
  match i with
  | .configure sr md =>
    if configureLength binary64 ⟨s.draws, .configure⟩ sr md = none then .invalidConfiguration else .ok
  | .process _ => if s.conf.cfg = false then .notConfigured else .ok
  | _ => .ok

theorem exec_rspA {i : Instr} {s t : State} (h : exec i s = .next t) :
    t.rspA = s.rspA ++ [responseWord (answerOf i s)] := by
  cases i with
  | configure sr md =>
    rcases exec_configure_cases h with ⟨hlen, rfl⟩ | ⟨n, hlen, rfl⟩ <;> simp [answerOf, hlen]
  | process n =>
    rcases exec_process_cases h with ⟨hc, rfl⟩ | ⟨hc, u, hu, rfl⟩
    · simp [answerOf, hc]
    · simp [answerOf, hc, (frames_portA_rspA hu).2]
  | _ => cases h; rfl

/-- The response word on port A tells which answer it was. -/
theorem exec_rspA_eq_iff {i : Instr} {s t : State} (h : exec i s = .next t) (r : Response) :
    t.rspA = s.rspA ++ [responseWord r] ↔ answerOf i s = r := by
  rw [exec_rspA h, List.append_right_inj, List.singleton_inj, responseWord_injective.eq_iff]

/-! ## Each error belongs to one command (R231, R233) -/

theorem answerOf_eq_invalidConfiguration_iff (i : Instr) (s : State) :
    answerOf i s = .invalidConfiguration ↔ ∃ sr md, i = .configure sr md ∧
      configureLength binary64 ⟨s.draws, .configure⟩ sr md = none := by
  cases i with
  | process n => cases hc : s.conf.cfg <;> simp [answerOf, hc]
  | _ => simp [answerOf]

theorem answerOf_eq_notConfigured_iff (i : Instr) (s : State) :
    answerOf i s = .notConfigured ↔ ∃ n, i = .process n ∧ s.conf.cfg = false := by
  cases i with
  | configure sr md =>
    cases hlen : configureLength binary64 ⟨s.draws, .configure⟩ sr md <;> simp [answerOf, hlen]
  | _ => simp [answerOf]

/-- IllegalCommand is the decoder's answer, never a command's (R234). -/
theorem answerOf_ne_illegalCommand (i : Instr) (s : State) : answerOf i s ≠ .illegalCommand := by
  cases i with
  | configure sr md =>
    cases hlen : configureLength binary64 ⟨s.draws, .configure⟩ sr md <;> simp [answerOf, hlen]
  | process n => cases hc : s.conf.cfg <;> simp [answerOf, hc]
  | _ => simp [answerOf]

/-- Settles O11: the response word tells the answer, and CONFIGURE's is an error where no length is valid. -/
theorem errorCodesBelongToTheirCommands : Obligations.ErrorCodesBelongToTheirCommands := by
  intro i s t h
  refine ⟨(exec_rspA_eq_iff h .invalidConfiguration).trans ?_,
    (exec_rspA_eq_iff h .notConfigured).trans (answerOf_eq_notConfigured_iff i s),
    fun h3 => answerOf_ne_illegalCommand i s ((exec_rspA_eq_iff h .illegalCommand).mp h3)⟩
  simp only [answerOf_eq_invalidConfiguration_iff, configureLength_eq_none_iff,
    positiveFinite_eq_false_iff, or_assoc]
  rfl

end Sys2Proof.Machine
